-- ==== Sys2Proof/Word.lean ====
section
/-! DEFINITION. The word types of the block (spec/00_scope.md rule R5) and the plainest arithmetic on them. Every
quantity of the block is unsigned (rule R8). -/

namespace Sys2Proof

/-- A register, a frequency count, a command word: WORD_W = FREQ_W = 32 bits (rule R5). -/
abbrev Word := BitVec 32

/-- A byte of IBUF or OBUF, and a symbol: SYM_W = 8 bits (rule R5). -/
abbrev Byte := BitVec 8

/-- A node weight: WEIGHT_W = 64 bits (rule R5). -/
abbrev Weight := BitVec 64

/-- A node index: NODE_IDX_W = 9 bits (rule R5). -/
abbrev NodeIdx := BitVec 9

/-- A bit counter of the BitReader: 34 bits (rule R27). -/
abbrev BitCount := BitVec 34

/-- A code of the code table: the branch bits from the root, first branch first (rule R25). -/
abbrev Code := List Bool

/-- The node index that means "no node" (rule R5). -/
abbrev NIL : NodeIdx := 511

/-- `ceil8(n) = (n + 7) div 8` (rule R8). -/
def ceil8 (n : Nat) : Nat := (n + 7) / 8

/-- The 256 symbol values in ascending order: `for s in 0..255` (rule R9). -/
def allSyms : List Byte := (List.range 256).map (BitVec.ofNat 8)

end Sys2Proof
end

