-- ==== Sys2Proof/Config.lean ====
section
/-! DEFINITION. What an instance of the block fixes (spec/00_scope.md rule R6, spec/20_memory.md rule R43) and the
values the spec leaves open, each an `opaque` constant with no body (spec/93_implementation_defined.md U1, U2, U4). -/

namespace Sys2Proof

/-- FREQ_BYTE_ORDER (rule R43). The decided value is `big`; the rule asks a model to carry it as a configuration field. -/
inductive ByteOrder where
  | big
  | little
deriving DecidableEq, Repr

/-- The open parameters of rule R6 and the configuration field of rule R43. They never change while the block runs
(spec/10_state.md rule R33). -/
structure Config where
  /-- IBUF_SIZE: bytes in IBUF. -/
  ibufSize : Nat
  /-- OBUF_SIZE: bytes in OBUF. -/
  obufSize : Nat
  /-- FREQ_BYTE_ORDER: byte order of the container's frequency field. -/
  freqByteOrder : ByteOrder
deriving DecidableEq, Repr

/-- The default for tests (rule R6): both buffers hold 65536 bytes; the byte order is the decided one (rule R43). -/
def Config.standard : Config := { ibufSize := 65536, obufSize := 65536, freqByteOrder := .big }

/-- FREE VALUE (rules R34, R175, U2): the byte IBUF holds at an offset that nothing has written since the reset number
`epoch`. -/
opaque Config.ibufAtReset (epoch offset : Nat) : Byte

/-- FREE VALUE (rules R34, R175, U2): the byte OBUF holds at an offset that nothing has written since the reset number
`epoch`. -/
opaque Config.obufAtReset (epoch offset : Nat) : Byte

/-- FREE VALUE: the `n`-th drawn byte (a violating 8-bit read, rule R47 and U4; the bytes of OBUF after a failed walk of
DECODE, rule R153 and U1). -/
opaque Config.freeByte (n : Nat) : Byte

/-- FREE VALUE: the `n`-th drawn word (a violating 32-bit read, rule R47 and U4). -/
opaque Config.freeWord (n : Nat) : Word

end Sys2Proof
end

