-- ==== Sys2Proof/Machine/State.lean ====
section
/-! DEFINITION. The state of the block as plain data: every element of spec/10_state.md, the host's accesses still to come
(spec/20_memory.md rules R46, R49), and the reasons a step can stop. -/

namespace Sys2Proof.Machine

/-- IBUF or OBUF: the bytes written since reset, as (offset, byte) pairs with strictly rising offsets. An offset that is not
listed has not been written since reset (rules R28, R34). -/
abbrev Memory := List Host.Cell

/-- The field `kind` of a node record (rule R22). -/
inductive NodeKind where
  | leaf
  | internal
deriving DecidableEq, Repr

/-- A node record (rule R22). -/
structure NodeRec where
  kind : NodeKind
  sym : Byte
  weight : Weight
  left : NodeIdx
  right : NodeIdx
  /-- The node is in the priority structure. -/
  inq : Bool
deriving DecidableEq, Repr

/-- A cleared record: every field 0 (rule R22; 90_conflicts.md C10). -/
def NodeRec.cleared : NodeRec :=
  { kind := .leaf, sym := 0, weight := 0, left := 0, right := 0, inq := false }

/-- Node memory `node[0..510]` (rule R22). -/
abbrev NodeMemory := Vector NodeRec 511

/-- The frequency table `ft[0..255]` (rule R21). -/
abbrev FreqTable := Vector Word 256

/-- The code table `ct[0..255]` (rule R25). A record is its bit sequence; its field `len` is the sequence's length
(DEDUCED: log entry 10). -/
abbrev CodeTable := Vector Code 256

/-- `tree_kind` (rule R23); the value 3 never occurs (rule R15). -/
inductive TreeKind where
  | none
  | single
  | multi
deriving DecidableEq, Repr

/-- The four access primitives of the host (rule R46). An offset has 32 bits, a width the spec does not give. DESIGN CHOICE, unsafe:
log entry 17. -/
inductive Access where
  | read32 (o : Word)
  | write32 (o v : Word)
  | read8 (o : Word)
  | write8 (o : Word) (v : Byte)
deriving DecidableEq, Repr

/-- What happens next to the block: an access of the host (rule R46), its reset input (rule R175), or the sequencer's turn,
at which a BUSY block completes its command (rule R64). -/
inductive Event where
  | access (a : Access)
  | reset
  | turn
deriving DecidableEq, Repr

/-- The answer to the host's last access: none for a write, the word or byte a read returned (rule R46). -/
inductive Answer where
  | none
  | word (v : Word)
  | byte (v : Byte)
deriving DecidableEq, Repr

/-- Why the machine stops with a fault. No state that meets the invariant of Sys2Proof/Safety.lean raises one; each stands for
an access to an element the spec says does not exist, or for a loop without end, in a state no run reaches. -/
inductive Fault where
  /-- Raised by `getbit` (BR_GETB, BR_GETSYM, DECODE) where `br_base + br_pos div 8` is not below IBUF_SIZE (rule R41 gives such
  a read no meaning). Safe: the machine stops. -/
  | ibufRange
  /-- Raised by `putbit` and by the finalisation (BW_PUTB, BW_PUTS, BW_PUTSYM, BW_FINAL, ENCODE) where a byte would be stored at
  or beyond OBUF_SIZE (rule R41 gives such a write no meaning). Safe: the machine stops. -/
  | obufRange
  /-- Raised by CODEGEN (alone or in ENCODE) and by the tree walk (BR_GETSYM, DECODE) where the node index is 511, for which
  there is no record (rule R24). Safe: the machine stops. -/
  | noSuchNode
  /-- Raised by CODEGEN (alone or in ENCODE) where the traversal of rule R95 would never end because the records form a cycle.
  Safe: the machine stops. -/
  | endlessTraversal
deriving DecidableEq, Repr

/-- Why an instruction is refused. -/
inductive Refusal where
  /-- Raised by `exec` for an instruction that has no meaning yet: safe, the machine stops. No arm of this model raises it. -/
  | notModelled (mnemonic : String)
deriving DecidableEq, Repr

/-- The state of the block. The rule beside a field names it in spec/10_state.md. -/
structure State where
  /-- R14: a command has been accepted and has not completed. -/
  busy : Bool
  /-- R14: the command word accepted last. -/
  cmdReg : Word
  /-- R15. -/
  done : Bool
  /-- R15. -/
  err : Bool
  /-- R15, sticky. -/
  fatal : Bool
  /-- R15, sticky. -/
  hostviol : Bool
  /-- R49: `hostviol` as it was when the running command was accepted, which STATUS shows while BUSY. DEDUCED: log entry 16. -/
  hostviolAtAccept : Bool
  /-- R18. -/
  errcode : BitVec 8
  /-- R18. -/
  errinfo : Word
  /-- R19: IE bit 0. -/
  ieDone : Bool
  /-- R19: IE bit 1. -/
  ieErr : Bool
  /-- R20. -/
  inLen : Word
  /-- R20. -/
  outLen : Word
  /-- R10. -/
  arg0 : Word
  /-- R10. -/
  arg1 : Word
  /-- R10. -/
  res0 : Word
  /-- R10. -/
  res1 : Word
  /-- R21. -/
  ft : FreqTable
  /-- R22. -/
  node : NodeMemory
  /-- R23: 10 bits. -/
  nnodes : BitVec 10
  /-- R23. -/
  root : NodeIdx
  /-- R16, R23. -/
  treeValid : Bool
  /-- R23. -/
  treeKind : TreeKind
  /-- R25. -/
  ct : CodeTable
  /-- R16. -/
  ctValid : Bool
  /-- R26. -/
  bwOpen : Bool
  /-- R26. -/
  bwPos : Word
  /-- R26. -/
  bwAcc : Byte
  /-- R26: 3 bits. -/
  bwCnt : BitVec 3
  /-- R27. -/
  brOpen : Bool
  /-- R27. -/
  brBase : Word
  /-- R27. -/
  brPos : BitCount
  /-- R27. -/
  brValid : BitCount
  /-- R28. -/
  ibuf : Memory
  /-- R28. -/
  obuf : Memory
  /-- R33: the constants PARAM_IBUF and PARAM_OBUF of this instance, and FREQ_BYTE_ORDER (R43). DEDUCED: log entry 7. -/
  cfg : Config
  /-- The model's own: what happens next, oldest first (R46, R49, R64, R175). DESIGN CHOICE, safe: log entry 1. -/
  inputs : List Event
  /-- The model's own: the answer to the host's last access (R46). DESIGN CHOICE: log entry 3. -/
  answer : Answer
  /-- The model's own: how many free values have been drawn (U1, U4). DESIGN CHOICE: log entry 5. -/
  draws : Nat
  /-- The model's own: how many resets the buffers have lived through; it selects their unwritten bytes (R175, U2).
  DESIGN CHOICE: log entry 4. -/
  resets : Nat
deriving DecidableEq, Repr

/-- The state after reset (rules R34, R175): the registers, tables and flags at the values of rule R34, IBUF and OBUF with no
byte written, nothing pending. -/
def State.reset : State where
  busy := false
  cmdReg := 0
  done := false
  err := false
  fatal := false
  hostviol := false
  hostviolAtAccept := false
  errcode := 0
  errinfo := 0
  ieDone := false
  ieErr := false
  inLen := 0
  outLen := 0
  arg0 := 0
  arg1 := 0
  res0 := 0
  res1 := 0
  ft := Vector.replicate 256 0
  node := Vector.replicate 511 NodeRec.cleared
  nnodes := 0
  root := NIL
  treeValid := false
  treeKind := .none
  ct := Vector.replicate 256 []
  ctValid := false
  bwOpen := false
  bwPos := 0
  bwAcc := 0
  bwCnt := 0
  brOpen := false
  brBase := 0
  brPos := 0
  brValid := 0
  ibuf := []
  obuf := []
  cfg := Config.standard
  inputs := []
  answer := .none
  draws := 0
  resets := 0

end Sys2Proof.Machine
end

