-- ==== Sys2Proof/Machine/Memory.lean ====
section
/-! DEFINITION. The two byte buffers (spec/10_state.md rule R28, spec/20_memory.md rules R41, R43) and the three tables
(rules R21, R22, R25): reading and writing one element, and the byte order of the frequency field. -/

namespace Sys2Proof.Machine

/-- The canonical form: offsets strictly rising. An unlisted offset has no stored value, so no entry can equal it. -/
def Memory.wf : Memory → Bool
  | [] => true
  | [_] => true
  | (a, _) :: (b, w) :: m => decide (a < b) && Memory.wf ((b, w) :: m)

/-- The byte written last at offset `a`, if one has been written. -/
def Memory.lookup : Memory → Nat → Option Byte
  | [], _ => none
  | (b, w) :: m, a => if a = b then some w else Memory.lookup m a

/-- Write byte `v` at offset `a`, keeping the offsets strictly rising. -/
def Memory.write : Memory → Nat → Byte → Memory
  | [], a, v => [(a, v)]
  | (b, w) :: m, a, v =>
    if a < b then (a, v) :: (b, w) :: m
    else if a = b then (a, v) :: m
    else (b, w) :: Memory.write m a v

/-- Write bytes at `a`, `a + 1`, ... in that order. -/
def Memory.writeBytes : Memory → Nat → List Byte → Memory
  | m, _, [] => m
  | m, a, v :: vs => Memory.writeBytes (m.write a v) (a + 1) vs

/-- Every listed offset is below `size` (rule R28). -/
def Memory.within (m : Memory) (size : Nat) : Bool := m.all (fun c => decide (c.1 < size))

/-- `IBUF[a]`: the byte written last, or the value reset left there (rules R9, R34). -/
def State.ibufByte (s : State) (a : Nat) : Byte :=
  match s.ibuf.lookup a with
  | some v => v
  | none => Config.ibufAtReset s.resets a

/-- `OBUF[a]`: the byte written last, or the value reset left there (rules R9, R34). -/
def State.obufByte (s : State) (a : Nat) : Byte :=
  match s.obuf.lookup a with
  | some v => v
  | none => Config.obufAtReset s.resets a

/-- `IBUF[0 .. in_len−1]`, the input of FREQ, ENCODE and DECODE (rule R20). -/
def State.inputBytes (s : State) : List Byte := (List.range s.inLen.toNat).map s.ibufByte

/-- `ft[s]` (rule R21). -/
def FreqTable.at (ft : FreqTable) (s : Byte) : Word := ft[s.toNat]'(by have := s.isLt; omega)

/-- `ft[s] <- v` in the table alone; the state's tables are written through `State.writeFt`. -/
def FreqTable.put (ft : FreqTable) (s : Byte) (v : Word) : FreqTable :=
  ft.set s.toNat v (by have := s.isLt; omega)

/-- The table with no retained symbol. -/
def FreqTable.empty : FreqTable := Vector.replicate 256 0

/-- The retained (symbol, count) pairs in ascending symbol order (rules R21, R68): "only symbols with count > 0 are retained". -/
def pairs (ft : FreqTable) : List (Byte × Word) := (allSyms.zip ft.toList).filter (fun e => e.2 != 0)

/-- The retained symbols in ascending order (rule R21). -/
def retained (ft : FreqTable) : List Byte := (pairs ft).map Prod.fst

/-- `nsym(ft)` (rule R21): the number of retained symbols. -/
def nsym (ft : FreqTable) : Nat := (pairs ft).length

/-- `total(ft)` (rule R21): the sum of the counts. -/
def total (ft : FreqTable) : Nat := (ft.toList.map BitVec.toNat).sum

/-- `ct[s].code` (rule R25). -/
def CodeTable.at (ct : CodeTable) (s : Byte) : Code := ct[s.toNat]'(by have := s.isLt; omega)

/-- `ct[s].len` (rule R25): the length of the code; 0 means that the symbol has no code. -/
def CodeTable.len (ct : CodeTable) (s : Byte) : Nat := (ct.at s).length

/-- `ct[s].len <- |c| ; ct[s].code <- c` (rule R95). -/
def CodeTable.put (ct : CodeTable) (s : Byte) (c : Code) : CodeTable :=
  ct.set s.toNat c (by have := s.isLt; omega)

/-- The table in which no symbol has a code. -/
def CodeTable.empty : CodeTable := Vector.replicate 256 []

/-- `node[i]`; there is no record 511 (rule R24). -/
def NodeMemory.at? (m : NodeMemory) (i : NodeIdx) : Option NodeRec := m[i.toNat]?

/-- Record `i` as the window shows it: there is no record 511 and it reads as cleared (rule R24). -/
def State.recAt (s : State) (i : Nat) : NodeRec := (s.node[i]?).getD NodeRec.cleared

/-- Node memory in which every record is cleared (rule R22). -/
def NodeMemory.clear : NodeMemory := Vector.replicate 511 NodeRec.cleared

/-- Node memory holding the given records from index 0 on, the rest cleared (rule R22). -/
def NodeMemory.ofList (ns : List NodeRec) : NodeMemory :=
  ⟨((ns.take 511) ++ List.replicate (511 - (ns.take 511).length) NodeRec.cleared).toArray, by simp⟩

/-- The four bytes of a frequency in container order (rule R43): `f[31:24]`, `f[23:16]`, `f[15:8]`, `f[7:0]` for the decided
order. -/
def freqBytes (o : ByteOrder) (f : Word) : List Byte :=
  let b := [f.extractLsb' 24 8, f.extractLsb' 16 8, f.extractLsb' 8 8, f.extractLsb' 0 8]
  match o with
  | .big => b
  | .little => b.reverse

/-- `BE32` (rule R8) of the four bytes of the frequency field, taken in the configured order (rule R43). -/
def freqOfBytes (o : ByteOrder) (b0 b1 b2 b3 : Byte) : Word :=
  match o with
  | .big => b0 ++ b1 ++ b2 ++ b3
  | .little => b3 ++ b2 ++ b1 ++ b0

end Sys2Proof.Machine
end

