-- ==== Sys2Proof/Syntax.lean ====
section
/-! DEFINITION. The instruction set: the fifteen commands of spec/30_encoding.md rule R62, one constructor for each row of
spec/opcode_table.json. A command word carries no operand (rule R60), so no constructor has an argument. -/

namespace Sys2Proof

/-- The fifteen commands (rule R62). -/
inductive Instr where
  /-- 0x00 NOP (rule R75). -/
  | nop
  /-- 0x01 CLEAR (rule R76). -/
  | clear
  /-- 0x10 FREQ (rule R80). -/
  | freq
  /-- 0x11 BUILD (rule R85). -/
  | build
  /-- 0x12 CODEGEN (rule R95). -/
  | codegen
  /-- 0x20 BW_INIT (rule R107). -/
  | bwInit
  /-- 0x21 BW_PUTB (rule R109). -/
  | bwPutb
  /-- 0x22 BW_PUTS (rule R110). -/
  | bwPuts
  /-- 0x23 BW_PUTSYM (rule R125). -/
  | bwPutsym
  /-- 0x24 BW_FINAL (rule R111). -/
  | bwFinal
  /-- 0x30 BR_INIT (rule R113). -/
  | brInit
  /-- 0x31 BR_GETB (rule R115). -/
  | brGetb
  /-- 0x32 BR_GETSYM (rule R135). -/
  | brGetsym
  /-- 0x40 ENCODE (rule R127). -/
  | encode
  /-- 0x41 DECODE (rule R137). -/
  | decode
deriving DecidableEq, Repr

end Sys2Proof
end

