-- ==== Sys2Proof/Machine/Ops.lean ====
section
/-! DEFINITION. The operations the meanings share: how a command's pseudocode runs and how it ends (normal, error and fatal
completion, spec/60_exceptions.md rules R150 to R154), command accept (spec/30_encoding.md rule R63), writing the frequency
table, clearing the context (spec/40_control.md rule R77), and the bit procedures `putbit`, `getbit` (spec/44_bitio.md). -/

namespace Sys2Proof.Machine

/-- The error kinds (rule R150). -/
inductive Err where
  | emptyAlphabetMismatch
  | corruptHeader
  | corruptStream
  | internalInvariantViolation
  | endOfStream
  | illegalCommand
  | badSequence
  | badArgument
  | outputOverflow
  | alphabetTooLarge
deriving DecidableEq, Repr

/-- The code of an error in ERRCODE (rule R150). -/
def Err.code : Err → BitVec 8
  | .emptyAlphabetMismatch => 0x01
  | .corruptHeader => 0x02
  | .corruptStream => 0x03
  | .internalInvariantViolation => 0x04
  | .endOfStream => 0x05
  | .illegalCommand => 0x10
  | .badSequence => 0x11
  | .badArgument => 0x12
  | .outputOverflow => 0x13
  | .alphabetTooLarge => 0x14

/-- How a piece of pseudocode ends (rule R9): at its last line with a value, at a `raise`, at a `fatal`
InternalInvariantViolation (the only fatal error, rule R154), or at an access that has no meaning. A line
`require c else E(info)` is `if not c then raise E(info)` (rule R9) and is written so in the meanings. -/
inductive Run (α : Type) where
  | val (a : α) (s : State)
  | raise (e : Err) (info : Word) (s : State)
  | fatal (info : Word) (s : State)
  | stop (f : Fault)
deriving Repr

/-- Sequencing: "Nothing after the `raise` is executed" (rule R9). -/
def Run.bind {α β : Type} (r : Run α) (k : α → State → Run β) : Run β :=
  match r with
  | .val a s => k a s
  | .raise e info s => .raise e info s
  | .fatal info s => .fatal info s
  | .stop f => .stop f

/-- Normal completion (rule R152). -/
def completeNormally (s : State) : State := { s with busy := false, done := true }

/-- Whether the running command is one of the two whole operations, whose errors set `out_len` to 0 (rule R153). -/
def isWholeOperation : Instr → Bool
  | .encode => true
  | .decode => true
  | .nop | .clear | .freq | .build | .codegen | .bwInit | .bwPutb | .bwPuts | .bwPutsym | .bwFinal | .brInit | .brGetb
  | .brGetsym => false

/-- TAKING AN ERROR (rule R153), the block's trap entry: `errcode` and `errinfo` record it, `err` and `done` are set, `busy`
is cleared, and ENCODE and DECODE set `out_len` to 0. `whole` says that the running command is one of those two. -/
def takeError (whole : Bool) (e : Err) (info : Word) (s : State) : State :=
  { s with
    errcode := e.code
    errinfo := info
    err := true
    done := true
    busy := false
    outLen := if whole then 0 else s.outLen }

/-- Taking the fatal error InternalInvariantViolation (rule R154). -/
def takeFatal (info : Word) (s : State) : State :=
  { s with
    errcode := Err.internalInvariantViolation.code
    errinfo := info
    fatal := true
    err := true
    done := true
    busy := false
    outLen := 0 }

/-- How a command ends (rules R152, R153, R154). -/
def finish (i : Instr) (r : Run Unit) : Host.Outcome State Fault Refusal :=
  match r with
  | .val _ s => .next (completeNormally s)
  | .raise e info s => .next (takeError (isWholeOperation i) e info s)
  | .fatal info s => .next (takeFatal info s)
  | .stop f => .fault f

/-- An illegal command word completes with IllegalCommand and changes nothing else (rules R64, R65). -/
def completeIllegal (s : State) : State := takeError false .illegalCommand s.cmdReg s

/-- Command accept of an IDLE block (rule R63, last branch). It is also what leaves an error behind: there is no return
instruction (rule R155). It keeps `hostviol` as STATUS shows it until completion (spec/20_memory.md rule R49). -/
def acceptWord (w : Word) (s : State) : State :=
  { s with
    cmdReg := w
    busy := true
    done := false
    err := false
    errcode := 0
    errinfo := 0
    hostviolAtAccept := s.hostviol }

/-- Writing the frequency table. "Every write to any entry, by anyone, with any value, sets `tree_valid <- 0` and
`ct_valid <- 0`" (rule R21). -/
def State.writeFt (s : State) (ft : FreqTable) : State := { s with ft := ft, treeValid := false, ctValid := false }

/-- `ctx_clear()` (rule R77). -/
def ctxClear (s : State) : State :=
  { s with
    ft := FreqTable.empty
    node := NodeMemory.clear
    nnodes := 0
    root := NIL
    treeValid := false
    treeKind := .none
    ct := CodeTable.empty
    ctValid := false
    bwOpen := false
    bwPos := 0
    bwAcc := 0
    bwCnt := 0
    brOpen := false
    brBase := 0
    brPos := 0
    brValid := 0
    res0 := 0
    res1 := 0
    outLen := 0 }

/-- Counting bytes into a table: `ft[b] <- ft[b] + 1` for each byte in turn (rules R80, R127). -/
def countBytes (bs : List Byte) (ft : FreqTable) : FreqTable :=
  bs.foldl (fun t b => t.put b (BitVec.ofNat 32 ((t.at b).toNat + 1))) ft

/-- `bw_acc OR (b << (7 − bw_cnt))` (rule R106): the first bit of a byte lands in bit 7 (rule R42). -/
def accWithBit (acc : Byte) (cnt : BitVec 3) (b : Bool) : Byte :=
  acc ||| ((if b then 1 else 0) <<< (7 - cnt.toNat))

/-- `putbit(b)` (rule R106). -/
def putbit (b : Bool) (s : State) : Run Unit :=
  if s.bwCnt = 0 ∧ s.cfg.obufSize ≤ s.bwPos.toNat then .raise .outputOverflow s.bwPos s
  else if s.bwCnt = 7 then
    if s.bwPos.toNat < s.cfg.obufSize then
      .val () { s with
        obuf := s.obuf.write s.bwPos.toNat (accWithBit s.bwAcc s.bwCnt b)
        bwPos := s.bwPos + 1
        bwAcc := 0
        bwCnt := 0 }
    else .stop .obufRange
  else .val () { s with bwAcc := accWithBit s.bwAcc s.bwCnt b, bwCnt := s.bwCnt + 1 }

/-- `putbit` of each bit of a sequence, element 0 first (rules R8, R110, R126). -/
def putbits : List Bool → State → Run Unit
  | [], s => .val () s
  | b :: bs, s => (putbit b s).bind (fun _ s' => putbits bs s')

/-- `putcode(s)` (rule R126): `code[0]`, the branch taken at the root, is written first. -/
def putcode (sym : Byte) (s : State) : Run Unit := putbits (s.ct.at sym) s

/-- Finalising the BitWriter: the pseudocode of BW_FINAL from its `if` on (rule R111). Its value is `pad`. -/
def finalise (s : State) : Run Nat :=
  if s.bwCnt = 0 then
    .val 0 { s with res0 := 0, res1 := s.bwPos, outLen := s.bwPos, bwOpen := false }
  else if s.bwPos.toNat < s.cfg.obufSize then
    .val (8 - s.bwCnt.toNat) { s with
      obuf := s.obuf.write s.bwPos.toNat s.bwAcc
      bwPos := s.bwPos + 1
      bwAcc := 0
      bwCnt := 0
      res0 := BitVec.ofNat 32 (8 - s.bwCnt.toNat)
      res1 := s.bwPos + 1
      outLen := s.bwPos + 1
      bwOpen := false }
  else .stop .obufRange

/-- The IBUF offset of the next bit (rules R42, R116): `br_base + (br_pos div 8)`. -/
def brOffset (s : State) : Nat := s.brBase.toNat + s.brPos.toNat / 8

/-- `getbit()` (rule R116): bit `7 − (br_pos mod 8)` of the byte IBUF holds now. -/
def getbit (s : State) : Run Bool :=
  if brOffset s < s.cfg.ibufSize then
    .val ((s.ibufByte (brOffset s)).getLsbD (7 - s.brPos.toNat % 8)) { s with brPos := s.brPos + 1 }
  else .stop .ibufRange

/-- How many bits `getbit` can still return before `br_pos = br_valid`. -/
def bitsLeft (s : State) : Nat := (s.brValid - s.brPos).toNat

end Sys2Proof.Machine
end

