-- ==== Sys2Proof/Machine/Flags.lean ====
section
/-! DEFINITION. The flags that are functions of state and the STATUS register (spec/10_state.md rules R15, R16), the interrupt
(spec/60_exceptions.md rule R160) and the operating states (rule R151). -/

namespace Sys2Proof.Machine

/-- The interrupt output (rule R160). -/
def irq (s : State) : Bool := (s.ieDone && s.done) || (s.ieErr && (s.err || s.fatal))

/-- BR_EMPTY, the BitReader's "peek whether input is exhausted" (rules R16, R117). -/
def brEmpty (s : State) : Bool := s.brPos == s.brValid

/-- The two bits of `tree_kind` (rule R15). -/
def TreeKind.bits : TreeKind → BitVec 2
  | .none => 0
  | .single => 1
  | .multi => 2

/-- A flag at bit `n` of a word. -/
def flagAt (n : Nat) (b : Bool) : Word := if b then 1#32 <<< n else 0

/-- The bit HOSTVIOL as STATUS shows it. Between accept and completion the bits of STATUS other than BUSY "read as they were at
accept" (spec/20_memory.md rule R49; spec/95_test_vectors.md V43); of their sources only `hostviol` can change in that time, by a
violation (rule R47). -/
def hostviolShown (s : State) : Bool := if s.busy then s.hostviolAtAccept else s.hostviol

/-- STATUS as read (rules R15, R49). -/
def statusWord (s : State) : Word :=
  flagAt 0 s.busy ||| flagAt 1 s.done ||| flagAt 2 s.err ||| flagAt 3 s.fatal ||| flagAt 4 (hostviolShown s) ||| flagAt 5 (irq s)
    ||| flagAt 8 s.treeValid ||| flagAt 9 s.ctValid ||| ((s.treeKind.bits.setWidth 32) <<< 10) ||| flagAt 12 s.bwOpen
    ||| flagAt 13 s.brOpen ||| flagAt 14 (brEmpty s)

/-- A host write to STATUS: bit 1 clears `done`, bit 2 clears `err`, every other bit is ignored (rule R15). -/
def writeStatus (v : Word) (s : State) : State :=
  { s with done := s.done && !v.getLsbD 1, err := s.err && !v.getLsbD 2 }

/-- The three operating states (rule R151). -/
inductive OperatingState where
  | idle
  | busy
  | fatal
deriving DecidableEq, Repr

/-- The operating state as a function of `busy` and `fatal` (rule R151). -/
def operatingState (s : State) : OperatingState :=
  if s.busy then .busy else if s.fatal then .fatal else .idle

end Sys2Proof.Machine
end

