-- ==== Sys2Proof/Machine/Views.lean ====
section
/-! DEFINITION. What the host reads of the block: the register space (spec/10_state.md rule R13) and the windows onto the frequency
table, the code table and node memory (rules R21, R24, R25). No read has a side effect (spec/20_memory.md rule R48). -/

namespace Sys2Proof.Machine

/-- The register at word offset `o` of the register space, as read (rule R13); a reserved offset reads 0. -/
def readReg (s : State) (o : Nat) : Word :=
  match o with
  | 0x00 => 0
  | 0x04 => statusWord s
  | 0x08 => s.errcode.setWidth 32
  | 0x0C => s.errinfo
  | 0x10 => flagAt 0 s.ieDone ||| flagAt 1 s.ieErr
  | 0x14 => s.inLen
  | 0x18 => s.outLen
  | 0x20 => s.arg0
  | 0x24 => s.arg1
  | 0x28 => s.res0
  | 0x2C => s.res1
  | 0x30 => BitVec.ofNat 32 (nsym s.ft)
  | 0x34 => BitVec.ofNat 32 (total s.ft)
  | 0x38 => BitVec.ofNat 32 (total s.ft / 2 ^ 32)
  | 0x3C => (s.nnodes.setWidth 32 <<< 16) ||| s.root.setWidth 32
  | 0x40 => s.bwPos
  | 0x44 => (s.bwCnt.setWidth 32 <<< 8) ||| s.bwAcc.setWidth 32
  | 0x48 => s.brBase
  | 0x4C => s.brPos.setWidth 32
  | 0x50 => (s.brPos.extractLsb' 32 2).setWidth 32
  | 0x54 => s.brValid.setWidth 32
  | 0x58 => (s.brValid.extractLsb' 32 2).setWidth 32
  | 0x60 => BitVec.ofNat 32 s.cfg.ibufSize
  | 0x64 => BitVec.ofNat 32 s.cfg.obufSize
  | _ => 0

/-- Word `j` of a packed code: `code[32·j + i]` is bit `31 − i`, for `32·j + i < len`; all other bits are 0 (rule R25). -/
def codeWord (c : Code) (j : Nat) : Word :=
  (List.range 32).foldl (fun w i => w ||| flagAt (31 - i) (c.getD (32 * j + i) false)) 0

/-- Word `w` of the code-table record of symbol `sym` (rule R25): LEN at word 0, the packed code at words 8 to 15. -/
def readCtWord (s : State) (sym : Byte) (w : Nat) : Word :=
  if w = 0 then BitVec.ofNat 32 (s.ct.len sym % 2 ^ 8)
  else if 8 ≤ w then codeWord (s.ct.at sym) (w - 8)
  else 0

/-- The bit of `kind` (rule R22). -/
def NodeKind.bit : NodeKind → Bool
  | .leaf => false
  | .internal => true

/-- Word `w` of node record `i` (rule R24): INFO, LINK, WEIGHT_LO, WEIGHT_HI, then four words that read 0. -/
def readNodeWord (s : State) (i w : Nat) : Word :=
  let r := s.recAt i
  match w with
  | 0 => flagAt 0 (decide (i < s.nnodes.toNat)) ||| flagAt 1 r.kind.bit ||| flagAt 2 r.inq ||| (r.sym.setWidth 32 <<< 8)
  | 1 => r.left.setWidth 32 ||| (r.right.setWidth 32 <<< 16)
  | 2 => r.weight.extractLsb' 0 32
  | 3 => r.weight.extractLsb' 32 32
  | _ => 0

end Sys2Proof.Machine
end

