-- ==== Sys2Proof/Machine/Host.lean ====
section
/-! DEFINITION. The host's accesses (spec/20_memory.md rules R45 to R48), command accept among them (spec/30_encoding.md rule R63),
and the reset input (spec/70_reset_and_hazards.md rules R175, R176). -/

namespace Sys2Proof.Machine

/-- The element of the address map at an offset (rule R45). -/
inductive Element where
  /-- The register space, at a byte offset below 0x100. -/
  | reg (o : Nat)
  /-- `ft[s]`. -/
  | ft (s : Byte)
  /-- Word `w` of the code-table record of a symbol. -/
  | ct (s : Byte) (w : Nat)
  /-- Word `w` of a node record. -/
  | node (i w : Nat)
  /-- `IBUF[a]`. -/
  | ibuf (a : Nat)
  /-- `OBUF[a]`. -/
  | obuf (a : Nat)
  /-- No element. -/
  | unmapped
deriving DecidableEq, Repr

/-- The address map (rule R45). -/
def elementAt (c : Config) (o : Nat) : Element :=
  if o < 0x100 then .reg o
  else if 0x400 ≤ o ∧ o < 0x800 then .ft (BitVec.ofNat 8 ((o - 0x400) / 4))
  else if 0x2000 ≤ o ∧ o < 0x6000 then .ct (BitVec.ofNat 8 ((o - 0x2000) / 64)) ((o - 0x2000) % 64 / 4)
  else if 0x8000 ≤ o ∧ o < 0xC000 then .node ((o - 0x8000) / 32) ((o - 0x8000) % 32 / 4)
  else if 0x40000000 ≤ o ∧ o < 0x40000000 + c.ibufSize then .ibuf (o - 0x40000000)
  else if 0x80000000 ≤ o ∧ o < 0x80000000 + c.obufSize then .obuf (o - 0x80000000)
  else .unmapped

/-- A host violation (rule R47): `hostviol` is set, a write is dropped, a read returns a free value (DESIGN CHOICE,
safe: log entry 5). -/
def violate (a : Access) (s : State) : State :=
  match a with
  | .read32 _ => { s with hostviol := true, answer := .word (Config.freeWord s.draws), draws := s.draws + 1 }
  | .read8 _ => { s with hostviol := true, answer := .byte (Config.freeByte s.draws), draws := s.draws + 1 }
  | .write32 _ _ => { s with hostviol := true, answer := .none }
  | .write8 _ _ => { s with hostviol := true, answer := .none }

/-- A host write to CMD while `busy = 0` (rules R17, R63): accepted in IDLE, dropped in FATAL. -/
def writeCmd (w : Word) (s : State) : State := if s.fatal then s else acceptWord w s

/-- A host write to a register while `busy = 0` (rule R13); writes to read-only and reserved registers are ignored. -/
def writeReg (o : Nat) (v : Word) (s : State) : State :=
  match o with
  | 0x00 => writeCmd v s
  | 0x04 => writeStatus v s
  | 0x10 => { s with ieDone := v.getLsbD 0, ieErr := v.getLsbD 1 }
  | 0x14 => { s with inLen := v }
  | 0x20 => { s with arg0 := v }
  | 0x24 => { s with arg1 := v }
  | _ => s

/-- `HostRead32(o)` while `busy = 0` (rules R46, R47). -/
def hostRead32 (o : Word) (s : State) : State :=
  if o.toNat % 4 ≠ 0 then violate (.read32 o) s
  else
    match elementAt s.cfg o.toNat with
    | .reg r => { s with answer := .word (readReg s r) }
    | .ft sym => { s with answer := .word (s.ft.at sym) }
    | .ct sym w => { s with answer := .word (readCtWord s sym w) }
    | .node i w => { s with answer := .word (readNodeWord s i w) }
    | .ibuf _ | .obuf _ | .unmapped => violate (.read32 o) s

/-- `HostWrite32(o, v)` while `busy = 0` (rules R46, R47, R48). -/
def hostWrite32 (o v : Word) (s : State) : State :=
  if o.toNat % 4 ≠ 0 then violate (.write32 o v) s
  else
    match elementAt s.cfg o.toNat with
    | .reg r => { writeReg r v s with answer := .none }
    | .ft sym => { s.writeFt (s.ft.put sym v) with answer := .none }
    | .ct _ _ | .node _ _ => { s with answer := .none }
    | .ibuf _ | .obuf _ | .unmapped => violate (.write32 o v) s

/-- `HostRead8(o)` while `busy = 0` (rules R46, R47). -/
def hostRead8 (o : Word) (s : State) : State :=
  match elementAt s.cfg o.toNat with
  | .ibuf a => { s with answer := .byte (s.ibufByte a) }
  | .obuf a => { s with answer := .byte (s.obufByte a) }
  | .reg _ | .ft _ | .ct _ _ | .node _ _ | .unmapped => violate (.read8 o) s

/-- `HostWrite8(o, v)` while `busy = 0` (rules R46, R47). -/
def hostWrite8 (o : Word) (v : Byte) (s : State) : State :=
  match elementAt s.cfg o.toNat with
  | .ibuf a => { s with ibuf := s.ibuf.write a v, answer := .none }
  | .obuf a => { s with obuf := s.obuf.write a v, answer := .none }
  | .reg _ | .ft _ | .ct _ _ | .node _ _ | .unmapped => violate (.write8 o v) s

/-- A host access. While `busy = 1` everything but a read of STATUS is a violation (rule R47 item 1). A read of STATUS shows
BUSY = 1 and the other bits as they were at accept (rule R49). -/
def hostAccess (a : Access) (s : State) : State :=
  if s.busy then
    if a = .read32 0x04 then { s with answer := .word (statusWord s) } else violate a s
  else
    match a with
    | .read32 o => hostRead32 o s
    | .write32 o v => hostWrite32 o v s
    | .read8 o => hostRead8 o s
    | .write8 o v => hostWrite8 o v s

/-- The reset input (rules R175, R176): every element at its reset value, IBUF and OBUF drawn anew; the instance's constants
stay (rule R33), and so do the events still to come and the count of free values already drawn (DESIGN CHOICE:
log entry 11). -/
def resetInput (s : State) : State :=
  { State.reset with cfg := s.cfg, inputs := s.inputs, draws := s.draws, resets := s.resets + 1 }

end Sys2Proof.Machine
end

