-- ==== Sys2Proof/WellFormed.lean ====
section
/-! DEFINITION. Well-formedness. A command has no operand (rule R60), so every term of `Instr` is well formed; what can be
ill formed is a command word (rules R60, R65) and a configuration (rules R6, R43). -/

namespace Sys2Proof

/-- The opcodes of the opcode map (rule R62); every other value is unassigned (rule R65). -/
def assignedOpcodes : List (BitVec 8) :=
  [0x00, 0x01, 0x10, 0x11, 0x12, 0x20, 0x21, 0x22, 0x23, 0x24, 0x30, 0x31, 0x32, 0x40, 0x41]

/-- Bits 31:8 of a command word must be 0 (rule R60). -/
def zeroFieldClear (w : Word) : Bool := w.extractLsb' 8 24 == 0

/-- A legal command word: one of the fifteen with bits 31:8 zero (rule R65). -/
def wellFormedWord (w : Word) : Bool :=
  zeroFieldClear w && assignedOpcodes.contains (w.extractLsb' 0 8)

/-- 1 ≤ IBUF_SIZE ≤ 2^30 (rule R6). -/
def Config.ibufSizeOk (c : Config) : Bool := decide (1 ≤ c.ibufSize) && decide (c.ibufSize ≤ 2 ^ 30)

/-- 2 ≤ OBUF_SIZE ≤ 2^30 (rule R6). -/
def Config.obufSizeOk (c : Config) : Bool := decide (2 ≤ c.obufSize) && decide (c.obufSize ≤ 2 ^ 30)

/-- FREQ_BYTE_ORDER has the value `big` (rule R43). -/
def Config.byteOrderOk (c : Config) : Bool := c.freqByteOrder == .big

/-- A configuration the spec allows (rules R6, R43). -/
def Config.wellFormed (c : Config) : Bool := c.ibufSizeOk && c.obufSizeOk && c.byteOrderOk

end Sys2Proof
end

