-- ==== Sys2Proof/Decode.lean ====
section
/-! DEFINITION. The decoder, total on every 32-bit word, and the encoder, both from the opcode map of
spec/30_encoding.md rule R62 (format C, rule R60). -/

namespace Sys2Proof

/-- Why a command word is illegal (rule R65). -/
inductive DecodeError where
  /-- Bits 31:8 are not 0 (rule R60). -/
  | zeroFieldSet
  /-- The opcode is not one of the fifteen of rule R62. -/
  | unassignedOpcode
deriving DecidableEq, Repr

/-- The opcode map (rule R62), read from an opcode. -/
def ofOpcode (op : BitVec 8) : Option Instr :=
  match op.toNat with
  | 0x00 => some .nop
  | 0x01 => some .clear
  | 0x10 => some .freq
  | 0x11 => some .build
  | 0x12 => some .codegen
  | 0x20 => some .bwInit
  | 0x21 => some .bwPutb
  | 0x22 => some .bwPuts
  | 0x23 => some .bwPutsym
  | 0x24 => some .bwFinal
  | 0x30 => some .brInit
  | 0x31 => some .brGetb
  | 0x32 => some .brGetsym
  | 0x40 => some .encode
  | 0x41 => some .decode
  | _ => none

/-- The decoder: "a decoder reads bits 7:0 and checks bits 31:8" (rule R60). -/
def decode (w : Word) : Except DecodeError Instr :=
  if w.extractLsb' 8 24 ≠ 0 then .error .zeroFieldSet
  else
    match ofOpcode (w.extractLsb' 0 8) with
    | some i => .ok i
    | none => .error .unassignedOpcode

/-- The opcode of a command (rule R62). -/
def opcode : Instr → BitVec 8
  | .nop => 0x00
  | .clear => 0x01
  | .freq => 0x10
  | .build => 0x11
  | .codegen => 0x12
  | .bwInit => 0x20
  | .bwPutb => 0x21
  | .bwPuts => 0x22
  | .bwPutsym => 0x23
  | .bwFinal => 0x24
  | .brInit => 0x30
  | .brGetb => 0x31
  | .brGetsym => 0x32
  | .encode => 0x40
  | .decode => 0x41

/-- The encoder: the opcode in bits 7:0, zeros in bits 31:8 (rule R60). -/
def encode (i : Instr) : Word := (opcode i).setWidth 32

/-- The command the decoder reads from an opcode-table word. A command is one 32-bit word (rule R60), whose byte order is
not visible (spec/20_memory.md rule R44). -/
def decodeTableWord (nbits w : Nat) : Option Instr :=
  match decode (BitVec.ofNat 32 (w % 2 ^ nbits)) with
  | .ok i => some i
  | .error _ => none

end Sys2Proof
end

