-- ==== Sys2Proof/Machine/Operands.lean ====
section
/-! DEFINITION. Operand assembly (spec/30_encoding.md rule R61): unsigned integers taken from the named bits of ARG0 and ARG1;
bits a command does not name are ignored (spec/10_state.md rule R12). -/

namespace Sys2Proof.Machine

/-- BW_INIT: the first OBUF offset, `arg0`, all 32 bits. -/
def bwInitOffset (s : State) : Nat := s.arg0.toNat

/-- BW_PUTB: the bit, `arg0[0]`. -/
def bwPutbBit (s : State) : Bool := s.arg0.getLsbD 0

/-- BW_PUTS: the bit count `n`, `arg1`, all 32 bits. -/
def bwPutsCount (s : State) : Nat := s.arg1.toNat

/-- BW_PUTS: the bit sequence `[arg0[n−1], ..., arg0[0]]`. -/
def bwPutsBits (s : State) : List Bool :=
  (List.range (bwPutsCount s)).map (fun i => s.arg0.getLsbD (bwPutsCount s - 1 - i))

/-- BW_PUTSYM: the symbol, `arg0[7:0]`. -/
def bwPutsymSym (s : State) : Byte := s.arg0.extractLsb' 0 8

/-- BR_INIT: the first IBUF offset, `arg0`, all 32 bits. -/
def brInitOffset (s : State) : Nat := s.arg0.toNat

/-- BR_INIT: the padding-bit count, `arg1`, all 32 bits. -/
def brInitPad (s : State) : Nat := s.arg1.toNat

end Sys2Proof.Machine
end

