-- ==== Sys2Proof/Machine/BitIo.lean ====
section
/-! DEFINITION. The BitWriter and BitReader commands (spec/44_bitio.md rules R107, R109, R110, R111, R113, R115). -/

namespace Sys2Proof.Machine

/-- The pseudocode of BW_INIT (rule R107). -/
def bwInitBody (s : State) : Run Unit :=
  if ¬ bwInitOffset s ≤ s.cfg.obufSize then .raise .badArgument s.arg0 s
  else .val () { s with bwPos := s.arg0, bwAcc := 0, bwCnt := 0, bwOpen := true, outLen := 0 }

/-- BW_INIT (rule R107). -/
def execBwInit (s : State) : Host.Outcome State Fault Refusal := finish .bwInit (bwInitBody s)

/-- The pseudocode of BW_PUTB (rule R109). -/
def bwPutbBody (s : State) : Run Unit :=
  if s.bwOpen = false then .raise .badSequence 0x21 s
  else putbit (bwPutbBit s) s

/-- BW_PUTB (rule R109). -/
def execBwPutb (s : State) : Host.Outcome State Fault Refusal := finish .bwPutb (bwPutbBody s)

/-- The pseudocode of BW_PUTS (rule R110). -/
def bwPutsBody (s : State) : Run Unit :=
  if s.bwOpen = false then .raise .badSequence 0x22 s
  else if ¬ bwPutsCount s ≤ 32 then .raise .badArgument s.arg1 s
  else putbits (bwPutsBits s) s

/-- BW_PUTS (rule R110). -/
def execBwPuts (s : State) : Host.Outcome State Fault Refusal := finish .bwPuts (bwPutsBody s)

/-- The pseudocode of BW_FINAL (rule R111). -/
def bwFinalBody (s : State) : Run Unit :=
  if s.bwOpen = false then .raise .badSequence 0x24 s
  else (finalise s).bind (fun _ s' => .val () s')

/-- BW_FINAL (rule R111). -/
def execBwFinal (s : State) : Host.Outcome State Fault Refusal := finish .bwFinal (bwFinalBody s)

/-- The pseudocode of BR_INIT (rule R113). -/
def brInitBody (s : State) : Run Unit :=
  if ¬ s.inLen.toNat ≤ s.cfg.ibufSize then .raise .badArgument s.inLen s
  else if ¬ brInitOffset s ≤ s.inLen.toNat then .raise .badArgument s.arg0 s
  else if ¬ brInitPad s ≤ 7 then .raise .corruptStream s.arg1 s
  else
    let nbytes := s.inLen.toNat - brInitOffset s
    if ¬ brInitPad s ≤ 8 * nbytes then .raise .corruptStream s.arg1 s
    else
      .val () { s with
        brBase := s.arg0
        brValid := BitVec.ofNat 34 (8 * nbytes - brInitPad s)
        brPos := 0
        brOpen := true }

/-- BR_INIT (rule R113). -/
def execBrInit (s : State) : Host.Outcome State Fault Refusal := finish .brInit (brInitBody s)

/-- The pseudocode of BR_GETB (rule R115). -/
def brGetbBody (s : State) : Run Unit :=
  if s.brOpen = false then .raise .badSequence 0x31 s
  else if ¬ s.brPos.toNat < s.brValid.toNat then .raise .endOfStream (s.brPos.setWidth 32) s
  else (getbit s).bind (fun b s' => .val () { s' with res0 := if b then 1 else 0 })

/-- BR_GETB (rule R115). -/
def execBrGetb (s : State) : Host.Outcome State Fault Refusal := finish .brGetb (brGetbBody s)

end Sys2Proof.Machine
end

