-- ==== Sys2Proof/Machine/Control.lean ====
section
/-! DEFINITION. NOP and CLEAR (spec/40_control.md rules R75, R76). -/

namespace Sys2Proof.Machine

/-- NOP (rule R75): empty pseudocode. -/
def execNop (s : State) : Host.Outcome State Fault Refusal := finish .nop (.val () s)

/-- CLEAR (rule R76): `ctx_clear()`. -/
def execClear (s : State) : Host.Outcome State Fault Refusal := finish .clear (.val () (ctxClear s))

end Sys2Proof.Machine
end

