-- ==== Sys2Proof/Machine/Tree.lean ====
section
/-! DEFINITION. BUILD, the TreeBuilder (spec/42_tree.md rules R85 to R92). The records in use are held as a list while the tree
grows: a record's place in the list is its index, which is its insertion sequence number (rule R86). -/

namespace Sys2Proof.Machine

/-- The Leaf record of a retained symbol and its count (rule R85). -/
def leafRec (e : Byte × Word) : NodeRec :=
  { kind := .leaf, sym := e.1, weight := e.2.setWidth 64, left := NIL, right := NIL, inq := true }

/-- The leaves, in ascending symbol order (rules R85, R86). -/
def leaves (ft : FreqTable) : List NodeRec := (pairs ft).map leafRec

/-- `inq_count()` (rule R85). -/
def inqCount (ns : List NodeRec) : Nat := ns.countP (fun r => r.inq)

/-- The index and weight of the node in the priority structure whose pair (weight, index) is smallest (rule R88). The records
stand at indices `i`, `i + 1`, .... -/
def minInq : List NodeRec → Nat → Option (Nat × Weight)
  | [], _ => none
  | r :: rs, i =>
    match minInq rs (i + 1) with
    | none => if r.inq then some (i, r.weight) else none
    | some (j, w) => if r.inq && decide (r.weight.toNat ≤ w.toNat) then some (i, r.weight) else some (j, w)

/-- `popmin()` (rules R85, R88): the node's index and weight, and the records with its `inq` cleared. -/
def popmin (ns : List NodeRec) : Option (Nat × Weight × List NodeRec) :=
  match minInq ns 0 with
  | none => none
  | some (i, w) => some (i, w, ns.modify i (fun r => { r with inq := false }))

/-- The Internal record of a merge: the first-popped child goes left (rule R89). -/
def mergedRec (a b : Nat) (wa wb : Weight) : NodeRec :=
  { kind := .internal, sym := 0, weight := BitVec.ofNat 64 (wa.toNat + wb.toNat), left := BitVec.ofNat 9 a,
    right := BitVec.ofNat 9 b, inq := true }

/-- One pass of the `while` loop (rules R85, R87). -/
def mergeOnce (ns : List NodeRec) : List NodeRec :=
  match popmin ns with
  | none => ns
  | some (a, wa, ns1) =>
    match popmin ns1 with
    | none => ns1
    | some (b, wb, ns2) => ns2 ++ [mergedRec a b wa wb]

/-- The `while inq_count() > 1` loop. It runs k − 1 times (rule R87), so a bound of k passes never cuts it short.
DEDUCED: log entry 12. -/
def mergeLoop : Nat → List NodeRec → List NodeRec
  | 0, ns => ns
  | n + 1, ns => if 1 < inqCount ns then mergeLoop n (mergeOnce ns) else ns

/-- The records of the finished tree, in index order (rule R85). -/
def treeRecords (ft : FreqTable) : List NodeRec := mergeLoop (leaves ft).length (leaves ft)

/-- `root`: "the one index i with node[i].inq = 1", NIL where there is no record (rule R85). -/
def rootOf (ns : List NodeRec) : NodeIdx :=
  match ns with
  | [] => NIL
  | _ :: _ => BitVec.ofNat 9 (ns.findIdx (fun r => r.inq))

/-- `tree_kind` by the number of leaves (rules R16, R85). -/
def treeKindOf (k : Nat) : TreeKind := if k = 0 then .none else if k = 1 then .single else .multi

/-- The effect of BUILD's pseudocode (rule R85); ENCODE and DECODE run the same. -/
def buildTree (s : State) : State :=
  let ns := treeRecords s.ft
  let k := (leaves s.ft).length
  { s with
    node := NodeMemory.ofList ns
    nnodes := BitVec.ofNat 10 ns.length
    root := rootOf ns
    treeKind := treeKindOf k
    treeValid := true
    ctValid := false
    res0 := BitVec.ofNat 32 k
    res1 := BitVec.ofNat 32 ns.length }

/-- BUILD (rule R85). -/
def execBuild (s : State) : Host.Outcome State Fault Refusal := finish .build (.val () (buildTree s))

end Sys2Proof.Machine
end

