-- ==== Sys2Proof/Machine/Decoder.lean ====
section
/-! DEFINITION. BR_GETSYM and DECODE (spec/46_decoder.md rules R135 to R146). -/

namespace Sys2Proof.Machine

/-- `walk(info)` from node `n` (rule R135). The first argument is the number of bits left (`bitsLeft`), so it is 0 exactly where
`br_pos = br_valid`: there the walk raises CorruptStream. -/
def walkFrom (info : Word) : Nat → NodeIdx → State → Run Byte
  | fuel, n, s =>
    match s.node.at? n with
    | none => .stop .noSuchNode
    | some r =>
      match r.kind with
      | .leaf => .val r.sym s
      | .internal =>
        match fuel with
        | 0 => .raise .corruptStream info s
        | fuel + 1 =>
          (getbit s).bind fun b s' =>
            let c := if b then r.right else r.left
            if c = NIL then .fatal (n.setWidth 32) s' else walkFrom info fuel c s'

/-- `walk(info)` (rule R135): from the root. -/
def walk (info : Word) (s : State) : Run Byte := walkFrom info (bitsLeft s) s.root s

/-- The pseudocode of BR_GETSYM (rules R135, R136). -/
def brGetsymBody (s : State) : Run Unit :=
  if s.brOpen = false then .raise .badSequence 0x32 s
  else if s.treeValid = false then .raise .badSequence 0x32 s
  else if s.treeKind ≠ .multi then .raise .badSequence 0x32 s
  else
    (walk (s.brPos.setWidth 32) s).bind fun sym s' =>
      .val () { s' with res0 := sym.setWidth 32, res1 := (s'.brPos - s.brPos).setWidth 32 }

/-- BR_GETSYM (rule R135). -/
def execBrGetsym (s : State) : Host.Outcome State Fault Refusal := finish .brGetsym (brGetsymBody s)

/-- `s > prev`, where no symbol yet compares below every symbol (rules R78, R137). -/
def ascends (prev : Option Byte) (sym : Byte) : Bool :=
  match prev with
  | none => true
  | some q => decide (q.toNat < sym.toNat)

/-- The header's pairs from pair `j` on (rule R137): `todo` pairs are left, `prev` is the symbol of the pair before. The value is
the last symbol read. -/
def readPairs : Nat → Nat → Option Byte → State → Run (Option Byte)
  | 0, _, prev, s => .val prev s
  | todo + 1, j, prev, s =>
    let sym := s.ibufByte (1 + 5 * j)
    let f := freqOfBytes s.cfg.freqByteOrder (s.ibufByte (2 + 5 * j)) (s.ibufByte (3 + 5 * j)) (s.ibufByte (4 + 5 * j))
      (s.ibufByte (5 + 5 * j))
    if ¬ ascends prev sym then .raise .corruptHeader (BitVec.ofNat 32 (1 + 5 * j)) s
    else if ¬ f ≠ 0 then .raise .corruptHeader (BitVec.ofNat 32 (2 + 5 * j)) s
    else readPairs todo (j + 1) (some sym) (s.writeFt (s.ft.put sym f))

/-- The walk loop of DECODE (rules R137, R141): `todo` symbols are left, `i` have been emitted. -/
def walkSymbols : Nat → Nat → State → Run Unit
  | 0, _, s => .val () s
  | todo + 1, i, s =>
    (walk (BitVec.ofNat 32 i) s).bind fun sym s' =>
      walkSymbols todo (i + 1) { s' with obuf := s'.obuf.write i sym }

/-- The bytes `OBUF[0 .. m−1]` become free values: what they hold after a DECODE that ends with CorruptStream in the walk is
unspecified (rules R143, R153; U1). DESIGN CHOICE, safe: log entry 6. -/
def drawObuf (m : Nat) (s : State) : State :=
  { s with
    obuf := s.obuf.writeBytes 0 ((List.range m).map (fun i => Config.freeByte (s.draws + i)))
    draws := s.draws + m }

/-- DECODE, two or more entries (rule R137): rebuild the tree, open the BitReader on the payload, walk `m` symbols. -/
def decodeWalk (n pad paylen m : Nat) (s : State) : Run Unit :=
  let s1 := { buildTree s with
    res0 := BitVec.ofNat 32 pad
    res1 := BitVec.ofNat 32 n
    brBase := BitVec.ofNat 32 (2 + 5 * n)
    brValid := BitVec.ofNat 34 (8 * paylen - pad)
    brPos := 0
    brOpen := true }
  match walkSymbols m 0 s1 with
  | .val _ s2 => .val () { s2 with brOpen := false, outLen := BitVec.ofNat 32 m }
  | .raise e info s2 => .raise e info (drawObuf m s2)
  | .fatal info s2 => .fatal info s2
  | .stop f => .stop f

/-- DECODE after the header's pairs (rule R137): the checks of rule R146 rows 5 to 9, then the three cases on N. `n` is N, `last`
the last symbol read, which for N = 1 is the one symbol (rule R140). -/
def decodePayload (n : Nat) (last : Option Byte) (s : State) : Run Unit :=
  if ¬ total s.ft < 2 ^ 32 then .raise .corruptHeader (BitVec.ofNat 32 (1 + 5 * n)) s
  else
    let pad := (s.ibufByte (1 + 5 * n)).toNat
    let s1 := { s with res0 := BitVec.ofNat 32 pad }
    let paylen := s1.inLen.toNat - (2 + 5 * n)
    let m := total s1.ft
    if ¬ pad ≤ 7 then .raise .corruptStream (BitVec.ofNat 32 (1 + 5 * n)) s1
    else if ¬ (n = 0 ↔ paylen = 0) then .raise .emptyAlphabetMismatch (BitVec.ofNat 32 paylen) s1
    else if n = 0 ∧ pad ≠ 0 then .raise .corruptStream 1 s1
    else if ¬ m ≤ s1.cfg.obufSize then .raise .outputOverflow (BitVec.ofNat 32 m) s1
    else if n = 0 then .val () { s1 with outLen := 0 }
    else if n = 1 then
      .val () { s1 with
        obuf := s1.obuf.writeBytes 0 (List.replicate m (last.getD 0))
        outLen := BitVec.ofNat 32 m }
    else decodeWalk n pad paylen m s1

/-- The pseudocode of DECODE (rules R137, R146). -/
def decodeBody (s : State) : Run Unit :=
  if ¬ s.inLen.toNat ≤ s.cfg.ibufSize then .raise .badArgument s.inLen s
  else
    let s1 := ctxClear s
    let len := s1.inLen.toNat
    if ¬ 1 ≤ len then .raise .corruptHeader s1.inLen s1
    else
      let n := (s1.ibufByte 0).toNat
      let s2 := { s1 with res1 := BitVec.ofNat 32 n }
      if ¬ 2 + 5 * n ≤ len then .raise .corruptHeader s2.inLen s2
      else (readPairs n 0 none s2).bind fun last s3 => decodePayload n last s3

/-- DECODE (rule R137). -/
def execDecode (s : State) : Host.Outcome State Fault Refusal := finish .decode (decodeBody s)

end Sys2Proof.Machine
end

