-- ==== Sys2Proof/Machine/CodeTable.lean ====
section
/-! DEFINITION. CODEGEN, the CodeTable derivation (spec/43_codetable.md rules R95 to R101). -/

namespace Sys2Proof.Machine

/-- How the traversal of rule R95 ends: with the finished table, at a record with a missing child, or without a meaning. -/
inductive Traversal where
  | finished (ct : CodeTable)
  | oneChild (n : NodeIdx) (ct : CodeTable)
  | stopped (f : Fault)
deriving Repr

/-- The `while stack is not empty` loop (rules R95, R99), the top of the stack first. The first argument bounds the passes. -/
def traverse (m : NodeMemory) : Nat → List (NodeIdx × Code) → CodeTable → Traversal
  | _, [], ct => .finished ct
  | 0, _ :: _, _ => .stopped .endlessTraversal
  | fuel + 1, (n, path) :: stack, ct =>
    match m.at? n with
    | none => .stopped .noSuchNode
    | some r =>
      match r.kind with
      | .leaf => traverse m fuel stack (ct.put r.sym path)
      | .internal =>
        if r.left = NIL ∨ r.right = NIL then .oneChild n ct
        else traverse m fuel ((r.left, path ++ [false]) :: (r.right, path ++ [true]) :: stack) ct

/-- More passes than any traversal of 511 records without a cycle can take: a path visits each record at most once.
DESIGN CHOICE, safe: log entry 9. -/
@[irreducible] def traverseBound : Nat := 2 ^ 512

/-- The code lengths in use: `ct[s].len` for the symbols that have a code. -/
def codeLengths (ct : CodeTable) : List Nat := (ct.toList.map List.length).filter (fun n => n != 0)

/-- The largest `ct[s].len`, 0 when all are 0 (rule R95). -/
def longestCode (ct : CodeTable) : Nat := (codeLengths ct).foldl max 0

/-- The smallest non-zero `ct[s].len`, 0 when all are 0 (rule R95). -/
def shortestCode (ct : CodeTable) : Nat :=
  match codeLengths ct with
  | [] => 0
  | n :: ns => ns.foldl min n

/-- The end of CODEGEN's pseudocode: the finished table becomes valid, RES0 and RES1 get the longest and the shortest length. -/
def finishCodes (ct : CodeTable) (s : State) : State :=
  { s with
    ct := ct
    ctValid := true
    res0 := BitVec.ofNat 32 (longestCode ct)
    res1 := BitVec.ofNat 32 (shortestCode ct) }

/-- The pseudocode of CODEGEN (rule R95); ENCODE runs the same. -/
def codegenBody (s : State) : Run Unit :=
  if s.treeValid = false then .raise .badSequence 0x12 s
  else
    let s1 := { s with ct := CodeTable.empty, ctValid := false }
    match s.treeKind with
    | .none => .val () (finishCodes CodeTable.empty s1)
    | .single =>
      match s.node.at? s.root with
      | none => .stop .noSuchNode
      | some r => .val () (finishCodes (CodeTable.empty.put r.sym [false]) s1)
    | .multi =>
      match traverse s.node traverseBound [(s.root, [])] CodeTable.empty with
      | .finished ct => .val () (finishCodes ct s1)
      | .oneChild n ct => .fatal (n.setWidth 32) { s1 with ct := ct }
      | .stopped f => .stop f

/-- CODEGEN (rule R95). -/
def execCodegen (s : State) : Host.Outcome State Fault Refusal := finish .codegen (codegenBody s)

end Sys2Proof.Machine
end

