-- ==== Sys2Proof/Machine/Encoder.lean ====
section
/-! DEFINITION. BW_PUTSYM and ENCODE (spec/45_encoder.md rules R125 to R130) and the container's header
(spec/30_encoding.md rule R68). -/

namespace Sys2Proof.Machine

/-- The pseudocode of BW_PUTSYM (rule R125). -/
def bwPutsymBody (s : State) : Run Unit :=
  if s.bwOpen = false then .raise .badSequence 0x23 s
  else if s.ctValid = false then .raise .badSequence 0x23 s
  else
    let sym := bwPutsymSym s
    if ¬ s.ct.len sym ≠ 0 then .raise .badArgument (sym.setWidth 32) s
    else (putcode sym s).bind (fun _ s' => .val () { s' with res0 := BitVec.ofNat 32 (s'.ct.len sym) })

/-- BW_PUTSYM (rule R125). -/
def execBwPutsym (s : State) : Host.Outcome State Fault Refusal := finish .bwPutsym (bwPutsymBody s)

/-- `T`, the total number of code bits (rules R69, R127). -/
def totalCodeBits (ft : FreqTable) (ct : CodeTable) : Nat :=
  (List.zipWith (fun (f : Word) (c : Code) => f.toNat * c.length) ft.toList ct.toList).sum

/-- `size = 2 + 5·k + ceil8(T)` (rule R127). -/
def containerSize (ft : FreqTable) (ct : CodeTable) : Nat := 2 + 5 * nsym ft + ceil8 (totalCodeBits ft ct)

/-- The pairs of the header, in ascending symbol order (rule R68). -/
def headerPairs (o : ByteOrder) (ft : FreqTable) : List Byte :=
  (pairs ft).flatMap (fun e => e.1 :: freqBytes o e.2)

/-- `putcode` of each byte in turn (rule R127). -/
def putSymbols : List Byte → State → Run Unit
  | [], s => .val () s
  | b :: bs, s => (putcode b s).bind (fun _ s' => putSymbols bs s')

/-- ENCODE from its header on (rule R127). -/
def encodeContainer (s : State) : Run Unit :=
  let k := nsym s.ft
  let p := 1 + 5 * k
  let s1 := { s with
    obuf := s.obuf.writeBytes 0 (BitVec.ofNat 8 k :: headerPairs s.cfg.freqByteOrder s.ft)
    bwPos := BitVec.ofNat 32 (p + 1)
    bwAcc := 0
    bwCnt := 0
    bwOpen := true }
  (putSymbols s1.inputBytes s1).bind fun _ s2 =>
    (finalise s2).bind fun pad s3 =>
      .val () { s3 with
        obuf := s3.obuf.write p (BitVec.ofNat 8 pad)
        res0 := BitVec.ofNat 32 pad
        res1 := BitVec.ofNat 32 k }

/-- FrequencyAnalyzer and TreeBuilder of ENCODE, after `ctx_clear()` (rule R127). -/
def analyseInput (s : State) : State :=
  let s1 := ctxClear s
  buildTree (s1.writeFt (countBytes s1.inputBytes s1.ft))

/-- The pseudocode of ENCODE (rule R127). -/
def encodeBody (s : State) : Run Unit :=
  if ¬ s.inLen.toNat ≤ s.cfg.ibufSize then .raise .badArgument s.inLen s
  else
    (codegenBody (analyseInput s)).bind fun _ s1 =>
      if ¬ nsym s1.ft ≤ 255 then .raise .alphabetTooLarge (BitVec.ofNat 32 (nsym s1.ft)) s1
      else if ¬ containerSize s1.ft s1.ct ≤ s1.cfg.obufSize then
        .raise .outputOverflow (BitVec.ofNat 32 (containerSize s1.ft s1.ct)) s1
      else encodeContainer s1

/-- ENCODE (rule R127). -/
def execEncode (s : State) : Host.Outcome State Fault Refusal := finish .encode (encodeBody s)

end Sys2Proof.Machine
end

