-- ==== Sys2Proof/Machine/Freq.lean ====
section
/-! DEFINITION. FREQ, the FrequencyAnalyzer (spec/41_freq.md rule R80). -/

namespace Sys2Proof.Machine

/-- The pseudocode of FREQ (rule R80). -/
def freqBody (s : State) : Run Unit :=
  if ¬ s.inLen.toNat ≤ s.cfg.ibufSize then .raise .badArgument s.inLen s
  else
    let ft := countBytes s.inputBytes FreqTable.empty
    .val () { s.writeFt ft with res0 := BitVec.ofNat 32 (nsym ft) }

/-- FREQ (rule R80). -/
def execFreq (s : State) : Host.Outcome State Fault Refusal := finish .freq (freqBody s)

end Sys2Proof.Machine
end

