-- ==== Sys2Proof/Machine/Dispatch.lean ====
section
/-! DEFINITION. The completion step of each command (spec/30_encoding.md rule R64), one arm per constructor of `Instr`. -/

namespace Sys2Proof.Machine

def exec (i : Instr) (s : State) : Host.Outcome State Fault Refusal :=
  match i with
  | .nop => Sys2Proof.Machine.execNop s
  | .clear => Sys2Proof.Machine.execClear s
  | .freq => Sys2Proof.Machine.execFreq s
  | .build => Sys2Proof.Machine.execBuild s
  | .codegen => Sys2Proof.Machine.execCodegen s
  | .bwInit => Sys2Proof.Machine.execBwInit s
  | .bwPutb => Sys2Proof.Machine.execBwPutb s
  | .bwPuts => Sys2Proof.Machine.execBwPuts s
  | .bwPutsym => Sys2Proof.Machine.execBwPutsym s
  | .bwFinal => Sys2Proof.Machine.execBwFinal s
  | .brInit => Sys2Proof.Machine.execBrInit s
  | .brGetb => Sys2Proof.Machine.execBrGetb s
  | .brGetsym => Sys2Proof.Machine.execBrGetsym s
  | .encode => Sys2Proof.Machine.execEncode s
  | .decode => Sys2Proof.Machine.execDecode s

end Sys2Proof.Machine
end

