-- ==== Sys2Proof/Machine/Sequencer.lean ====
section
/-! DEFINITION. The sequencer: what it does at its turn (spec/30_encoding.md rule R64, spec/60_exceptions.md rule R151). -/

namespace Sys2Proof.Machine

/-- The sequencer's one step "complete" (rule R64): a legal word runs its command, an illegal one ends with IllegalCommand. -/
def complete (s : State) : Host.Outcome State Fault Refusal :=
  match decode s.cmdReg with
  | .ok i => exec i s
  | .error _ => .next (completeIllegal s)

/-- The sequencer's turn: a BUSY block completes its command, an IDLE or FATAL block does nothing (rules R64, R151). -/
def sequencerTurn (s : State) : Host.Outcome State Fault Refusal :=
  if s.busy then complete s else .next s

end Sys2Proof.Machine
end

