-- ==== Sys2Proof/Machine/Step.lean ====
section
/-! DEFINITION. One step of the machine: one host access, one reset, or one turn of the sequencer (spec/20_memory.md rule R49,
spec/30_encoding.md rule R64, spec/70_reset_and_hazards.md rule R175). -/

namespace Sys2Proof.Machine

/-- One step: what `inputs` says comes next; with nothing pending it is the sequencer's turn, so a BUSY block always completes
(rule R184). -/
def step (s : State) : Host.Outcome State Fault Refusal :=
  match s.inputs with
  | [] => sequencerTurn s
  | .turn :: es => sequencerTurn { s with inputs := es }
  | .access a :: es => .next (hostAccess a { s with inputs := es })
  | .reset :: es => .next (resetInput { s with inputs := es })

/-- `s` with the command word accepted (rule R63) and the sequencer's turn next: the block fetches no instruction (rule R14), it is
given one by the accept, and the very next step completes it. DESIGN CHOICE: log entry 2. -/
def State.withFetchWord (s : State) (nbits w : Nat) : State :=
  { acceptWord (BitVec.ofNat 32 (w % 2 ^ nbits)) s with inputs := .turn :: s.inputs }

end Sys2Proof.Machine
end

