-- ==== Sys2Proof/Safety.lean ====
section
/-! DEFINITION. What holds of the block between steps (spec/10_state.md rules R14, R22, R30, R31; spec/44_bitio.md rules R108, R114;
spec/60_exceptions.md rules R150, R151), the reading of a tree path (spec/43_codetable.md rule R96), and what the fault marks of
a run are (spec/10_state.md rule R32). -/

namespace Sys2Proof.Machine

/-- The record reached from node `n` by the branch bits of a path: `left` on 0, `right` on 1 (rule R96). There is none where the
path leaves a Leaf or meets a missing record. -/
def NodeMemory.follow (m : NodeMemory) : NodeIdx → Code → Option NodeRec
  | n, [] => m.at? n
  | n, b :: bs =>
    match m.at? n with
    | none => none
    | some r =>
      match r.kind with
      | .leaf => none
      | .internal => NodeMemory.follow m (if b then r.right else r.left) bs

/-- The path leads from node `n` to the Leaf of symbol `sym`. -/
def NodeMemory.leadsTo (m : NodeMemory) (n : NodeIdx) (path : Code) (sym : Byte) : Bool :=
  match m.follow n path with
  | none => false
  | some r => r.kind == .leaf && r.sym == sym

/-- The path leads from node `n` to some Leaf. -/
def NodeMemory.leadsToLeaf (m : NodeMemory) (n : NodeIdx) (path : Code) : Bool :=
  match m.follow n path with
  | none => false
  | some r => r.kind == .leaf

/-- What rule R30 says of the Internal record at index `i` in a tree of `k` leaves. -/
def State.internalOk (s : State) (k i : Nat) : Prop :=
  (s.recAt i).kind = .internal ∧ (s.recAt i).sym = 0 ∧ (s.recAt i).left.toNat < i ∧ (s.recAt i).right.toNat < i ∧
    (s.recAt i).left ≠ (s.recAt i).right ∧
    (s.recAt i).weight.toNat = (s.recAt (s.recAt i).left.toNat).weight.toNat + (s.recAt (s.recAt i).right.toNat).weight.toNat ∧
    (s.recAt i).inq = decide (i = 2 * k - 2)

/-- The indices of the Internal records that have `c` as a child, in a tree of `k` leaves. -/
def State.parents (s : State) (k c : Nat) : List Nat :=
  (List.range (2 * k - 1)).filter fun i =>
    decide (k ≤ i) && (decide ((s.recAt i).left.toNat = c) || decide ((s.recAt i).right.toNat = c))

/-- The tree invariant (rule R30), which holds while `tree_valid = 1`; `k` is `nsym(ft)`. -/
structure State.TreeInv (s : State) : Prop where
  kind : s.treeKind = if nsym s.ft = 0 then .none else if nsym s.ft = 1 then .single else .multi
  count : s.nnodes.toNat = 2 * nsym s.ft - 1
  root : s.root.toNat = if nsym s.ft = 0 then 511 else 2 * nsym s.ft - 2
  /-- The Leaves, in ascending symbol order (rules R22, R86). -/
  leafAt : ∀ i e, (pairs s.ft)[i]? = some e → s.recAt i =
    { kind := .leaf, sym := e.1, weight := e.2.setWidth 64, left := NIL, right := NIL, inq := decide (nsym s.ft = 1) }
  internalAt : ∀ i, nsym s.ft ≤ i → i < 2 * nsym s.ft - 1 → s.internalOk (nsym s.ft) i
  /-- Every index below the root is the child of exactly one Internal record. -/
  oneParent : ∀ c, c < 2 * nsym s.ft - 2 → (s.parents (nsym s.ft) c).length = 1
  rootWeight : 2 ≤ nsym s.ft → (s.recAt s.root.toNat).weight.toNat = total s.ft

/-- The code-table invariant (rule R31), which holds while `ct_valid = 1`. -/
structure State.CodeInv (s : State) : Prop where
  notRetained : ∀ sym, s.ft.at sym = 0 → s.ct.at sym = []
  single : s.treeKind = .single → ∀ sym, s.ft.at sym ≠ 0 → s.ct.at sym = [false]
  multi : s.treeKind = .multi → ∀ sym, s.ft.at sym ≠ 0 →
    s.ct.at sym ≠ [] ∧ s.node.leadsTo s.root (s.ct.at sym) sym = true

/-- The codes ERRCODE can hold (rule R150; U21). -/
def knownErrcodes : List (BitVec 8) := [0x00, 0x01, 0x02, 0x03, 0x04, 0x05, 0x10, 0x11, 0x12, 0x13, 0x14]

/-- The invariant of the block. -/
structure State.Inv (s : State) : Prop where
  /-- The instance is one the spec allows (rules R6, R43). -/
  config : s.cfg.wellFormed = true
  /-- The operating states exclude one another (rule R151). -/
  oneMode : ¬ (s.busy = true ∧ s.fatal = true)
  /-- A violation mark seen at accept is still set, because `hostviol` is sticky (rules R32, R49). -/
  hostviolSticky : s.busy = true → s.hostviolAtAccept = true → s.hostviol = true
  /-- Reserved error codes are never written (rule R150). -/
  errcodeKnown : s.errcode ∈ knownErrcodes
  /-- The buffers are in canonical form and inside their sizes (rule R28). -/
  ibufOk : s.ibuf.wf = true ∧ s.ibuf.within s.cfg.ibufSize = true
  obufOk : s.obuf.wf = true ∧ s.obuf.within s.cfg.obufSize = true
  /-- `out_len` counts bytes of OBUF (rule R20). -/
  outLenOk : s.outLen.toNat ≤ s.cfg.obufSize
  /-- Records at and beyond `nnodes` are cleared (rule R22). -/
  clearedBeyond : ∀ r ∈ s.node.toList.drop s.nnodes.toNat, r = NodeRec.cleared
  /-- No code is longer than CODE_MAX (rules R5, R25). -/
  codeLength : ∀ sym, s.ct.len sym ≤ 255
  /-- Valid codes need a valid tree (rule R31). -/
  ctNeedsTree : s.ctValid = true → s.treeValid = true
  treeOk : s.treeValid = true → s.TreeInv
  codesOk : s.ctValid = true → s.CodeInv
  /-- The BitWriter invariant (rules R14, R108). -/
  bwPosOk : s.bwPos.toNat ≤ s.cfg.obufSize
  bwAccOk : ∀ i, i ≤ 7 - s.bwCnt.toNat → s.bwAcc.getLsbD i = false
  bwCntOk : s.bwCnt ≠ 0 → s.bwPos.toNat < s.cfg.obufSize
  /-- The BitReader invariant (rules R14, R114). -/
  brPosOk : s.brPos.toNat ≤ s.brValid.toNat
  brValidOk : 8 * s.brBase.toNat + s.brValid.toNat ≤ 8 * s.cfg.ibufSize

/-- The fault marks of a run are clear: "every claim about the block takes `fatal = 0` and `hostviol = 0` as a premise or proves
them" (rule R32). -/
def State.unmarked (s : State) : Bool := !s.fatal && !s.hostviol

end Sys2Proof.Machine
end

