-- ==== Sys2Proof/Certificates/Slice0/Obligations.lean ====
section
/-! DEFINITION. The statements for the provers. First the words they are written in (what bytes hold a bit sequence, what a
container is, which errors a command can report), then one definition for each obligation. -/

namespace Sys2Proof.Machine

/-! ### The words of the statements -/

/-- The bytes `f (base)`, `f (base + 1)`, ... hold the bit sequence `w`, most significant bit first, the pad bits of the last byte
0: `B` of `pack(w)` (spec/44_bitio.md rule R112). -/
def holdsBits (f : Nat → Byte) (base : Nat) (w : List Bool) : Prop :=
  ∀ j, j < ceil8 w.length → ∀ i, i < 8 → (f (base + j)).getLsbD (7 - i) = w.getD (8 * j + i) false

/-- `pad` of `pack(w)` for `n = |w|` (rule R112). -/
def padOf (n : Nat) : Nat := (8 - n % 8) % 8

/-- A BitWriter session begun at `base` has written `w` so far (rule R108, second sentence). -/
def writerHolds (s : State) (base : Nat) (w : List Bool) : Prop :=
  s.bwPos.toNat = base + w.length / 8 ∧ s.bwCnt.toNat = w.length % 8 ∧
    (∀ j, j < w.length / 8 → ∀ i, i < 8 → (s.obufByte (base + j)).getLsbD (7 - i) = w.getD (8 * j + i) false) ∧
    (∀ i, i < 8 → s.bwAcc.getLsbD (7 - i) = (decide (i < w.length % 8) && w.getD (8 * (w.length / 8) + i) false))

/-- Bit `p` of the wrapped buffer (rules R42, R116). -/
def readerBit (s : State) (p : Nat) : Bool := (s.ibufByte (s.brBase.toNat + p / 8)).getLsbD (7 - p % 8)

/-- The next `n` bits of the BitReader. -/
def upcoming (s : State) (n : Nat) : List Bool := (List.range n).map (fun i => readerBit s (s.brPos.toNat + i))

/-- `n` BR_GETB in a row: the bits they return in RES0, and the state after the last. -/
def getbRun : Nat → State → Option (List Bool × State)
  | 0, s => some ([], s)
  | n + 1, s =>
    match exec .brGetb s with
    | .next t => (getbRun n t).map (fun p => ((t.res0 == 1) :: p.1, p.2))
    | .fault _ => none
    | .refused _ => none

/-- The bits a BitWriter command writes: BW_PUTB, BW_PUTS and BW_PUTSYM (spec/30_encoding.md rule R61). -/
def bitsToWrite (i : Instr) (s : State) : List Bool :=
  match i with
  | .bwPutb => [s.arg0.getLsbD 0]
  | .bwPuts => (List.range s.arg1.toNat).map (fun i => s.arg0.getLsbD (s.arg1.toNat - 1 - i))
  | .bwPutsym => s.ct.at (s.arg0.setWidth 8)
  | .nop | .clear | .freq | .build | .codegen | .bwInit | .bwFinal | .brInit | .brGetb | .brGetsym | .encode | .decode => []

/-- The prerequisites of BW_PUTB, BW_PUTS and BW_PUTSYM (rules R109, R110, R125). -/
def mayWrite (i : Instr) (s : State) : Prop :=
  s.bwOpen = true ∧
    (i = .bwPutb ∨ (i = .bwPuts ∧ s.arg1.toNat ≤ 32) ∨
      (i = .bwPutsym ∧ s.ctValid = true ∧ s.ct.at (s.arg0.setWidth 8) ≠ []))

/-- The frequency table of the input (rule R81). -/
def inputTable (s : State) : FreqTable := countBytes s.inputBytes FreqTable.empty

/-- The tree of a frequency table, in node memory (rule R93: a function of `ft` alone). -/
def treeOf (ft : FreqTable) : NodeMemory := NodeMemory.ofList (treeRecords ft)

/-- The code table of a frequency table: what CODEGEN derives after BUILD. -/
def codesOf (ft : FreqTable) : CodeTable :=
  match codegenBody (buildTree (State.reset.writeFt ft)) with
  | .val _ t => t.ct
  | .raise _ _ t => t.ct
  | .fatal _ t => t.ct
  | .stop _ => CodeTable.empty

/-- The codes `c` of the retained symbols of `ft` are prefix-free (spec/43_codetable.md rule R97). -/
def prefixFreeOn (ft : FreqTable) (c : Byte → Code) : Prop :=
  ∀ p q, ft.at p ≠ 0 → ft.at q ≠ 0 → p ≠ q → ¬ (c p <+: c q)

/-- The sum over symbols of frequency × code length (spec/42_tree.md rule R93). -/
def weightedLength (ft : FreqTable) (c : Byte → Code) : Nat := (allSyms.map (fun sym => (ft.at sym).toNat * (c sym).length)).sum

/-- The code bits of a message (spec/30_encoding.md rule R70). -/
def codeBits (ct : CodeTable) (msg : List Byte) : List Bool := msg.flatMap ct.at

/-- The header of a container stands in `f`: N, the pairs of `ft` in ascending order with big-endian counts, the padding count
(rules R43, R68). -/
def isHeader (f : Nat → Byte) (ft : FreqTable) (pad : Nat) : Prop :=
  (f 0).toNat = nsym ft ∧
    (∀ j e, (pairs ft)[j]? = some e →
      f (1 + 5 * j) = e.1 ∧ f (2 + 5 * j) = e.2.extractLsb' 24 8 ∧ f (3 + 5 * j) = e.2.extractLsb' 16 8 ∧
        f (4 + 5 * j) = e.2.extractLsb' 8 8 ∧ f (5 + 5 * j) = e.2.extractLsb' 0 8) ∧
    (f (1 + 5 * nsym ft)).toNat = pad

/-- The first `len` bytes of `f` are the container of the message (rules R68, R129). -/
def isContainer (f : Nat → Byte) (len : Nat) (ft : FreqTable) (ct : CodeTable) (msg : List Byte) : Prop :=
  isHeader f ft (padOf (codeBits ct msg).length) ∧ holdsBits f (2 + 5 * nsym ft) (codeBits ct msg) ∧
    len = 2 + 5 * nsym ft + ceil8 (codeBits ct msg).length

/-- Walking the tree from the root along `bits` emits `msg`; bits may be left over (rules R135, R141). -/
def spells (m : NodeMemory) (root : NodeIdx) : List Bool → List Byte → Prop
  | _, [] => True
  | bits, sym :: msg => ∃ path rest, bits = path ++ rest ∧ m.leadsTo root path sym = true ∧ spells m root rest msg

/-- Walking the tree from the root along `bits` emits exactly `msg` and then runs out of bits before a Leaf (rules R135, R142). -/
def spellsThenEnds (m : NodeMemory) (root : NodeIdx) : List Bool → List Byte → Prop
  | bits, [] => ∀ n, n ≤ bits.length → m.leadsToLeaf root (bits.take n) = false
  | bits, sym :: msg => ∃ path rest, bits = path ++ rest ∧ m.leadsTo root path sym = true ∧ spellsThenEnds m root rest msg

/-- The valid payload bits of a container of `len` bytes in IBUF with N pairs and padding count `pad` (rules R27, R137). -/
def payloadBits (s : State) (n pad : Nat) : List Bool :=
  (List.range (8 * (s.inLen.toNat - (2 + 5 * n)) - pad)).map
    (fun p => (s.ibufByte (2 + 5 * n + p / 8)).getLsbD (7 - p % 8))

/-- The symbol of pair `j` of the header in IBUF (rule R68). -/
def pairSym (s : State) (j : Nat) : Nat := (s.ibufByte (1 + 5 * j)).toNat

/-- The frequency of pair `j` of the header in IBUF, big-endian (rules R43, R68). -/
def pairFreq (s : State) (j : Nat) : Nat :=
  (s.ibufByte (2 + 5 * j)).toNat * 2 ^ 24 + (s.ibufByte (3 + 5 * j)).toNat * 2 ^ 16 +
    (s.ibufByte (4 + 5 * j)).toNat * 2 ^ 8 + (s.ibufByte (5 + 5 * j)).toNat

/-- Pair `j` passes the checks of rule R146 row 4. -/
def pairOk (s : State) (j : Nat) : Prop := (j = 0 ∨ pairSym s (j - 1) < pairSym s j) ∧ pairFreq s j ≠ 0

/-- The header's pairs are all there and all pass (rule R146 rows 1 to 4). -/
def pairsOk (s : State) : Prop :=
  s.inLen.toNat ≤ s.cfg.ibufSize ∧ 1 ≤ s.inLen.toNat ∧ 2 + 5 * (s.ibufByte 0).toNat ≤ s.inLen.toNat ∧
    ∀ j, j < (s.ibufByte 0).toNat → pairOk s j

/-- The sum of the header's frequencies (rule R138). -/
def headerTotal (s : State) : Nat := ((List.range (s.ibufByte 0).toNat).map (pairFreq s)).sum

/-- The container's padding byte (rule R68). -/
def headerPad (s : State) : Nat := (s.ibufByte (1 + 5 * (s.ibufByte 0).toNat)).toNat

/-- The container's payload length (rule R137). -/
def payloadLen (s : State) : Nat := s.inLen.toNat - (2 + 5 * (s.ibufByte 0).toNat)

/-- DECODE in `s` ends with the error `e` and `info`, with no valid output and OBUF as it was (rules R143, R153). -/
def decodeFails (s : State) (e : Err) (info : Nat) : Prop :=
  ∃ t, exec .decode s = .next t ∧ t.errcode = e.code ∧ t.errinfo = BitVec.ofNat 32 info ∧ t.err = true ∧ t.done = true ∧
    t.busy = false ∧ t.outLen = 0 ∧ ∀ a, t.obufByte a = s.obufByte a

/-- The block after an ENCODE that ends with the error `e` once the tree and the codes are complete (rules R127, R128, R153): the
table of the input, its tree and its codes, RES0 and RES1 as CODEGEN left them, the rest of the context cleared, OBUF as it was. -/
def encodeFails (s : State) (e : Err) (info : Nat) : Prop :=
  ∃ t, exec .encode s = .next t ∧ t.TreeInv ∧ t.CodeInv ∧
    t = { ctxClear s with
      busy := false, done := true, err := true, errcode := e.code, errinfo := BitVec.ofNat 32 info, ft := inputTable s
      node := treeOf (inputTable s), nnodes := t.nnodes, root := t.root, treeKind := t.treeKind, treeValid := true
      ct := codesOf (inputTable s), ctValid := true, res0 := BitVec.ofNat 32 (longestCode t.ct)
      res1 := BitVec.ofNat 32 (shortestCode t.ct) }

/-- Which command can end with which error (spec/60_exceptions.md rule R163), IllegalCommand apart, which no legal word gives. -/
def errorsOf : Instr → List Err
  | .nop | .clear | .build => []
  | .freq => [.badArgument]
  | .codegen => [.badSequence, .internalInvariantViolation]
  | .bwInit => [.badArgument]
  | .bwPutb => [.badSequence, .outputOverflow]
  | .bwPuts => [.badSequence, .badArgument, .outputOverflow]
  | .bwPutsym => [.badSequence, .badArgument, .outputOverflow]
  | .bwFinal => [.badSequence]
  | .brInit => [.badArgument, .corruptStream]
  | .brGetb => [.badSequence, .endOfStream]
  | .brGetsym => [.badSequence, .corruptStream, .internalInvariantViolation]
  | .encode => [.badArgument, .outputOverflow, .alphabetTooLarge, .internalInvariantViolation]
  | .decode => [.badArgument, .outputOverflow, .emptyAlphabetMismatch, .corruptHeader, .corruptStream,
      .internalInvariantViolation]

/-- The offsets of the word spaces: REG, FT, CT, NODE (spec/20_memory.md rule R45). -/
def inWordSpace (o : Nat) : Prop :=
  o ≤ 0xFF ∨ (0x400 ≤ o ∧ o ≤ 0x7FF) ∨ (0x2000 ≤ o ∧ o ≤ 0x5FFF) ∨ (0x8000 ≤ o ∧ o ≤ 0xBFFF)

/-- The offsets of the byte spaces: IBUF, OBUF (rule R45). -/
def inByteSpace (c : Config) (o : Nat) : Prop :=
  (0x40000000 ≤ o ∧ o ≤ 0x40000000 + c.ibufSize - 1) ∨ (0x80000000 ≤ o ∧ o ≤ 0x80000000 + c.obufSize - 1)

/-- A well-formed access (rule R46): an aligned word access to a word space, or a byte access to a byte space. -/
def wellFormedAccess (c : Config) : Access → Prop
  | .read32 o => o.toNat % 4 = 0 ∧ inWordSpace o.toNat
  | .write32 o _ => o.toNat % 4 = 0 ∧ inWordSpace o.toNat
  | .read8 o => inByteSpace c o.toNat
  | .write8 o _ => inByteSpace c o.toNat

/-- The host's access `a` comes next, with `es` after it. -/
def accessNext (s : State) (a : Access) (es : List Event) : Prop := s.inputs = .access a :: es

/-- The sequencer's turn comes next, with `es` after it. -/
def turnNext (s : State) (es : List Event) : Prop := s.inputs = .turn :: es ∨ (s.inputs = [] ∧ es = [])

end Sys2Proof.Machine

open Sys2Proof Sys2Proof.Machine

/-! ### Encoding and the sequencer -/

/-- Rules R60, R62: the decoder reads back every command the encoder writes. -/
def Obligations.DecodeReadsWhatEncodeWrites : Prop := ∀ i : Instr, decode (encode i) = .ok i

/-- Rules R62, R65: the words of the table, written out. -/
def Obligations.TableWordsDecodeToTheirCommands : Prop :=
  decode 0b00000000000000000000000000000000 = .ok .nop ∧ decode 0b00000000000000000000000000000001 = .ok .clear ∧
  decode 0b00000000000000000000000000010001 = .ok .build ∧ decode 0b00000000000000000000000000100010 = .ok .bwPuts ∧
  decode 0b00000000000000000000000000110010 = .ok .brGetsym ∧ decode 0b00000000000000000000000001000001 = .ok .decode ∧
  decode 0b00000000000000000000000101000000 = .error .zeroFieldSet ∧
  decode 0b00000000000000000000000000000010 = .error .unassignedOpcode

/-- Rules R60, R62, R65: the legal words are exactly the fifteen encodings. -/
def Obligations.LegalWordsAreExactlyTheFifteenEncodings : Prop :=
  ∀ (w : Word) (i : Instr), decode w = .ok i ↔ w = encode i

/-- Rule R64: at the sequencer's turn a BUSY block runs the command its word decodes to.
The pending events are the model's own (log entry 1). -/
def Obligations.TurnRunsTheDecodedCommand : Prop :=
  ∀ (s : State) (es : List Event) (i : Instr), s.busy = true → turnNext s es → decode s.cmdReg = .ok i →
    step s = exec i { s with inputs := es }

/-- Rules R64, R151: at the sequencer's turn an IDLE or FATAL block does nothing.
The pending events are the model's own (log entry 1). -/
def Obligations.TurnOfAnIdleBlockDoesNothing : Prop :=
  ∀ (s : State) (es : List Event), s.busy = false → turnNext s es → step s = .next { s with inputs := es }

/-- Rule R65: a word that is not one of the fifteen completes with IllegalCommand, ERRINFO = the word, and changes nothing but the
sequencer and error state. The pending events are the model's own (log entry 1). -/
def Obligations.IllegalWordCompletesWithIllegalCommand : Prop :=
  ∀ (s : State) (es : List Event), s.busy = true → turnNext s es → (∀ i : Instr, s.cmdReg ≠ encode i) →
    step s = .next { s with
      inputs := es, errcode := 0x10, errinfo := s.cmdReg, err := true, done := true, busy := false }

/-- Rules R17, R63: a write to CMD is accepted in IDLE, dropped in FATAL, and in BUSY dropped with HOSTVIOL set.
The pending events and the answer none are the model's own (log entries 1 and 3). -/
def Obligations.CmdWriteIsAcceptedOnlyInIdle : Prop :=
  ∀ (s : State) (w : Word) (es : List Event), accessNext s (.write32 0x00 w) es →
    (s.busy = true → step s = .next { s with inputs := es, answer := .none, hostviol := true }) ∧
    (s.busy = false → s.fatal = true → step s = .next { s with inputs := es, answer := .none }) ∧
    (s.busy = false → s.fatal = false → step s = .next { s with
      inputs := es, answer := .none, cmdReg := w, busy := true, done := false, err := false, errcode := 0, errinfo := 0
      hostviolAtAccept := s.hostviol })

/-! ### The host's accesses -/

/-- Rules R46, R47: an access of an IDLE or FATAL block is a violation exactly where it is malformed or unmapped; a violation only
sets HOSTVIOL (and draws the value a read returns).
The pending events, the answer and the counter of draws are the model's own (log
entries 1, 3 and 5). -/
def Obligations.MalformedOrUnmappedAccessOnlySetsHostviol : Prop :=
  ∀ (s : State) (a : Access) (es : List Event), s.busy = false → s.cfg.wellFormed = true → accessNext s a es →
    (wellFormedAccess s.cfg a → ∃ t, step s = .next t ∧ t.hostviol = s.hostviol ∧ t.draws = s.draws) ∧
    (¬ wellFormedAccess s.cfg a → ∃ t, step s = .next t ∧
      t = { s with inputs := es, hostviol := true, answer := t.answer, draws := t.draws })

/-- Rule R47 item 1, rule R49: a BUSY block answers a read of STATUS and takes every other access as a violation that does not
disturb the running command. The accept leaves STATUS as its flags stand, with BUSY = 1, and whatever the host accesses after it, the
block stays BUSY and STATUS reads as it did. The pending events, the answer and the counter of draws are the model's own (log entries
1, 3 and 5). -/
def Obligations.BusyBlockAnswersOnlyStatus : Prop :=
  (∀ (s : State) (a : Access) (es : List Event), s.busy = true → accessNext s a es →
    (a = .read32 0x04 → step s = .next { s with inputs := es, answer := .word (statusWord s) }) ∧
    (a ≠ .read32 0x04 → ∃ t, step s = .next t ∧
      t = { s with inputs := es, hostviol := true, answer := t.answer, draws := t.draws }) ∧
    ∃ t, step s = .next t ∧ t.busy = true ∧ statusWord t = statusWord s) ∧
  (∀ (s : State) (w : Word) (es : List Event), s.busy = false → s.fatal = false → accessNext s (.write32 0x00 w) es →
    ∃ t, step s = .next t ∧ t.busy = true ∧ (statusWord t).getLsbD 0 = true ∧ (statusWord t).getLsbD 1 = false ∧
      (statusWord t).getLsbD 2 = false ∧ (statusWord t).getLsbD 5 = irq t ∧
      ∀ n, n ∉ [0, 1, 2, 5] → (statusWord t).getLsbD n = (statusWord s).getLsbD n)

/-- Rule R48: a well-formed read changes nothing, and asking again gives the same answer.
The pending events and the answer are the model's own (log entries 1 and 3). -/
def Obligations.ReadsHaveNoSideEffect : Prop :=
  ∀ (s : State) (a : Access) (es : List Event) (o : Word), (a = .read32 o ∨ a = .read8 o) → s.busy = false →
    s.cfg.wellFormed = true → wellFormedAccess s.cfg a → s.inputs = .access a :: .access a :: es →
    ∃ t u, step s = .next t ∧ step t = .next u ∧ t = { s with inputs := .access a :: es, answer := t.answer } ∧
      u = { t with inputs := es } ∧ t.answer ≠ .none

/-- Rules R15, R49: every field of STATUS at its bit, HOSTVIOL of a BUSY block as it was at accept; the reserved bits read 0. -/
def Obligations.StatusShowsEachFlagAtItsBit : Prop :=
  ∀ s : State,
    (statusWord s).getLsbD 0 = s.busy ∧ (statusWord s).getLsbD 1 = s.done ∧ (statusWord s).getLsbD 2 = s.err ∧
    (statusWord s).getLsbD 3 = s.fatal ∧ (statusWord s).getLsbD 4 = (if s.busy then s.hostviolAtAccept else s.hostviol) ∧ (statusWord s).getLsbD 5 = irq s ∧
    (statusWord s).getLsbD 6 = false ∧ (statusWord s).getLsbD 7 = false ∧
    (statusWord s).getLsbD 8 = s.treeValid ∧ (statusWord s).getLsbD 9 = s.ctValid ∧
    (statusWord s).extractLsb' 10 2 = (match s.treeKind with | .none => 0 | .single => 1 | .multi => 2) ∧
    (statusWord s).getLsbD 12 = s.bwOpen ∧ (statusWord s).getLsbD 13 = s.brOpen ∧
    ((statusWord s).getLsbD 14 = true ↔ s.brPos = s.brValid) ∧ ∀ n, 15 ≤ n → (statusWord s).getLsbD n = false

/-- Rules R15, R155: a write to STATUS clears DONE and ERR where bits 1 and 2 are 1, and nothing else.
The pending events and the answer none are the model's own (log entries 1
and 3). -/
def Obligations.StatusWriteAcknowledgesDoneAndErr : Prop :=
  ∀ (s : State) (v : Word) (es : List Event), s.busy = false → accessNext s (.write32 0x04 v) es →
    step s = .next { s with
      inputs := es, answer := .none
      done := if v.getLsbD 1 then false else s.done
      err := if v.getLsbD 2 then false else s.err }

/-- Rule R160: the interrupt output, also readable as STATUS bit 5; with `ie_err = 1` a FATAL block holds it high. -/
def Obligations.InterruptFollowsTheEnabledSources : Prop :=
  ∀ s : State,
    (irq s = true ↔ (s.ieDone = true ∧ s.done = true) ∨ (s.ieErr = true ∧ (s.err = true ∨ s.fatal = true))) ∧
    (statusWord s).getLsbD 5 = irq s ∧ (s.ieErr = true → s.fatal = true → irq s = true)

/-- Rules R10, R19, R20, R22, R24, R25, R48: IE, IN_LEN, ARG0 and ARG1 only store what the host writes; the read-only registers, the
reserved offsets and the code-table and node windows ignore it. The pending events and the answer none are the model's own
(log entries 1 and 3). -/
def Obligations.HostRegisterWritesOnlyStore : Prop :=
  ∀ (s : State) (v : Word) (es : List Event), s.busy = false →
    (accessNext s (.write32 0x10 v) es → step s = .next { s with
      inputs := es, answer := .none, ieDone := v.getLsbD 0, ieErr := v.getLsbD 1 }) ∧
    (accessNext s (.write32 0x14 v) es → step s = .next { s with inputs := es, answer := .none, inLen := v }) ∧
    (accessNext s (.write32 0x20 v) es → step s = .next { s with inputs := es, answer := .none, arg0 := v }) ∧
    (accessNext s (.write32 0x24 v) es → step s = .next { s with inputs := es, answer := .none, arg1 := v }) ∧
    (∀ o : Word, o.toNat % 4 = 0 → o.toNat ≤ 0xFF → o ∉ [0x00#32, 0x04, 0x10, 0x14, 0x20, 0x24] →
      accessNext s (.write32 o v) es → step s = .next { s with inputs := es, answer := .none }) ∧
    (∀ o : Word, o.toNat % 4 = 0 →
      ((0x2000 ≤ o.toNat ∧ o.toNat ≤ 0x5FFF) ∨ (0x8000 ≤ o.toNat ∧ o.toNat ≤ 0xBFFF)) →
      accessNext s (.write32 o v) es → step s = .next { s with inputs := es, answer := .none })

/-- Rule R13: what a read of each register returns.
The pending events and the answer are the model's own (log entries 1 and 3). -/
def Obligations.RegisterReadsReturnTheirContent : Prop :=
  ∀ (s : State) (o : Word) (es : List Event), s.busy = false → o.toNat % 4 = 0 → o.toNat ≤ 0xFF →
    accessNext s (.read32 o) es →
    ∃ v : Word, step s = .next { s with inputs := es, answer := .word v } ∧
      (o = 0x00 → v = 0) ∧ (o = 0x04 → v = statusWord s) ∧ (o = 0x08 → v.toNat = s.errcode.toNat) ∧
      (o = 0x0C → v = s.errinfo) ∧ (o = 0x10 → v.toNat = s.ieDone.toNat + 2 * s.ieErr.toNat) ∧ (o = 0x14 → v = s.inLen) ∧
      (o = 0x18 → v = s.outLen) ∧ (o = 0x20 → v = s.arg0) ∧ (o = 0x24 → v = s.arg1) ∧ (o = 0x28 → v = s.res0) ∧
      (o = 0x2C → v = s.res1) ∧ (o = 0x30 → v.toNat = nsym s.ft) ∧ (o = 0x34 → v.toNat = total s.ft % 2 ^ 32) ∧
      (o = 0x38 → v.toNat = total s.ft / 2 ^ 32) ∧ (o = 0x3C → v.toNat = s.root.toNat + s.nnodes.toNat * 2 ^ 16) ∧
      (o = 0x40 → v = s.bwPos) ∧ (o = 0x44 → v.toNat = s.bwAcc.toNat + s.bwCnt.toNat * 2 ^ 8) ∧ (o = 0x48 → v = s.brBase) ∧
      (o = 0x4C → v.toNat = s.brPos.toNat % 2 ^ 32) ∧ (o = 0x50 → v.toNat = s.brPos.toNat / 2 ^ 32) ∧
      (o = 0x54 → v.toNat = s.brValid.toNat % 2 ^ 32) ∧ (o = 0x58 → v.toNat = s.brValid.toNat / 2 ^ 32) ∧
      (o = 0x60 → v = BitVec.ofNat 32 s.cfg.ibufSize) ∧ (o = 0x64 → v = BitVec.ofNat 32 s.cfg.obufSize) ∧
      (o.toNat = 0x1C ∨ o.toNat = 0x5C ∨ 0x68 ≤ o.toNat → v = 0)

/-- Rules R21, R48: a host write to `ft[sym]` stores the value, clears TREE_VALID and CT_VALID, leaves every other entry and all
other state as it was, and the value reads back. The pending events and the answers are the model's own (log entries 1
and 3). -/
def Obligations.HostFtWriteStoresAndInvalidates : Prop :=
  ∀ (s : State) (sym : Byte) (o v : Word) (es : List Event), s.busy = false → o.toNat = 0x400 + 4 * sym.toNat →
    s.inputs = .access (.write32 o v) :: .access (.read32 o) :: es →
    ∃ t, step s = .next t ∧ t.ft.at sym = v ∧ (∀ q, q ≠ sym → t.ft.at q = s.ft.at q) ∧
      t = { s with
        inputs := .access (.read32 o) :: es, answer := .none, ft := t.ft, treeValid := false, ctValid := false } ∧
      step t = .next { t with inputs := es, answer := .word v }

/-- Rules R45, R46: a host byte write to IBUF or OBUF stores that one byte, and it reads back.
The pending events and the answers are the model's own
(log entries 1 and 3). -/
def Obligations.HostByteWriteStoresOneByte : Prop :=
  ∀ (s : State) (a : Nat) (o : Word) (v : Byte) (es : List Event), s.busy = false → s.cfg.wellFormed = true →
    s.inputs = .access (.write8 o v) :: .access (.read8 o) :: es →
    (a < s.cfg.ibufSize → o.toNat = 0x40000000 + a → ∃ t, step s = .next t ∧
      t = { s with inputs := .access (.read8 o) :: es, answer := .none, ibuf := t.ibuf } ∧
      (∀ b, b ≠ a → t.ibufByte b = s.ibufByte b) ∧ step t = .next { t with inputs := es, answer := .byte v }) ∧
    (a < s.cfg.obufSize → o.toNat = 0x80000000 + a → ∃ t, step s = .next t ∧
      t = { s with inputs := .access (.read8 o) :: es, answer := .none, obuf := t.obuf } ∧
      (∀ b, b ≠ a → t.obufByte b = s.obufByte b) ∧ step t = .next { t with inputs := es, answer := .byte v })

/-- Rule R24: the node window. The pending events and the answer are the model's own (log entries 1 and 3). -/
def Obligations.NodeWindowShowsTheRecords : Prop :=
  ∀ (s : State) (i w : Nat) (o : Word) (es : List Event), s.busy = false → i ≤ 511 → w < 8 →
    o.toNat = 0x8000 + 32 * i + 4 * w → accessNext s (.read32 o) es →
    ∃ v : Word, step s = .next { s with inputs := es, answer := .word v } ∧
      (w = 0 → v.toNat = (if i < s.nnodes.toNat then 1 else 0) + (if (s.recAt i).kind = .internal then 2 else 0) +
        (if (s.recAt i).inq then 4 else 0) + (s.recAt i).sym.toNat * 2 ^ 8) ∧
      (w = 1 → v.toNat = (s.recAt i).left.toNat + (s.recAt i).right.toNat * 2 ^ 16) ∧
      (w = 2 → v.toNat = (s.recAt i).weight.toNat % 2 ^ 32) ∧ (w = 3 → v.toNat = (s.recAt i).weight.toNat / 2 ^ 32) ∧
      (4 ≤ w → v = 0) ∧ (i = 511 → s.nnodes.toNat ≤ 511 → v = 0)

/-- Rule R25: the code-table window. The pending events and the answer are the model's own (log entries 1 and 3). -/
def Obligations.CodeWindowShowsTheCodes : Prop :=
  ∀ (s : State) (sym : Byte) (w : Nat) (o : Word) (es : List Event), s.busy = false → s.ct.len sym ≤ 255 → w < 16 →
    o.toNat = 0x2000 + 64 * sym.toNat + 4 * w → accessNext s (.read32 o) es →
    ∃ v : Word, step s = .next { s with inputs := es, answer := .word v } ∧
      (w = 0 → v.toNat = (s.ct.at sym).length) ∧ (1 ≤ w → w ≤ 7 → v = 0) ∧
      (8 ≤ w → ∀ i, i < 32 → v.getLsbD (31 - i) = (s.ct.at sym).getD (32 * (w - 8) + i) false)

/-! ### Reset and the whole machine -/

/-- Rules R34, R175, R176: the reset input, from any state, BUSY and FATAL included. The constants of the instance stay (rule R33).
IBUF and OBUF are unspecified, so nothing is said of them.
That the events still to come stay, and that the kept HOSTVIOL bit is 0, is the model's
choice (log entries 11 and 16). -/
def Obligations.ResetInputGivesTheResetState : Prop :=
  ∀ (s : State) (es : List Event), s.inputs = .reset :: es →
    ∃ t, step s = .next t ∧ t.busy = false ∧ t.done = false ∧ t.err = false ∧ t.fatal = false ∧ t.hostviol = false ∧
      t.hostviolAtAccept = false ∧ t.cmdReg = 0 ∧ nsym t.ft = 0 ∧ total t.ft = 0 ∧ readReg t 0x3C = 0x000001FF ∧
      t.errcode = 0 ∧ t.errinfo = 0 ∧ t.ieDone = false ∧ t.ieErr = false ∧ t.inLen = 0 ∧ t.outLen = 0 ∧ t.arg0 = 0 ∧
      t.arg1 = 0 ∧ t.res0 = 0 ∧ t.res1 = 0 ∧ (∀ sym, t.ft.at sym = 0) ∧ (∀ i, t.recAt i = NodeRec.cleared) ∧ t.nnodes = 0 ∧
      t.root = 511 ∧ t.treeValid = false ∧ t.ctValid = false ∧ t.treeKind = .none ∧ (∀ sym, t.ct.at sym = []) ∧
      t.bwOpen = false ∧ t.bwPos = 0 ∧ t.bwAcc = 0 ∧ t.bwCnt = 0 ∧ t.brOpen = false ∧ t.brBase = 0 ∧ t.brPos = 0 ∧
      t.brValid = 0 ∧ statusWord t = 0x00004000 ∧ irq t = false ∧ t.cfg = s.cfg ∧ t.inputs = es

/-- The invariant holds at reset. -/
def Obligations.InvariantHoldsAtReset : Prop := State.reset.Inv

/-- Rules R22, R30, R31, R50, R64, R108, R114, R151: from every state of the invariant a step answers a next state, and the
invariant holds there. No fault and no refusal is reachable. -/
def Obligations.EveryStepAnswersAndKeepsTheInvariant : Prop :=
  ∀ s : State, s.Inv → ∃ t, step s = .next t ∧ t.Inv

/-- Rule R100: no run reaches the fatal error. -/
def Obligations.NoStepRaisesTheFatalError : Prop :=
  ∀ s t : State, s.Inv → s.fatal = false → step s = .next t → t.fatal = false

/-- Rule R32: `fatal` and `hostviol` are cleared by reset only. -/
def Obligations.OnlyResetClearsTheFaultMarks : Prop :=
  ∀ s t : State, s.inputs.head? ≠ some .reset → step s = .next t →
    (s.fatal = true → t.fatal = true) ∧ (s.hostviol = true → t.hostviol = true)

/-- Rule R154: a FATAL block stays FATAL, and ERRCODE and ERRINFO stay frozen, until reset. -/
def Obligations.FatalBlockIsFrozenUntilReset : Prop :=
  ∀ s t : State, s.fatal = true → s.busy = false → s.inputs.head? ≠ some .reset → step s = .next t →
    t.fatal = true ∧ t.busy = false ∧ t.errcode = s.errcode ∧ t.errinfo = s.errinfo

/-- Rules R152, R153, R154: a command that completes leaves the block not BUSY with DONE set; ERRCODE and ERRINFO are written only
together with ERR, FATAL only together with ERR and InternalInvariantViolation. -/
def Obligations.CompletionClearsBusyAndSetsDone : Prop :=
  ∀ (i : Instr) (s t : State), exec i s = .next t → s.err = false →
    t.busy = false ∧ t.done = true ∧ (t.err = false → t.errcode = s.errcode ∧ t.errinfo = s.errinfo ∧ t.fatal = s.fatal) ∧
      (s.fatal = false → t.fatal = true → t.err = true ∧ t.errcode = 0x04)

/-- Rules R153, R163: which command can end with which error; an error of ENCODE or DECODE leaves no output. -/
def Obligations.EachCommandReportsOnlyItsErrors : Prop :=
  ∀ (i : Instr) (s t : State), s.err = false → exec i s = .next t → t.err = true →
    (∃ e, e ∈ errorsOf i ∧ t.errcode = e.code) ∧ ((i = .encode ∨ i = .decode) → t.outLen = 0)

/-- Rules R10, R19, R20, R28, R33: what no command writes: ARG0, ARG1, IN_LEN, IE, IBUF, the constants, HOSTVIOL.
The pending events, the
answer and the count of resets are the model's own (log entries 1, 3 and 4). -/
def Obligations.NoCommandWritesTheHostsState : Prop :=
  ∀ (i : Instr) (s t : State), exec i s = .next t →
    t.arg0 = s.arg0 ∧ t.arg1 = s.arg1 ∧ t.inLen = s.inLen ∧ t.ieDone = s.ieDone ∧ t.ieErr = s.ieErr ∧ t.ibuf = s.ibuf ∧
      t.cfg = s.cfg ∧ t.hostviol = s.hostviol ∧ t.hostviolAtAccept = s.hostviolAtAccept ∧ t.cmdReg = s.cmdReg ∧ t.inputs = s.inputs ∧ t.answer = s.answer ∧
      t.resets = s.resets ∧ ∀ a, t.ibufByte a = s.ibufByte a

/-- Rules R12, R61: operand bits a command does not name are ignored. -/
def Obligations.UnnamedOperandBitsAreIgnored : Prop :=
  ∀ (s : State) (a b : Word),
    (a.getLsbD 0 = b.getLsbD 0 → ∀ t, exec .bwPutb { s with arg0 := a } = .next t →
      exec .bwPutb { s with arg0 := b } = .next { t with arg0 := b }) ∧
    (a.setWidth 8 = b.setWidth 8 → ∀ t, exec .bwPutsym { s with arg0 := a } = .next t →
      exec .bwPutsym { s with arg0 := b } = .next { t with arg0 := b }) ∧
    ((∀ i, i < s.arg1.toNat → a.getLsbD i = b.getLsbD i) → ∀ t, exec .bwPuts { s with arg0 := a } = .next t →
      exec .bwPuts { s with arg0 := b } = .next { t with arg0 := b })

/-! ### Control, FrequencyAnalyzer, TreeBuilder, CodeTable -/

/-- Rule R75: NOP completes and leaves the whole context untouched. -/
def Obligations.NopOnlyCompletes : Prop := ∀ s : State, exec .nop s = .next { s with busy := false, done := true }

/-- Rules R76, R77: CLEAR completes with the context in its reset state and everything else as it was. -/
def Obligations.ClearResetsTheContext : Prop :=
  ∀ s : State, ∃ t, exec .clear s = .next t ∧ (∀ sym, t.ft.at sym = 0) ∧ (∀ i, t.recAt i = NodeRec.cleared) ∧
    (∀ sym, t.ct.at sym = []) ∧
    t = { s with
      busy := false, done := true, ft := t.ft, node := t.node, nnodes := 0, root := 511, treeValid := false
      treeKind := .none, ct := t.ct, ctValid := false, bwOpen := false, bwPos := 0, bwAcc := 0, bwCnt := 0, brOpen := false
      brBase := 0, brPos := 0, brValid := 0, res0 := 0, res1 := 0, outLen := 0 }

/-- Rules R80, R81, R82: FREQ counts the bytes of IBUF[0 .. in_len−1]. -/
def Obligations.FreqCountsTheInput : Prop :=
  ∀ s : State, s.cfg.wellFormed = true → s.inLen.toNat ≤ s.cfg.ibufSize →
    ∃ t, exec .freq s = .next t ∧
      (∀ sym, (t.ft.at sym).toNat = ((List.range s.inLen.toNat).filter (fun i => s.ibufByte i == sym)).length) ∧
      total t.ft = s.inLen.toNat ∧ (nsym t.ft = 0 ↔ s.inLen = 0) ∧ t.res0.toNat = nsym t.ft ∧
      t = { s with busy := false, done := true, ft := t.ft, treeValid := false, ctValid := false, res0 := t.res0 }

/-- Rules R80, R113, R127, R137: FREQ, BR_INIT, ENCODE and DECODE end with BadArgument where IN_LEN is above IBUF_SIZE, before
anything is changed. -/
def Obligations.TooLongInputIsBadArgument : Prop :=
  ∀ (i : Instr) (s : State), (i = .freq ∨ i = .brInit ∨ i = .encode ∨ i = .decode) → s.cfg.ibufSize < s.inLen.toNat →
    exec i s = .next { s with
      errcode := 0x12, errinfo := s.inLen, err := true, done := true, busy := false
      outLen := if i = .encode ∨ i = .decode then 0 else s.outLen }

/-- Rules R85, R86, R87, R89, R90, R91, R92: BUILD always completes, with the tree of rule R30, and leaves everything else. -/
def Obligations.BuildMakesTheTreeOfTheTable : Prop :=
  ∀ s : State, ∃ t, exec .build s = .next t ∧ t.TreeInv ∧ t.node = treeOf s.ft ∧ t.treeValid = true ∧ t.ctValid = false ∧
    t.res0.toNat = nsym s.ft ∧ t.res1.toNat = 2 * nsym s.ft - 1 ∧
    (∀ i, t.nnodes.toNat ≤ i → t.recAt i = NodeRec.cleared) ∧
    t = { s with
      busy := false, done := true, node := t.node, nnodes := t.nnodes, root := t.root, treeKind := t.treeKind
      treeValid := true, ctValid := false, res0 := t.res0, res1 := t.res1 }

/-- Rule R88: `popmin` takes the node of smallest weight, among equal weights the one of smallest index, and only clears its
`inq`. -/
def Obligations.PopminTakesTheSmallestEarliestNode : Prop :=
  ∀ (ns ns' : List NodeRec) (a : Nat) (w : Weight), popmin ns = some (a, w, ns') →
    (∃ r, ns[a]? = some r ∧ r.inq = true ∧ r.weight = w) ∧
    (∀ j q, ns[j]? = some q → q.inq = true → j ≠ a → w.toNat < q.weight.toNat ∨ (w.toNat = q.weight.toNat ∧ a < j)) ∧
    (∀ j, ns'[j]? = if j = a then (ns[a]?).map (fun r => { r with inq := false }) else ns[j]?)

/-- Rules R88, R89: a pass of the loop joins the two smallest nodes, the first popped on the left. -/
def Obligations.MergeJoinsTheTwoSmallestNodes : Prop :=
  ∀ ns : List NodeRec, 1 < inqCount ns →
    ∃ a wa ns1 b wb ns2, popmin ns = some (a, wa, ns1) ∧ popmin ns1 = some (b, wb, ns2) ∧ a ≠ b ∧
      (wa.toNat < wb.toNat ∨ (wa.toNat = wb.toNat ∧ a < b)) ∧ inqCount (mergeOnce ns) + 1 = inqCount ns ∧
      mergeOnce ns = ns2 ++ [{
        kind := .internal, sym := 0, weight := wa + wb, left := BitVec.ofNat 9 a, right := BitVec.ofNat 9 b, inq := true }]

/-- Rule R90: the weights of the Internal nodes never decrease in creation order. -/
def Obligations.InternalWeightsNeverDecrease : Prop :=
  ∀ s t : State, exec .build s = .next t → ∀ i j, nsym s.ft ≤ i → i < j → j < t.nnodes.toNat →
    (t.recAt i).weight.toNat ≤ (t.recAt j).weight.toNat

/-- Rule R93 (a): the tree and the codes are a function of `ft` alone. -/
def Obligations.TreeAndCodesDependOnTheTableOnly : Prop :=
  ∀ s s' t t' u u' : State, s.ft = s'.ft → exec .build s = .next t → exec .build s' = .next t' →
    exec .codegen t = .next u → exec .codegen t' = .next u' →
    t.node = t'.node ∧ t.nnodes = t'.nnodes ∧ t.root = t'.root ∧ t.treeKind = t'.treeKind ∧ u.ct = u'.ct

/-- Rules R95, R96, R98, R101: from a valid tree CODEGEN completes with the path codes, RES0 and RES1 the longest and the shortest
length, and leaves everything else. -/
def Obligations.CodegenAssignsThePathCodes : Prop :=
  ∀ s : State, s.treeValid = true → s.TreeInv →
    ∃ t, exec .codegen s = .next t ∧ t.CodeInv ∧ (∀ sym, t.ct.len sym ≤ 255) ∧
      (∀ sym, t.ct.len sym ≤ t.res0.toNat) ∧ (∀ sym, t.ct.len sym ≠ 0 → t.res1.toNat ≤ t.ct.len sym) ∧
      (if nsym s.ft = 0 then t.res0 = 0 ∧ t.res1 = 0
       else (∃ sym, t.ct.len sym = t.res0.toNat) ∧ ∃ sym, t.ct.len sym ≠ 0 ∧ t.ct.len sym = t.res1.toNat) ∧
      t = { s with busy := false, done := true, ct := t.ct, ctValid := true, res0 := t.res0, res1 := t.res1 }

/-- Rules R95, R100, R154: CODEGEN without a valid tree is BadSequence; at a root with a missing child it is fatal. -/
def Obligations.CodegenRefusesNoTreeAndAMissingChild : Prop :=
  ∀ s : State,
    (s.treeValid = false → exec .codegen s = .next { s with
      errcode := 0x11, errinfo := 0x12, err := true, done := true, busy := false }) ∧
    (s.treeValid = true → s.treeKind = .multi → s.root ≠ NIL → (s.recAt s.root.toNat).kind = .internal →
      ((s.recAt s.root.toNat).left = NIL ∨ (s.recAt s.root.toNat).right = NIL) →
      ∃ t, exec .codegen s = .next t ∧ (∀ sym, t.ct.at sym = []) ∧
        t = { s with
          ct := t.ct, ctValid := false, errcode := 0x04, errinfo := s.root.setWidth 32, fatal := true, err := true
          done := true, busy := false, outLen := 0 })

/-- Rules R31, R97 (a) and (b): the codes of the retained symbols are prefix-free, and with two or more symbols they are complete:
the sum of `2 ^ (−len)` is 1. -/
def Obligations.CodesArePrefixFreeAndComplete : Prop :=
  ∀ s : State, s.Inv → s.ctValid = true →
    prefixFreeOn s.ft s.ct.at ∧
      (s.treeKind = .multi → ((retained s.ft).map (fun sym => 2 ^ (255 - s.ct.len sym))).sum = 2 ^ 255)

/-- Rule R93 (b): with two or more retained symbols, no prefix-free assignment has a smaller sum of frequency × code length than the
codes of CODEGEN after BUILD. -/
def Obligations.CodesAreOptimal : Prop :=
  ∀ (s t u : State) (c : Byte → Code), 2 ≤ nsym s.ft → exec .build s = .next t → exec .codegen t = .next u →
    prefixFreeOn s.ft c → weightedLength s.ft u.ct.at ≤ weightedLength s.ft c

/-! ### BitWriter and BitReader -/

/-- Rule R107: BW_INIT opens a session at `arg0` where `arg0 ≤ OBUF_SIZE` and is BadArgument where not; OBUF keeps every byte. -/
def Obligations.BwInitOpensASession : Prop :=
  ∀ s : State,
    (s.arg0.toNat ≤ s.cfg.obufSize → ∃ t, exec .bwInit s = .next t ∧ writerHolds t s.arg0.toNat [] ∧
      t = { s with
        busy := false, done := true, bwPos := s.arg0, bwAcc := 0, bwCnt := 0, bwOpen := true, outLen := 0 }) ∧
    (s.cfg.obufSize < s.arg0.toNat → exec .bwInit s = .next { s with
      errcode := 0x12, errinfo := s.arg0, err := true, done := true, busy := false })

/-- Rules R106, R108, R109, R110, R125, R126: with room, BW_PUTB, BW_PUTS and BW_PUTSYM complete and append their bits to the
session; only the bytes that fill up are stored, and only BW_PUTSYM writes RES0. -/
def Obligations.BitWriterCommandsAppendTheirBits : Prop :=
  ∀ (i : Instr) (s : State) (base : Nat) (w : List Bool), s.cfg.wellFormed = true → mayWrite i s → writerHolds s base w →
    8 * base + w.length + (bitsToWrite i s).length ≤ 8 * s.cfg.obufSize →
    ∃ t, exec i s = .next t ∧ writerHolds t base (w ++ bitsToWrite i s) ∧
      (∀ a, ¬ (base + w.length / 8 ≤ a ∧ a < base + (w.length + (bitsToWrite i s).length) / 8) →
        t.obufByte a = s.obufByte a) ∧
      t = { s with
        busy := false, done := true, obuf := t.obuf, bwPos := t.bwPos, bwAcc := t.bwAcc, bwCnt := t.bwCnt
        res0 := if i = .bwPutsym then BitVec.ofNat 32 (bitsToWrite i s).length else s.res0 }

/-- Rules R106, R109, R110, R125: without room, the bits that fit stay written and the command ends with OutputOverflow,
ERRINFO = `bw_pos`; RES0 is not updated. -/
def Obligations.BitWriterOverflowKeepsTheBitsThatFit : Prop :=
  ∀ (i : Instr) (s : State) (base : Nat) (w : List Bool), s.cfg.wellFormed = true → mayWrite i s → writerHolds s base w →
    8 * base + w.length ≤ 8 * s.cfg.obufSize → 8 * s.cfg.obufSize < 8 * base + w.length + (bitsToWrite i s).length →
    ∃ t, exec i s = .next t ∧
      writerHolds t base (w ++ (bitsToWrite i s).take (8 * s.cfg.obufSize - 8 * base - w.length)) ∧
      (∀ a, ¬ (base + w.length / 8 ≤ a ∧ a < s.cfg.obufSize) → t.obufByte a = s.obufByte a) ∧
      t = { s with
        busy := false, done := true, err := true, errcode := 0x13, errinfo := BitVec.ofNat 32 s.cfg.obufSize
        obuf := t.obuf, bwPos := t.bwPos, bwAcc := t.bwAcc, bwCnt := t.bwCnt }

/-- Rules R109, R110, R111, R125: the refusals of the BitWriter commands, in order; none changes anything else. -/
def Obligations.BitWriterRefusals : Prop :=
  ∀ s : State,
    (s.bwOpen = false → ∀ i ∈ [Instr.bwPutb, .bwPuts, .bwPutsym, .bwFinal], exec i s = .next { s with
      errcode := 0x11, errinfo := encode i, err := true, done := true, busy := false }) ∧
    (s.bwOpen = true → 32 < s.arg1.toNat → exec .bwPuts s = .next { s with
      errcode := 0x12, errinfo := s.arg1, err := true, done := true, busy := false }) ∧
    (s.bwOpen = true → s.ctValid = false → exec .bwPutsym s = .next { s with
      errcode := 0x11, errinfo := 0x23, err := true, done := true, busy := false }) ∧
    (s.bwOpen = true → s.ctValid = true → s.ct.at (s.arg0.setWidth 8) = [] → exec .bwPutsym s = .next { s with
      errcode := 0x12, errinfo := (s.arg0.setWidth 8).setWidth 32, err := true, done := true, busy := false })

/-- Rules R111, R112: BW_FINAL completes, the session's bytes are `pack(w)`, RES0 is the padding count, RES1 and OUT_LEN the end. -/
def Obligations.BwFinalPacksTheSession : Prop :=
  ∀ (s : State) (base : Nat) (w : List Bool), s.cfg.wellFormed = true → s.bwOpen = true → writerHolds s base w →
    8 * base + w.length ≤ 8 * s.cfg.obufSize →
    ∃ t, exec .bwFinal s = .next t ∧ holdsBits t.obufByte base w ∧ t.res0.toNat = padOf w.length ∧
      t.outLen.toNat = base + ceil8 w.length ∧
      (∀ a, ¬ (base + w.length / 8 ≤ a ∧ a < base + ceil8 w.length) → t.obufByte a = s.obufByte a) ∧
      t = { s with
        busy := false, done := true, obuf := t.obuf, bwOpen := false, bwPos := t.outLen, bwAcc := 0, bwCnt := 0
        res0 := t.res0, res1 := t.outLen, outLen := t.outLen }

/-- Rule R113: BR_INIT wraps IBUF[arg0 .. in_len−1] with `8·nbytes − arg1` valid bits, and its refusals in order. -/
def Obligations.BrInitWrapsTheBuffer : Prop :=
  ∀ s : State, s.cfg.wellFormed = true → s.inLen.toNat ≤ s.cfg.ibufSize →
    (s.inLen.toNat < s.arg0.toNat → exec .brInit s = .next { s with
      errcode := 0x12, errinfo := s.arg0, err := true, done := true, busy := false }) ∧
    (s.arg0.toNat ≤ s.inLen.toNat → (7 < s.arg1.toNat ∨ 8 * (s.inLen.toNat - s.arg0.toNat) < s.arg1.toNat) →
      exec .brInit s = .next { s with
        errcode := 0x03, errinfo := s.arg1, err := true, done := true, busy := false }) ∧
    (s.arg0.toNat ≤ s.inLen.toNat → s.arg1.toNat ≤ 7 → s.arg1.toNat ≤ 8 * (s.inLen.toNat - s.arg0.toNat) →
      ∃ t, exec .brInit s = .next t ∧ t.brValid.toNat = 8 * (s.inLen.toNat - s.arg0.toNat) - s.arg1.toNat ∧
        t = { s with
          busy := false, done := true, brBase := s.arg0, brValid := t.brValid, brPos := 0, brOpen := true })

/-- Rules R115, R116: while a valid bit remains BR_GETB returns the bit of IBUF at the position and advances it by one. -/
def Obligations.BrGetbReturnsTheNextBit : Prop :=
  ∀ s : State, s.cfg.wellFormed = true → s.brOpen = true → s.brPos.toNat < s.brValid.toNat →
    8 * s.brBase.toNat + s.brValid.toNat ≤ 8 * s.cfg.ibufSize →
    ∃ t, exec .brGetb s = .next t ∧ t.res0.toNat = (readerBit s s.brPos.toNat).toNat ∧
      t.brPos.toNat = s.brPos.toNat + 1 ∧ t = { s with busy := false, done := true, res0 := t.res0, brPos := t.brPos }

/-- Rules R115, R135, R136: the refusals of BR_GETB and BR_GETSYM; none changes anything else. -/
def Obligations.BitReaderRefusals : Prop :=
  ∀ s : State,
    (s.brOpen = false → ∀ i ∈ [Instr.brGetb, .brGetsym], exec i s = .next { s with
      errcode := 0x11, errinfo := encode i, err := true, done := true, busy := false }) ∧
    (s.brOpen = true → s.brValid.toNat ≤ s.brPos.toNat → exec .brGetb s = .next { s with
      errcode := 0x05, errinfo := s.brPos.setWidth 32, err := true, done := true, busy := false }) ∧
    (s.brOpen = true → (s.treeValid = false ∨ s.treeKind ≠ .multi) → exec .brGetsym s = .next { s with
      errcode := 0x11, errinfo := 0x32, err := true, done := true, busy := false })

/-- Rule R118: what the BitWriter packed, the BitReader returns. With `pack(w)` in IBUF from `arg0` to `in_len−1` and its pad in
`arg1`, BR_INIT gives `|w|` valid bits, the next `|w|` BR_GETB return the bits of `w` in order, and BR_EMPTY is then 1. -/
def Obligations.BitReaderReturnsThePackedBits : Prop :=
  ∀ (s : State) (w : List Bool), s.cfg.wellFormed = true → s.inLen.toNat ≤ s.cfg.ibufSize →
    s.inLen.toNat = s.arg0.toNat + ceil8 w.length → s.arg1.toNat = padOf w.length → holdsBits s.ibufByte s.arg0.toNat w →
    ∃ t u, exec .brInit s = .next t ∧ t.brValid.toNat = w.length ∧ getbRun w.length t = some (w, u) ∧ brEmpty u = true ∧
      u = { t with brPos := t.brValid, res0 := u.res0 }

/-- Rule R135: where the next bits are the path from the root to a Leaf, BR_GETSYM completes with its symbol and the path's
length, and the position moves by that length. -/
def Obligations.BrGetsymWalksToTheLeaf : Prop :=
  ∀ (s : State) (path : Code) (sym : Byte), s.cfg.wellFormed = true → s.brOpen = true → s.treeValid = true →
    s.treeKind = .multi → 8 * s.brBase.toNat + s.brValid.toNat ≤ 8 * s.cfg.ibufSize →
    s.brPos.toNat + path.length ≤ s.brValid.toNat → upcoming s path.length = path →
    s.node.leadsTo s.root path sym = true →
    ∃ t, exec .brGetsym s = .next t ∧ t.brPos.toNat = s.brPos.toNat + path.length ∧
      t = { s with
        busy := false, done := true, brPos := t.brPos, res0 := sym.setWidth 32, res1 := BitVec.ofNat 32 path.length }

/-- Rule R135: where the valid bits run out before a Leaf, BR_GETSYM ends with CorruptStream, ERRINFO where the unfinished code
began; the bits are consumed, RES0 and RES1 are not updated. -/
def Obligations.BrGetsymReportsAnUnfinishedCode : Prop :=
  ∀ s : State, s.Inv → s.brOpen = true → s.treeValid = true → s.treeKind = .multi →
    (∀ n, s.brPos.toNat + n ≤ s.brValid.toNat → s.node.leadsToLeaf s.root (upcoming s n) = false) →
    exec .brGetsym s = .next { s with
      brPos := s.brValid, errcode := 0x03, errinfo := s.brPos.setWidth 32, err := true, done := true, busy := false }

/-! ### Encoder and Decoder -/

/-- Rules R127, R129, R132: where at most 255 symbols occur and the container fits, ENCODE completes with the container of its
input in OBUF[0 .. out_len−1] and the state of rule R132. -/
def Obligations.EncodeWritesTheContainer : Prop :=
  ∀ s : State, s.cfg.wellFormed = true → s.inLen.toNat ≤ s.cfg.ibufSize → nsym (inputTable s) ≤ 255 →
    containerSize (inputTable s) (codesOf (inputTable s)) ≤ s.cfg.obufSize →
    ∃ t, exec .encode s = .next t ∧ t.ft = inputTable s ∧ t.ct = codesOf t.ft ∧ t.treeValid = true ∧
      t.node = treeOf t.ft ∧ t.TreeInv ∧ t.CodeInv ∧ isContainer t.obufByte t.outLen.toNat t.ft t.ct s.inputBytes ∧
      (∀ sym, (t.ft.at sym).toNat = s.inputBytes.count sym) ∧
      t.res0.toNat = padOf (codeBits t.ct s.inputBytes).length ∧ t.res1.toNat = nsym t.ft ∧
      (∀ a, t.outLen.toNat ≤ a → t.obufByte a = s.obufByte a) ∧
      t = { s with
        busy := false, done := true, ft := t.ft, node := t.node, nnodes := t.nnodes, root := t.root
        treeKind := t.treeKind, treeValid := true, ct := t.ct, ctValid := true, bwOpen := false, bwPos := t.outLen
        bwAcc := 0, bwCnt := 0, brOpen := false, brBase := 0, brPos := 0, brValid := 0, res0 := t.res0, res1 := t.res1
        outLen := t.outLen, obuf := t.obuf }

/-- Rules R127, R128: where all 256 symbols occur ENCODE ends with AlphabetTooLarge, and where the container does not fit with
OutputOverflow; in both cases the tree and the codes of the input are complete, and OBUF is as it was. -/
def Obligations.EncodeReportsWhatDoesNotFit : Prop :=
  ∀ s : State, s.cfg.wellFormed = true → s.inLen.toNat ≤ s.cfg.ibufSize →
    (nsym (inputTable s) = 256 → encodeFails s .alphabetTooLarge 256) ∧
    (nsym (inputTable s) ≤ 255 → s.cfg.obufSize < containerSize (inputTable s) (codesOf (inputTable s)) →
      encodeFails s .outputOverflow (containerSize (inputTable s) (codesOf (inputTable s))))

/-- Rules R137, R138, R146 rows 1 to 9: DECODE reports the first check that fails. -/
def Obligations.DecodeReportsTheFirstFailingCheck : Prop :=
  ∀ s : State, s.cfg.wellFormed = true →
    (s.cfg.ibufSize < s.inLen.toNat → decodeFails s .badArgument s.inLen.toNat) ∧
    (s.inLen = 0 → decodeFails s .corruptHeader 0) ∧
    (s.inLen.toNat ≤ s.cfg.ibufSize → 1 ≤ s.inLen.toNat → s.inLen.toNat < 2 + 5 * (s.ibufByte 0).toNat →
      decodeFails s .corruptHeader s.inLen.toNat) ∧
    (∀ j, s.inLen.toNat ≤ s.cfg.ibufSize → 1 ≤ s.inLen.toNat → 2 + 5 * (s.ibufByte 0).toNat ≤ s.inLen.toNat →
      j < (s.ibufByte 0).toNat → (∀ i, i < j → pairOk s i) →
      (j ≠ 0 → pairSym s j ≤ pairSym s (j - 1) → decodeFails s .corruptHeader (1 + 5 * j)) ∧
      ((j = 0 ∨ pairSym s (j - 1) < pairSym s j) → pairFreq s j = 0 → decodeFails s .corruptHeader (2 + 5 * j))) ∧
    (pairsOk s → 2 ^ 32 ≤ headerTotal s → decodeFails s .corruptHeader (1 + 5 * (s.ibufByte 0).toNat)) ∧
    (pairsOk s → headerTotal s < 2 ^ 32 → 7 < headerPad s → decodeFails s .corruptStream (1 + 5 * (s.ibufByte 0).toNat)) ∧
    (pairsOk s → headerTotal s < 2 ^ 32 → headerPad s ≤ 7 → ¬ (s.ibufByte 0 = 0 ↔ payloadLen s = 0) →
      decodeFails s .emptyAlphabetMismatch (payloadLen s)) ∧
    (pairsOk s → headerPad s ≤ 7 → s.ibufByte 0 = 0 → payloadLen s = 0 → headerPad s ≠ 0 →
      decodeFails s .corruptStream 1) ∧
    (pairsOk s → headerTotal s < 2 ^ 32 → headerPad s ≤ 7 → s.ibufByte 0 ≠ 0 → payloadLen s ≠ 0 →
      s.cfg.obufSize < headerTotal s → decodeFails s .outputOverflow (headerTotal s))

/-- Rules R139, R140, R145: DECODE of the empty container, and of a container with one entry, whose payload it does not read. -/
def Obligations.DecodeHandlesEmptyAndSingleEntry : Prop :=
  ∀ s : State, s.cfg.wellFormed = true → pairsOk s → headerPad s ≤ 7 →
    (s.ibufByte 0 = 0 → payloadLen s = 0 → headerPad s = 0 →
      ∃ t, exec .decode s = .next t ∧ (∀ sym, t.ft.at sym = 0) ∧
        t = { ctxClear s with busy := false, done := true, ft := t.ft }) ∧
    (s.ibufByte 0 = 1 → payloadLen s ≠ 0 → pairFreq s 0 ≤ s.cfg.obufSize →
      ∃ t, exec .decode s = .next t ∧ t.outLen.toNat = pairFreq s 0 ∧
        (∀ a, a < pairFreq s 0 → t.obufByte a = s.ibufByte 1) ∧
        (∀ a, pairFreq s 0 ≤ a → t.obufByte a = s.obufByte a) ∧
        (∀ sym, (t.ft.at sym).toNat = if sym = s.ibufByte 1 then pairFreq s 0 else 0) ∧
        t = { ctxClear s with
          busy := false, done := true, ft := t.ft, obuf := t.obuf, outLen := t.outLen, res1 := 1
          res0 := BitVec.ofNat 32 (headerPad s) })

/-- Rules R137, R141, R145: where the valid payload bits spell `msg` in the tree of the header's table, and `msg` is as long as the
table's total, DECODE of two or more entries completes with `msg` in OBUF; bits and bytes left over are ignored. -/
def Obligations.DecodeEmitsTheSpelledMessage : Prop :=
  ∀ (s : State) (ft : FreqTable) (pad : Nat) (msg : List Byte), s.cfg.wellFormed = true →
    s.inLen.toNat ≤ s.cfg.ibufSize → 2 ≤ nsym ft → nsym ft ≤ 255 → 2 + 5 * nsym ft < s.inLen.toNat → pad ≤ 7 →
    isHeader s.ibufByte ft pad → msg.length = total ft → total ft ≤ s.cfg.obufSize →
    spells (treeOf ft) (rootOf (treeRecords ft)) (payloadBits s (nsym ft) pad) msg →
    ∃ t, exec .decode s = .next t ∧ t.outLen.toNat = msg.length ∧ (∀ a, a < msg.length → some (t.obufByte a) = msg[a]?) ∧
      (∀ a, msg.length ≤ a → t.obufByte a = s.obufByte a) ∧ t.TreeInv ∧ t.node = treeOf ft ∧
      t.brValid.toNat = 8 * (s.inLen.toNat - (2 + 5 * nsym ft)) - pad ∧
      t.brPos.toNat = (codeBits (codesOf ft) msg).length ∧ t.brPos.toNat ≤ t.brValid.toNat ∧
      t = { ctxClear s with
        busy := false, done := true, ft := ft, node := t.node, nnodes := t.nnodes, root := t.root, treeKind := .multi
        treeValid := true, res0 := BitVec.ofNat 32 pad, res1 := BitVec.ofNat 32 (nsym ft)
        brBase := BitVec.ofNat 32 (2 + 5 * nsym ft), brPos := t.brPos, brValid := t.brValid, outLen := t.outLen
        obuf := t.obuf }

/-- Rules R142, R143, R146 row 10, R153: where the valid payload bits run out after fewer symbols than the table's total, DECODE
ends with CorruptStream, ERRINFO = the number of symbols emitted; no output is valid, and OBUF[0 .. M−1] holds free values (U1; the
model's choice, log entries 5 and 6). -/
def Obligations.DecodeReportsAnExhaustedPayload : Prop :=
  ∀ (s : State) (ft : FreqTable) (pad : Nat) (msg : List Byte), s.cfg.wellFormed = true →
    s.inLen.toNat ≤ s.cfg.ibufSize → 2 ≤ nsym ft → nsym ft ≤ 255 → 2 + 5 * nsym ft < s.inLen.toNat → pad ≤ 7 →
    isHeader s.ibufByte ft pad → msg.length < total ft → total ft ≤ s.cfg.obufSize →
    spellsThenEnds (treeOf ft) (rootOf (treeRecords ft)) (payloadBits s (nsym ft) pad) msg →
    ∃ t, exec .decode s = .next t ∧ t.TreeInv ∧ t.brValid.toNat = 8 * (s.inLen.toNat - (2 + 5 * nsym ft)) - pad ∧
      (∀ a, a < total ft → t.obufByte a = Config.freeByte (s.draws + a)) ∧
      (∀ a, total ft ≤ a → t.obufByte a = s.obufByte a) ∧
      t = { ctxClear s with
        busy := false, done := true, err := true, errcode := 0x03, errinfo := BitVec.ofNat 32 msg.length, ft := ft
        node := treeOf ft, nnodes := t.nnodes, root := t.root, treeKind := .multi, treeValid := true
        res0 := BitVec.ofNat 32 pad, res1 := BitVec.ofNat 32 (nsym ft), brOpen := true
        brBase := BitVec.ofNat 32 (2 + 5 * nsym ft), brPos := t.brValid, brValid := t.brValid, obuf := t.obuf
        draws := t.draws }

/-- Rule R144: DECODE of the container ENCODE made gives back the input. -/
def Obligations.DecodeOfEncodeIsTheInput : Prop :=
  ∀ s t u : State, s.cfg.wellFormed = true → s.err = false → exec .encode s = .next t → t.err = false →
    u.cfg.wellFormed = true → u.err = false → u.inLen = t.outLen → t.outLen.toNat ≤ u.cfg.ibufSize →
    s.inLen.toNat ≤ u.cfg.obufSize → (∀ a, a < t.outLen.toNat → u.ibufByte a = t.obufByte a) →
    ∃ v, exec .decode u = .next v ∧ v.err = false ∧ v.outLen = s.inLen ∧
      ∀ a, a < s.inLen.toNat → v.obufByte a = s.ibufByte a
end

