-- ==== Sys2Proof/Laws/State.lean ====
section
/-! SUPPORT. One lemma for each field of the state and each named update: the two completions with an error and the one
without, command accept, writing the frequency table, clearing the context. Each is true by `rfl` and a simp lemma, so that no
proof unfolds a record update. -/

namespace Sys2Proof.Machine

@[simp] theorem completeNormally_busy (s : State) : (completeNormally s).busy = false := rfl
@[simp] theorem completeNormally_cmdReg (s : State) : (completeNormally s).cmdReg = s.cmdReg := rfl
@[simp] theorem completeNormally_done (s : State) : (completeNormally s).done = true := rfl
@[simp] theorem completeNormally_err (s : State) : (completeNormally s).err = s.err := rfl
@[simp] theorem completeNormally_fatal (s : State) : (completeNormally s).fatal = s.fatal := rfl
@[simp] theorem completeNormally_hostviol (s : State) : (completeNormally s).hostviol = s.hostviol := rfl
@[simp] theorem completeNormally_hostviolAtAccept (s : State) : (completeNormally s).hostviolAtAccept = s.hostviolAtAccept := rfl
@[simp] theorem completeNormally_errcode (s : State) : (completeNormally s).errcode = s.errcode := rfl
@[simp] theorem completeNormally_errinfo (s : State) : (completeNormally s).errinfo = s.errinfo := rfl
@[simp] theorem completeNormally_ieDone (s : State) : (completeNormally s).ieDone = s.ieDone := rfl
@[simp] theorem completeNormally_ieErr (s : State) : (completeNormally s).ieErr = s.ieErr := rfl
@[simp] theorem completeNormally_inLen (s : State) : (completeNormally s).inLen = s.inLen := rfl
@[simp] theorem completeNormally_outLen (s : State) : (completeNormally s).outLen = s.outLen := rfl
@[simp] theorem completeNormally_arg0 (s : State) : (completeNormally s).arg0 = s.arg0 := rfl
@[simp] theorem completeNormally_arg1 (s : State) : (completeNormally s).arg1 = s.arg1 := rfl
@[simp] theorem completeNormally_res0 (s : State) : (completeNormally s).res0 = s.res0 := rfl
@[simp] theorem completeNormally_res1 (s : State) : (completeNormally s).res1 = s.res1 := rfl
@[simp] theorem completeNormally_ft (s : State) : (completeNormally s).ft = s.ft := rfl
@[simp] theorem completeNormally_node (s : State) : (completeNormally s).node = s.node := rfl
@[simp] theorem completeNormally_nnodes (s : State) : (completeNormally s).nnodes = s.nnodes := rfl
@[simp] theorem completeNormally_root (s : State) : (completeNormally s).root = s.root := rfl
@[simp] theorem completeNormally_treeValid (s : State) : (completeNormally s).treeValid = s.treeValid := rfl
@[simp] theorem completeNormally_treeKind (s : State) : (completeNormally s).treeKind = s.treeKind := rfl
@[simp] theorem completeNormally_ct (s : State) : (completeNormally s).ct = s.ct := rfl
@[simp] theorem completeNormally_ctValid (s : State) : (completeNormally s).ctValid = s.ctValid := rfl
@[simp] theorem completeNormally_bwOpen (s : State) : (completeNormally s).bwOpen = s.bwOpen := rfl
@[simp] theorem completeNormally_bwPos (s : State) : (completeNormally s).bwPos = s.bwPos := rfl
@[simp] theorem completeNormally_bwAcc (s : State) : (completeNormally s).bwAcc = s.bwAcc := rfl
@[simp] theorem completeNormally_bwCnt (s : State) : (completeNormally s).bwCnt = s.bwCnt := rfl
@[simp] theorem completeNormally_brOpen (s : State) : (completeNormally s).brOpen = s.brOpen := rfl
@[simp] theorem completeNormally_brBase (s : State) : (completeNormally s).brBase = s.brBase := rfl
@[simp] theorem completeNormally_brPos (s : State) : (completeNormally s).brPos = s.brPos := rfl
@[simp] theorem completeNormally_brValid (s : State) : (completeNormally s).brValid = s.brValid := rfl
@[simp] theorem completeNormally_ibuf (s : State) : (completeNormally s).ibuf = s.ibuf := rfl
@[simp] theorem completeNormally_obuf (s : State) : (completeNormally s).obuf = s.obuf := rfl
@[simp] theorem completeNormally_cfg (s : State) : (completeNormally s).cfg = s.cfg := rfl
@[simp] theorem completeNormally_inputs (s : State) : (completeNormally s).inputs = s.inputs := rfl
@[simp] theorem completeNormally_answer (s : State) : (completeNormally s).answer = s.answer := rfl
@[simp] theorem completeNormally_draws (s : State) : (completeNormally s).draws = s.draws := rfl
@[simp] theorem completeNormally_resets (s : State) : (completeNormally s).resets = s.resets := rfl

@[simp] theorem takeError_busy (w : Bool) (e : Err) (info : Word) (s : State) : (takeError w e info s).busy = false := rfl
@[simp] theorem takeError_cmdReg (w : Bool) (e : Err) (info : Word) (s : State) : (takeError w e info s).cmdReg = s.cmdReg := rfl
@[simp] theorem takeError_done (w : Bool) (e : Err) (info : Word) (s : State) : (takeError w e info s).done = true := rfl
@[simp] theorem takeError_err (w : Bool) (e : Err) (info : Word) (s : State) : (takeError w e info s).err = true := rfl
@[simp] theorem takeError_fatal (w : Bool) (e : Err) (info : Word) (s : State) : (takeError w e info s).fatal = s.fatal := rfl
@[simp] theorem takeError_hostviol (w : Bool) (e : Err) (info : Word) (s : State) : (takeError w e info s).hostviol = s.hostviol := rfl
@[simp] theorem takeError_hostviolAtAccept (w : Bool) (e : Err) (info : Word) (s : State) : (takeError w e info s).hostviolAtAccept = s.hostviolAtAccept := rfl
@[simp] theorem takeError_errcode (w : Bool) (e : Err) (info : Word) (s : State) : (takeError w e info s).errcode = e.code := rfl
@[simp] theorem takeError_errinfo (w : Bool) (e : Err) (info : Word) (s : State) : (takeError w e info s).errinfo = info := rfl
@[simp] theorem takeError_ieDone (w : Bool) (e : Err) (info : Word) (s : State) : (takeError w e info s).ieDone = s.ieDone := rfl
@[simp] theorem takeError_ieErr (w : Bool) (e : Err) (info : Word) (s : State) : (takeError w e info s).ieErr = s.ieErr := rfl
@[simp] theorem takeError_inLen (w : Bool) (e : Err) (info : Word) (s : State) : (takeError w e info s).inLen = s.inLen := rfl
@[simp] theorem takeError_outLen (w : Bool) (e : Err) (info : Word) (s : State) : (takeError w e info s).outLen = (if w then 0 else s.outLen) := rfl
@[simp] theorem takeError_arg0 (w : Bool) (e : Err) (info : Word) (s : State) : (takeError w e info s).arg0 = s.arg0 := rfl
@[simp] theorem takeError_arg1 (w : Bool) (e : Err) (info : Word) (s : State) : (takeError w e info s).arg1 = s.arg1 := rfl
@[simp] theorem takeError_res0 (w : Bool) (e : Err) (info : Word) (s : State) : (takeError w e info s).res0 = s.res0 := rfl
@[simp] theorem takeError_res1 (w : Bool) (e : Err) (info : Word) (s : State) : (takeError w e info s).res1 = s.res1 := rfl
@[simp] theorem takeError_ft (w : Bool) (e : Err) (info : Word) (s : State) : (takeError w e info s).ft = s.ft := rfl
@[simp] theorem takeError_node (w : Bool) (e : Err) (info : Word) (s : State) : (takeError w e info s).node = s.node := rfl
@[simp] theorem takeError_nnodes (w : Bool) (e : Err) (info : Word) (s : State) : (takeError w e info s).nnodes = s.nnodes := rfl
@[simp] theorem takeError_root (w : Bool) (e : Err) (info : Word) (s : State) : (takeError w e info s).root = s.root := rfl
@[simp] theorem takeError_treeValid (w : Bool) (e : Err) (info : Word) (s : State) : (takeError w e info s).treeValid = s.treeValid := rfl
@[simp] theorem takeError_treeKind (w : Bool) (e : Err) (info : Word) (s : State) : (takeError w e info s).treeKind = s.treeKind := rfl
@[simp] theorem takeError_ct (w : Bool) (e : Err) (info : Word) (s : State) : (takeError w e info s).ct = s.ct := rfl
@[simp] theorem takeError_ctValid (w : Bool) (e : Err) (info : Word) (s : State) : (takeError w e info s).ctValid = s.ctValid := rfl
@[simp] theorem takeError_bwOpen (w : Bool) (e : Err) (info : Word) (s : State) : (takeError w e info s).bwOpen = s.bwOpen := rfl
@[simp] theorem takeError_bwPos (w : Bool) (e : Err) (info : Word) (s : State) : (takeError w e info s).bwPos = s.bwPos := rfl
@[simp] theorem takeError_bwAcc (w : Bool) (e : Err) (info : Word) (s : State) : (takeError w e info s).bwAcc = s.bwAcc := rfl
@[simp] theorem takeError_bwCnt (w : Bool) (e : Err) (info : Word) (s : State) : (takeError w e info s).bwCnt = s.bwCnt := rfl
@[simp] theorem takeError_brOpen (w : Bool) (e : Err) (info : Word) (s : State) : (takeError w e info s).brOpen = s.brOpen := rfl
@[simp] theorem takeError_brBase (w : Bool) (e : Err) (info : Word) (s : State) : (takeError w e info s).brBase = s.brBase := rfl
@[simp] theorem takeError_brPos (w : Bool) (e : Err) (info : Word) (s : State) : (takeError w e info s).brPos = s.brPos := rfl
@[simp] theorem takeError_brValid (w : Bool) (e : Err) (info : Word) (s : State) : (takeError w e info s).brValid = s.brValid := rfl
@[simp] theorem takeError_ibuf (w : Bool) (e : Err) (info : Word) (s : State) : (takeError w e info s).ibuf = s.ibuf := rfl
@[simp] theorem takeError_obuf (w : Bool) (e : Err) (info : Word) (s : State) : (takeError w e info s).obuf = s.obuf := rfl
@[simp] theorem takeError_cfg (w : Bool) (e : Err) (info : Word) (s : State) : (takeError w e info s).cfg = s.cfg := rfl
@[simp] theorem takeError_inputs (w : Bool) (e : Err) (info : Word) (s : State) : (takeError w e info s).inputs = s.inputs := rfl
@[simp] theorem takeError_answer (w : Bool) (e : Err) (info : Word) (s : State) : (takeError w e info s).answer = s.answer := rfl
@[simp] theorem takeError_draws (w : Bool) (e : Err) (info : Word) (s : State) : (takeError w e info s).draws = s.draws := rfl
@[simp] theorem takeError_resets (w : Bool) (e : Err) (info : Word) (s : State) : (takeError w e info s).resets = s.resets := rfl

@[simp] theorem takeFatal_busy (info : Word) (s : State) : (takeFatal info s).busy = false := rfl
@[simp] theorem takeFatal_cmdReg (info : Word) (s : State) : (takeFatal info s).cmdReg = s.cmdReg := rfl
@[simp] theorem takeFatal_done (info : Word) (s : State) : (takeFatal info s).done = true := rfl
@[simp] theorem takeFatal_err (info : Word) (s : State) : (takeFatal info s).err = true := rfl
@[simp] theorem takeFatal_fatal (info : Word) (s : State) : (takeFatal info s).fatal = true := rfl
@[simp] theorem takeFatal_hostviol (info : Word) (s : State) : (takeFatal info s).hostviol = s.hostviol := rfl
@[simp] theorem takeFatal_hostviolAtAccept (info : Word) (s : State) : (takeFatal info s).hostviolAtAccept = s.hostviolAtAccept := rfl
@[simp] theorem takeFatal_errcode (info : Word) (s : State) : (takeFatal info s).errcode = 0x04 := rfl
@[simp] theorem takeFatal_errinfo (info : Word) (s : State) : (takeFatal info s).errinfo = info := rfl
@[simp] theorem takeFatal_ieDone (info : Word) (s : State) : (takeFatal info s).ieDone = s.ieDone := rfl
@[simp] theorem takeFatal_ieErr (info : Word) (s : State) : (takeFatal info s).ieErr = s.ieErr := rfl
@[simp] theorem takeFatal_inLen (info : Word) (s : State) : (takeFatal info s).inLen = s.inLen := rfl
@[simp] theorem takeFatal_outLen (info : Word) (s : State) : (takeFatal info s).outLen = 0 := rfl
@[simp] theorem takeFatal_arg0 (info : Word) (s : State) : (takeFatal info s).arg0 = s.arg0 := rfl
@[simp] theorem takeFatal_arg1 (info : Word) (s : State) : (takeFatal info s).arg1 = s.arg1 := rfl
@[simp] theorem takeFatal_res0 (info : Word) (s : State) : (takeFatal info s).res0 = s.res0 := rfl
@[simp] theorem takeFatal_res1 (info : Word) (s : State) : (takeFatal info s).res1 = s.res1 := rfl
@[simp] theorem takeFatal_ft (info : Word) (s : State) : (takeFatal info s).ft = s.ft := rfl
@[simp] theorem takeFatal_node (info : Word) (s : State) : (takeFatal info s).node = s.node := rfl
@[simp] theorem takeFatal_nnodes (info : Word) (s : State) : (takeFatal info s).nnodes = s.nnodes := rfl
@[simp] theorem takeFatal_root (info : Word) (s : State) : (takeFatal info s).root = s.root := rfl
@[simp] theorem takeFatal_treeValid (info : Word) (s : State) : (takeFatal info s).treeValid = s.treeValid := rfl
@[simp] theorem takeFatal_treeKind (info : Word) (s : State) : (takeFatal info s).treeKind = s.treeKind := rfl
@[simp] theorem takeFatal_ct (info : Word) (s : State) : (takeFatal info s).ct = s.ct := rfl
@[simp] theorem takeFatal_ctValid (info : Word) (s : State) : (takeFatal info s).ctValid = s.ctValid := rfl
@[simp] theorem takeFatal_bwOpen (info : Word) (s : State) : (takeFatal info s).bwOpen = s.bwOpen := rfl
@[simp] theorem takeFatal_bwPos (info : Word) (s : State) : (takeFatal info s).bwPos = s.bwPos := rfl
@[simp] theorem takeFatal_bwAcc (info : Word) (s : State) : (takeFatal info s).bwAcc = s.bwAcc := rfl
@[simp] theorem takeFatal_bwCnt (info : Word) (s : State) : (takeFatal info s).bwCnt = s.bwCnt := rfl
@[simp] theorem takeFatal_brOpen (info : Word) (s : State) : (takeFatal info s).brOpen = s.brOpen := rfl
@[simp] theorem takeFatal_brBase (info : Word) (s : State) : (takeFatal info s).brBase = s.brBase := rfl
@[simp] theorem takeFatal_brPos (info : Word) (s : State) : (takeFatal info s).brPos = s.brPos := rfl
@[simp] theorem takeFatal_brValid (info : Word) (s : State) : (takeFatal info s).brValid = s.brValid := rfl
@[simp] theorem takeFatal_ibuf (info : Word) (s : State) : (takeFatal info s).ibuf = s.ibuf := rfl
@[simp] theorem takeFatal_obuf (info : Word) (s : State) : (takeFatal info s).obuf = s.obuf := rfl
@[simp] theorem takeFatal_cfg (info : Word) (s : State) : (takeFatal info s).cfg = s.cfg := rfl
@[simp] theorem takeFatal_inputs (info : Word) (s : State) : (takeFatal info s).inputs = s.inputs := rfl
@[simp] theorem takeFatal_answer (info : Word) (s : State) : (takeFatal info s).answer = s.answer := rfl
@[simp] theorem takeFatal_draws (info : Word) (s : State) : (takeFatal info s).draws = s.draws := rfl
@[simp] theorem takeFatal_resets (info : Word) (s : State) : (takeFatal info s).resets = s.resets := rfl

@[simp] theorem acceptWord_busy (w : Word) (s : State) : (acceptWord w s).busy = true := rfl
@[simp] theorem acceptWord_cmdReg (w : Word) (s : State) : (acceptWord w s).cmdReg = w := rfl
@[simp] theorem acceptWord_done (w : Word) (s : State) : (acceptWord w s).done = false := rfl
@[simp] theorem acceptWord_err (w : Word) (s : State) : (acceptWord w s).err = false := rfl
@[simp] theorem acceptWord_fatal (w : Word) (s : State) : (acceptWord w s).fatal = s.fatal := rfl
@[simp] theorem acceptWord_hostviol (w : Word) (s : State) : (acceptWord w s).hostviol = s.hostviol := rfl
@[simp] theorem acceptWord_hostviolAtAccept (w : Word) (s : State) : (acceptWord w s).hostviolAtAccept = s.hostviol := rfl
@[simp] theorem acceptWord_errcode (w : Word) (s : State) : (acceptWord w s).errcode = 0 := rfl
@[simp] theorem acceptWord_errinfo (w : Word) (s : State) : (acceptWord w s).errinfo = 0 := rfl
@[simp] theorem acceptWord_ieDone (w : Word) (s : State) : (acceptWord w s).ieDone = s.ieDone := rfl
@[simp] theorem acceptWord_ieErr (w : Word) (s : State) : (acceptWord w s).ieErr = s.ieErr := rfl
@[simp] theorem acceptWord_inLen (w : Word) (s : State) : (acceptWord w s).inLen = s.inLen := rfl
@[simp] theorem acceptWord_outLen (w : Word) (s : State) : (acceptWord w s).outLen = s.outLen := rfl
@[simp] theorem acceptWord_arg0 (w : Word) (s : State) : (acceptWord w s).arg0 = s.arg0 := rfl
@[simp] theorem acceptWord_arg1 (w : Word) (s : State) : (acceptWord w s).arg1 = s.arg1 := rfl
@[simp] theorem acceptWord_res0 (w : Word) (s : State) : (acceptWord w s).res0 = s.res0 := rfl
@[simp] theorem acceptWord_res1 (w : Word) (s : State) : (acceptWord w s).res1 = s.res1 := rfl
@[simp] theorem acceptWord_ft (w : Word) (s : State) : (acceptWord w s).ft = s.ft := rfl
@[simp] theorem acceptWord_node (w : Word) (s : State) : (acceptWord w s).node = s.node := rfl
@[simp] theorem acceptWord_nnodes (w : Word) (s : State) : (acceptWord w s).nnodes = s.nnodes := rfl
@[simp] theorem acceptWord_root (w : Word) (s : State) : (acceptWord w s).root = s.root := rfl
@[simp] theorem acceptWord_treeValid (w : Word) (s : State) : (acceptWord w s).treeValid = s.treeValid := rfl
@[simp] theorem acceptWord_treeKind (w : Word) (s : State) : (acceptWord w s).treeKind = s.treeKind := rfl
@[simp] theorem acceptWord_ct (w : Word) (s : State) : (acceptWord w s).ct = s.ct := rfl
@[simp] theorem acceptWord_ctValid (w : Word) (s : State) : (acceptWord w s).ctValid = s.ctValid := rfl
@[simp] theorem acceptWord_bwOpen (w : Word) (s : State) : (acceptWord w s).bwOpen = s.bwOpen := rfl
@[simp] theorem acceptWord_bwPos (w : Word) (s : State) : (acceptWord w s).bwPos = s.bwPos := rfl
@[simp] theorem acceptWord_bwAcc (w : Word) (s : State) : (acceptWord w s).bwAcc = s.bwAcc := rfl
@[simp] theorem acceptWord_bwCnt (w : Word) (s : State) : (acceptWord w s).bwCnt = s.bwCnt := rfl
@[simp] theorem acceptWord_brOpen (w : Word) (s : State) : (acceptWord w s).brOpen = s.brOpen := rfl
@[simp] theorem acceptWord_brBase (w : Word) (s : State) : (acceptWord w s).brBase = s.brBase := rfl
@[simp] theorem acceptWord_brPos (w : Word) (s : State) : (acceptWord w s).brPos = s.brPos := rfl
@[simp] theorem acceptWord_brValid (w : Word) (s : State) : (acceptWord w s).brValid = s.brValid := rfl
@[simp] theorem acceptWord_ibuf (w : Word) (s : State) : (acceptWord w s).ibuf = s.ibuf := rfl
@[simp] theorem acceptWord_obuf (w : Word) (s : State) : (acceptWord w s).obuf = s.obuf := rfl
@[simp] theorem acceptWord_cfg (w : Word) (s : State) : (acceptWord w s).cfg = s.cfg := rfl
@[simp] theorem acceptWord_inputs (w : Word) (s : State) : (acceptWord w s).inputs = s.inputs := rfl
@[simp] theorem acceptWord_answer (w : Word) (s : State) : (acceptWord w s).answer = s.answer := rfl
@[simp] theorem acceptWord_draws (w : Word) (s : State) : (acceptWord w s).draws = s.draws := rfl
@[simp] theorem acceptWord_resets (w : Word) (s : State) : (acceptWord w s).resets = s.resets := rfl

@[simp] theorem writeFt_busy (s : State) (t : FreqTable) : (s.writeFt t).busy = s.busy := rfl
@[simp] theorem writeFt_cmdReg (s : State) (t : FreqTable) : (s.writeFt t).cmdReg = s.cmdReg := rfl
@[simp] theorem writeFt_done (s : State) (t : FreqTable) : (s.writeFt t).done = s.done := rfl
@[simp] theorem writeFt_err (s : State) (t : FreqTable) : (s.writeFt t).err = s.err := rfl
@[simp] theorem writeFt_fatal (s : State) (t : FreqTable) : (s.writeFt t).fatal = s.fatal := rfl
@[simp] theorem writeFt_hostviol (s : State) (t : FreqTable) : (s.writeFt t).hostviol = s.hostviol := rfl
@[simp] theorem writeFt_hostviolAtAccept (s : State) (t : FreqTable) : (s.writeFt t).hostviolAtAccept = s.hostviolAtAccept := rfl
@[simp] theorem writeFt_errcode (s : State) (t : FreqTable) : (s.writeFt t).errcode = s.errcode := rfl
@[simp] theorem writeFt_errinfo (s : State) (t : FreqTable) : (s.writeFt t).errinfo = s.errinfo := rfl
@[simp] theorem writeFt_ieDone (s : State) (t : FreqTable) : (s.writeFt t).ieDone = s.ieDone := rfl
@[simp] theorem writeFt_ieErr (s : State) (t : FreqTable) : (s.writeFt t).ieErr = s.ieErr := rfl
@[simp] theorem writeFt_inLen (s : State) (t : FreqTable) : (s.writeFt t).inLen = s.inLen := rfl
@[simp] theorem writeFt_outLen (s : State) (t : FreqTable) : (s.writeFt t).outLen = s.outLen := rfl
@[simp] theorem writeFt_arg0 (s : State) (t : FreqTable) : (s.writeFt t).arg0 = s.arg0 := rfl
@[simp] theorem writeFt_arg1 (s : State) (t : FreqTable) : (s.writeFt t).arg1 = s.arg1 := rfl
@[simp] theorem writeFt_res0 (s : State) (t : FreqTable) : (s.writeFt t).res0 = s.res0 := rfl
@[simp] theorem writeFt_res1 (s : State) (t : FreqTable) : (s.writeFt t).res1 = s.res1 := rfl
@[simp] theorem writeFt_ft (s : State) (t : FreqTable) : (s.writeFt t).ft = t := rfl
@[simp] theorem writeFt_node (s : State) (t : FreqTable) : (s.writeFt t).node = s.node := rfl
@[simp] theorem writeFt_nnodes (s : State) (t : FreqTable) : (s.writeFt t).nnodes = s.nnodes := rfl
@[simp] theorem writeFt_root (s : State) (t : FreqTable) : (s.writeFt t).root = s.root := rfl
@[simp] theorem writeFt_treeValid (s : State) (t : FreqTable) : (s.writeFt t).treeValid = false := rfl
@[simp] theorem writeFt_treeKind (s : State) (t : FreqTable) : (s.writeFt t).treeKind = s.treeKind := rfl
@[simp] theorem writeFt_ct (s : State) (t : FreqTable) : (s.writeFt t).ct = s.ct := rfl
@[simp] theorem writeFt_ctValid (s : State) (t : FreqTable) : (s.writeFt t).ctValid = false := rfl
@[simp] theorem writeFt_bwOpen (s : State) (t : FreqTable) : (s.writeFt t).bwOpen = s.bwOpen := rfl
@[simp] theorem writeFt_bwPos (s : State) (t : FreqTable) : (s.writeFt t).bwPos = s.bwPos := rfl
@[simp] theorem writeFt_bwAcc (s : State) (t : FreqTable) : (s.writeFt t).bwAcc = s.bwAcc := rfl
@[simp] theorem writeFt_bwCnt (s : State) (t : FreqTable) : (s.writeFt t).bwCnt = s.bwCnt := rfl
@[simp] theorem writeFt_brOpen (s : State) (t : FreqTable) : (s.writeFt t).brOpen = s.brOpen := rfl
@[simp] theorem writeFt_brBase (s : State) (t : FreqTable) : (s.writeFt t).brBase = s.brBase := rfl
@[simp] theorem writeFt_brPos (s : State) (t : FreqTable) : (s.writeFt t).brPos = s.brPos := rfl
@[simp] theorem writeFt_brValid (s : State) (t : FreqTable) : (s.writeFt t).brValid = s.brValid := rfl
@[simp] theorem writeFt_ibuf (s : State) (t : FreqTable) : (s.writeFt t).ibuf = s.ibuf := rfl
@[simp] theorem writeFt_obuf (s : State) (t : FreqTable) : (s.writeFt t).obuf = s.obuf := rfl
@[simp] theorem writeFt_cfg (s : State) (t : FreqTable) : (s.writeFt t).cfg = s.cfg := rfl
@[simp] theorem writeFt_inputs (s : State) (t : FreqTable) : (s.writeFt t).inputs = s.inputs := rfl
@[simp] theorem writeFt_answer (s : State) (t : FreqTable) : (s.writeFt t).answer = s.answer := rfl
@[simp] theorem writeFt_draws (s : State) (t : FreqTable) : (s.writeFt t).draws = s.draws := rfl
@[simp] theorem writeFt_resets (s : State) (t : FreqTable) : (s.writeFt t).resets = s.resets := rfl

@[simp] theorem ctxClear_busy (s : State) : (ctxClear s).busy = s.busy := rfl
@[simp] theorem ctxClear_cmdReg (s : State) : (ctxClear s).cmdReg = s.cmdReg := rfl
@[simp] theorem ctxClear_done (s : State) : (ctxClear s).done = s.done := rfl
@[simp] theorem ctxClear_err (s : State) : (ctxClear s).err = s.err := rfl
@[simp] theorem ctxClear_fatal (s : State) : (ctxClear s).fatal = s.fatal := rfl
@[simp] theorem ctxClear_hostviol (s : State) : (ctxClear s).hostviol = s.hostviol := rfl
@[simp] theorem ctxClear_hostviolAtAccept (s : State) : (ctxClear s).hostviolAtAccept = s.hostviolAtAccept := rfl
@[simp] theorem ctxClear_errcode (s : State) : (ctxClear s).errcode = s.errcode := rfl
@[simp] theorem ctxClear_errinfo (s : State) : (ctxClear s).errinfo = s.errinfo := rfl
@[simp] theorem ctxClear_ieDone (s : State) : (ctxClear s).ieDone = s.ieDone := rfl
@[simp] theorem ctxClear_ieErr (s : State) : (ctxClear s).ieErr = s.ieErr := rfl
@[simp] theorem ctxClear_inLen (s : State) : (ctxClear s).inLen = s.inLen := rfl
@[simp] theorem ctxClear_outLen (s : State) : (ctxClear s).outLen = 0 := rfl
@[simp] theorem ctxClear_arg0 (s : State) : (ctxClear s).arg0 = s.arg0 := rfl
@[simp] theorem ctxClear_arg1 (s : State) : (ctxClear s).arg1 = s.arg1 := rfl
@[simp] theorem ctxClear_res0 (s : State) : (ctxClear s).res0 = 0 := rfl
@[simp] theorem ctxClear_res1 (s : State) : (ctxClear s).res1 = 0 := rfl
@[simp] theorem ctxClear_ft (s : State) : (ctxClear s).ft = FreqTable.empty := rfl
@[simp] theorem ctxClear_node (s : State) : (ctxClear s).node = NodeMemory.clear := rfl
@[simp] theorem ctxClear_nnodes (s : State) : (ctxClear s).nnodes = 0 := rfl
@[simp] theorem ctxClear_root (s : State) : (ctxClear s).root = NIL := rfl
@[simp] theorem ctxClear_treeValid (s : State) : (ctxClear s).treeValid = false := rfl
@[simp] theorem ctxClear_treeKind (s : State) : (ctxClear s).treeKind = .none := rfl
@[simp] theorem ctxClear_ct (s : State) : (ctxClear s).ct = CodeTable.empty := rfl
@[simp] theorem ctxClear_ctValid (s : State) : (ctxClear s).ctValid = false := rfl
@[simp] theorem ctxClear_bwOpen (s : State) : (ctxClear s).bwOpen = false := rfl
@[simp] theorem ctxClear_bwPos (s : State) : (ctxClear s).bwPos = 0 := rfl
@[simp] theorem ctxClear_bwAcc (s : State) : (ctxClear s).bwAcc = 0 := rfl
@[simp] theorem ctxClear_bwCnt (s : State) : (ctxClear s).bwCnt = 0 := rfl
@[simp] theorem ctxClear_brOpen (s : State) : (ctxClear s).brOpen = false := rfl
@[simp] theorem ctxClear_brBase (s : State) : (ctxClear s).brBase = 0 := rfl
@[simp] theorem ctxClear_brPos (s : State) : (ctxClear s).brPos = 0 := rfl
@[simp] theorem ctxClear_brValid (s : State) : (ctxClear s).brValid = 0 := rfl
@[simp] theorem ctxClear_ibuf (s : State) : (ctxClear s).ibuf = s.ibuf := rfl
@[simp] theorem ctxClear_obuf (s : State) : (ctxClear s).obuf = s.obuf := rfl
@[simp] theorem ctxClear_cfg (s : State) : (ctxClear s).cfg = s.cfg := rfl
@[simp] theorem ctxClear_inputs (s : State) : (ctxClear s).inputs = s.inputs := rfl
@[simp] theorem ctxClear_answer (s : State) : (ctxClear s).answer = s.answer := rfl
@[simp] theorem ctxClear_draws (s : State) : (ctxClear s).draws = s.draws := rfl
@[simp] theorem ctxClear_resets (s : State) : (ctxClear s).resets = s.resets := rfl

/-! ### The bit HOSTVIOL of STATUS (rule R49) -/

theorem hostviolShown_idle {s : State} (h : s.busy = false) : hostviolShown s = s.hostviol := by simp [hostviolShown, h]
theorem hostviolShown_busy {s : State} (h : s.busy = true) : hostviolShown s = s.hostviolAtAccept := by simp [hostviolShown, h]
@[simp] theorem hostviolShown_acceptWord (w : Word) (s : State) : hostviolShown (acceptWord w s) = s.hostviol := rfl

/-- What a violation changes (rule R47): `hostviol`, the answer and the counter of draws. -/
theorem violate_only (a : Access) (s : State) :
    violate a s = { s with hostviol := true, answer := (violate a s).answer, draws := (violate a s).draws } := by
  cases a <;> rfl

end Sys2Proof.Machine
end

