-- ==== Sys2Proof/Laws/Invariant.lean ====
section
/-! SUPPORT. The tree and code-table invariants read the frequency table, node memory, the tree's registers and the code table only:
a state with the same ones has them. -/

namespace Sys2Proof.Machine

/-- The tree invariant (rule R30) moves to any state with the same table and tree. -/
theorem State.TreeInv.congr {s t : State} (h : s.TreeInv) (hft : t.ft = s.ft) (hnode : t.node = s.node)
    (hn : t.nnodes = s.nnodes) (hroot : t.root = s.root) (hkind : t.treeKind = s.treeKind) : t.TreeInv := by
  have hrec : t.recAt = s.recAt := by funext i; unfold State.recAt; rw [hnode]
  have hpar : t.parents = s.parents := by funext k c; unfold State.parents; rw [hrec]
  have hint : t.internalOk = s.internalOk := by funext k i; unfold State.internalOk; rw [hrec]
  exact {
    kind := by rw [hkind, hft]; exact h.kind
    count := by rw [hn, hft]; exact h.count
    root := by rw [hroot, hft]; exact h.root
    leafAt := by rw [hrec, hft]; exact h.leafAt
    internalAt := by rw [hint, hft]; exact h.internalAt
    oneParent := by rw [hpar, hft]; exact h.oneParent
    rootWeight := by rw [hrec, hroot, hft]; exact h.rootWeight }

/-- The code-table invariant (rule R31) moves to any state with the same table, tree and codes. -/
theorem State.CodeInv.congr {s t : State} (h : s.CodeInv) (hft : t.ft = s.ft) (hnode : t.node = s.node)
    (hroot : t.root = s.root) (hkind : t.treeKind = s.treeKind) (hct : t.ct = s.ct) : t.CodeInv where
  notRetained := by rw [hft, hct]; exact h.notRetained
  single := by rw [hkind, hft, hct]; exact h.single
  multi := by rw [hkind, hft, hct, hnode, hroot]; exact h.multi

end Sys2Proof.Machine
end

