-- ==== Sys2Proof/Laws/Memory.lean ====
section
/-! SUPPORT. The laws of the byte buffers and of the three tables: reading after writing, the canonical form, and what a table
lookup gives after a write (spec/10_state.md rules R21, R22, R25, R28). -/

namespace Sys2Proof.Machine

/-! ### Buffers -/

/-- Every offset listed in `m` is above `a`. -/
def Memory.above (a : Nat) (m : Memory) : Prop := ∀ c ∈ m, a < c.1

theorem Memory.wf_cons (a : Nat) (v : Byte) (m : Memory) :
    Memory.wf ((a, v) :: m) = true ↔ Memory.above a m ∧ Memory.wf m = true := by
  induction m generalizing a v with
  | nil => simp [Memory.wf, Memory.above]
  | cons c m ih =>
    obtain ⟨b, w⟩ := c
    simp only [Memory.wf, Bool.and_eq_true, decide_eq_true_eq, ih b w, Memory.above, List.mem_cons, forall_eq_or_imp]
    constructor
    · rintro ⟨hab, hb, hm⟩
      exact ⟨⟨hab, fun c hc => Nat.lt_trans hab (hb c hc)⟩, hb, hm⟩
    · rintro ⟨⟨hab, _⟩, hb, hm⟩
      exact ⟨hab, hb, hm⟩

theorem Memory.lookup_above {a : Nat} {m : Memory} (h : Memory.above a m) : m.lookup a = none := by
  induction m with
  | nil => rfl
  | cons c m ih =>
    obtain ⟨b, w⟩ := c
    have hb : a < b := h (b, w) (by simp)
    have hm : Memory.above a m := fun c hc => h c (by simp [hc])
    simp [Memory.lookup, Nat.ne_of_lt hb, ih hm]

/-- A read after a write: the byte written at its offset, every other offset as before. -/
theorem Memory.lookup_write (m : Memory) (a b : Nat) (v : Byte) :
    (m.write a v).lookup b = if b = a then some v else m.lookup b := by
  induction m with
  | nil => simp [Memory.write, Memory.lookup]
  | cons c m ih =>
    obtain ⟨d, w⟩ := c
    simp only [Memory.write]
    split
    · simp [Memory.lookup]
    · split
      · rename_i h; subst h; by_cases hb : b = a <;> simp [Memory.lookup, hb]
      · rename_i h1 h2
        simp only [Memory.lookup, ih]
        by_cases hb : b = a
        · subst hb; simp [h2]
        · by_cases hd : b = d <;> simp [hb, hd]
          intro h; exact absurd h.symm h2

@[simp] theorem Memory.lookup_write_same (m : Memory) (a : Nat) (v : Byte) : (m.write a v).lookup a = some v := by
  simp [Memory.lookup_write]

theorem Memory.lookup_write_ne (m : Memory) {a b : Nat} (v : Byte) (h : b ≠ a) : (m.write a v).lookup b = m.lookup b := by
  simp [Memory.lookup_write, h]

theorem Memory.above_write {b a : Nat} {m : Memory} (v : Byte) (hb : b < a) (h : Memory.above b m) :
    Memory.above b (m.write a v) := by
  induction m with
  | nil => simpa [Memory.write, Memory.above] using hb
  | cons c m ih =>
    obtain ⟨d, w⟩ := c
    have hd : b < d := h (d, w) (by simp)
    have hm : Memory.above b m := fun c hc => h c (by simp [hc])
    simp only [Memory.write]
    split
    · intro c hc
      simp only [List.mem_cons] at hc
      rcases hc with rfl | rfl | hc
      · exact hb
      · exact hd
      · exact hm c hc
    · split
      · intro c hc
        simp only [List.mem_cons] at hc
        rcases hc with rfl | hc
        · exact hb
        · exact hm c hc
      · intro c hc
        simp only [List.mem_cons] at hc
        rcases hc with rfl | hc
        · exact hd
        · exact ih hm c hc

/-- A write keeps the canonical form. -/
theorem Memory.wf_write {m : Memory} (a : Nat) (v : Byte) (h : m.wf = true) : (m.write a v).wf = true := by
  induction m with
  | nil => rfl
  | cons c m ih =>
    obtain ⟨d, w⟩ := c
    obtain ⟨hd, hm⟩ := (Memory.wf_cons d w m).1 h
    simp only [Memory.write]
    split
    · rename_i had
      refine (Memory.wf_cons _ _ _).2 ⟨?_, h⟩
      intro c hc
      simp only [List.mem_cons] at hc
      rcases hc with rfl | hc
      · exact had
      · exact Nat.lt_trans had (hd c hc)
    · split
      · rename_i h2; subst h2; exact (Memory.wf_cons _ _ _).2 ⟨hd, hm⟩
      · exact (Memory.wf_cons _ _ _).2 ⟨Memory.above_write v (by omega) hd, ih hm⟩

/-- A write below the buffer's size stays inside it. -/
theorem Memory.within_write {m : Memory} {size a : Nat} (v : Byte) (ha : a < size) (h : m.within size = true) :
    (m.write a v).within size = true := by
  induction m with
  | nil => simpa [Memory.write, Memory.within] using ha
  | cons c m ih =>
    obtain ⟨d, w⟩ := c
    simp only [Memory.within, List.all_cons, Bool.and_eq_true, decide_eq_true_eq] at h
    simp only [Memory.write]
    split
    · simp [Memory.within, ha, h.1]; simpa [Memory.within] using h.2
    · split
      · simp [Memory.within, ha]; simpa [Memory.within] using h.2
      · have := ih h.2
        simp only [Memory.within, List.all_cons, Bool.and_eq_true, decide_eq_true_eq]
        exact ⟨h.1, this⟩

/-- Reading after `writeBytes`: the bytes at their offsets, every other offset as before. -/
theorem Memory.lookup_writeBytes (m : Memory) (a : Nat) (vs : List Byte) (b : Nat) :
    (m.writeBytes a vs).lookup b = if a ≤ b ∧ b < a + vs.length then vs[b - a]? else m.lookup b := by
  induction vs generalizing m a with
  | nil =>
    have : ¬ (a ≤ b ∧ b < a) := by omega
    simp [Memory.writeBytes, this]
  | cons v vs ih =>
    simp only [Memory.writeBytes, ih, Memory.lookup_write, List.length_cons]
    by_cases hb : b = a
    · subst hb; simp
    · by_cases h1 : a + 1 ≤ b ∧ b < a + 1 + vs.length
      · have h2 : a ≤ b ∧ b < a + (vs.length + 1) := by omega
        have h3 : b - a = (b - (a + 1)) + 1 := by omega
        simp [h1, h2, h3]
      · have h2 : ¬ (a ≤ b ∧ b < a + (vs.length + 1)) := by omega
        rw [if_neg h1, if_neg h2, if_neg hb]

theorem Memory.wf_writeBytes {m : Memory} (a : Nat) (vs : List Byte) (h : m.wf = true) :
    (m.writeBytes a vs).wf = true := by
  induction vs generalizing m a with
  | nil => exact h
  | cons v vs ih => exact ih (a + 1) (Memory.wf_write a v h)

theorem Memory.within_writeBytes {m : Memory} {size : Nat} (a : Nat) (vs : List Byte) (ha : a + vs.length ≤ size)
    (h : m.within size = true) : (m.writeBytes a vs).within size = true := by
  induction vs generalizing m a with
  | nil => exact h
  | cons v vs ih =>
    simp only [List.length_cons] at ha
    exact ih (a + 1) (by omega) (Memory.within_write v (by omega) h)

/-! ### Tables -/

@[simp] theorem FreqTable.at_put (ft : FreqTable) (s t : Byte) (v : Word) :
    (ft.put s v).at t = if t = s then v else ft.at t := by
  simp only [FreqTable.at, FreqTable.put]
  by_cases h : t = s
  · subst h; simp
  · have : s.toNat ≠ t.toNat := fun e => h (BitVec.eq_of_toNat_eq e.symm)
    simp [h, this]

@[simp] theorem FreqTable.at_empty (s : Byte) : FreqTable.empty.at s = 0 := by
  simp [FreqTable.at, FreqTable.empty]

@[simp] theorem CodeTable.at_put (ct : CodeTable) (s t : Byte) (c : Code) :
    (ct.put s c).at t = if t = s then c else ct.at t := by
  simp only [CodeTable.at, CodeTable.put]
  by_cases h : t = s
  · subst h; simp
  · have : s.toNat ≠ t.toNat := fun e => h (BitVec.eq_of_toNat_eq e.symm)
    simp [h, this]

@[simp] theorem CodeTable.at_empty (s : Byte) : CodeTable.empty.at s = [] := by
  simp [CodeTable.at, CodeTable.empty]

/-- Two frequency tables with the same entries are the same table. -/
theorem FreqTable.ext_at {f g : FreqTable} (h : ∀ s, f.at s = g.at s) : f = g := by
  apply Vector.ext
  intro i hi
  have := h (BitVec.ofNat 8 i)
  simpa [FreqTable.at, Nat.mod_eq_of_lt hi] using this

theorem allSyms_length : allSyms.length = 256 := by simp [allSyms]

theorem allSyms_getElem (i : Nat) (h : i < allSyms.length) : allSyms[i] = BitVec.ofNat 8 i := by
  simp [allSyms]

theorem mem_allSyms (s : Byte) : s ∈ allSyms := by
  simp only [allSyms, List.mem_map, List.mem_range]
  exact ⟨s.toNat, by have := s.isLt; omega, by simp⟩

/-- The symbols ascend. -/
theorem allSyms_ascending : allSyms.Pairwise (fun a b => a.toNat < b.toNat) := by
  rw [List.pairwise_iff_getElem]
  intro i j hi hj hij
  rw [allSyms_length] at hi hj
  simp [allSyms_getElem, Nat.mod_eq_of_lt (show i < 256 from hi), Nat.mod_eq_of_lt (show j < 256 from hj), hij]

/-- The pairs of a table are its non-zero entries (rule R21). -/
theorem mem_pairs (ft : FreqTable) (s : Byte) (f : Word) : (s, f) ∈ pairs ft ↔ ft.at s = f ∧ f ≠ 0 := by
  simp only [pairs, List.mem_filter, bne_iff_ne, ne_eq]
  refine and_congr_left fun _ => ?_
  rw [List.mem_iff_getElem]
  constructor
  · rintro ⟨i, hi, h⟩
    have hi' : i < 256 := by simpa [allSyms_length] using hi
    simp only [List.getElem_zip, allSyms_getElem, Prod.mk.injEq] at h
    obtain ⟨rfl, rfl⟩ := h
    simp [FreqTable.at, Nat.mod_eq_of_lt hi']
  · rintro rfl
    have := s.isLt
    refine ⟨s.toNat, by simp [allSyms_length]; omega, ?_⟩
    simp [List.getElem_zip, allSyms_getElem, FreqTable.at]

theorem mem_retained (ft : FreqTable) (s : Byte) : s ∈ retained ft ↔ ft.at s ≠ 0 := by
  simp only [retained, List.mem_map, Prod.exists, exists_and_right, exists_eq_right]
  constructor
  · rintro ⟨f, hf⟩; obtain ⟨rfl, h⟩ := (mem_pairs _ _ _).1 hf; exact h
  · intro h; exact ⟨_, (mem_pairs _ _ _).2 ⟨rfl, h⟩⟩

/-- The pairs ascend by symbol (rule R68). -/
theorem pairs_ascending (ft : FreqTable) : (pairs ft).Pairwise (fun a b => a.1.toNat < b.1.toNat) := by
  unfold pairs
  apply List.Pairwise.filter
  rw [List.pairwise_iff_getElem]
  intro i j hi hj hij
  have := List.pairwise_iff_getElem.1 allSyms_ascending i j (by simp at hi; omega) (by simp at hj; omega) hij
  simpa using this

/-- `nsym(ft) ≤ 256` (rule R21). -/
theorem nsym_le (ft : FreqTable) : nsym ft ≤ 256 := by
  unfold nsym pairs
  refine Nat.le_trans (List.length_filter_le _ _) ?_
  simp [allSyms_length]

/-- `total(ft) < 2^40` (rule R21). -/
theorem total_lt (ft : FreqTable) : total ft < 2 ^ 40 := by
  have key : ∀ l : List Word, (l.map BitVec.toNat).sum ≤ l.length * (2 ^ 32 - 1) := by
    intro l
    induction l with
    | nil => simp
    | cons a l ih => have := a.isLt; simp only [List.map_cons, List.sum_cons, List.length_cons]; omega
  have := key ft.toList
  simp only [Vector.length_toList] at this
  unfold total
  omega

/-- Node memory built from a list shows the list's records, then cleared ones (rule R22). -/
theorem NodeMemory.ofList_get (ns : List NodeRec) (i : Nat) (h : i < 511) :
    (NodeMemory.ofList ns)[i] = (ns[i]?).getD NodeRec.cleared := by
  simp only [NodeMemory.ofList, Vector.getElem_mk, List.getElem_toArray]
  by_cases hi : i < ns.length
  · have h1 : i < (ns.take 511).length := by simp; omega
    rw [List.getElem_append_left h1]
    simp [hi]
  · have h1 : (ns.take 511).length ≤ i := by simp; omega
    rw [List.getElem_append_right h1]
    simp [List.getElem?_eq_none (Nat.le_of_not_lt hi)]

/-- The records of a list as the window shows them (rules R22, R24). -/
theorem State.recAt_ofList {s : State} {ns : List NodeRec} (h : s.node = NodeMemory.ofList ns) (hn : ns.length ≤ 511) (i : Nat) :
    s.recAt i = ns.getD i NodeRec.cleared := by
  unfold State.recAt
  by_cases hi : i < 511
  · have : s.node[i]? = some s.node[i] := by simp [hi]
    rw [this, Option.getD_some]
    simp only [h, NodeMemory.ofList_get ns i hi, List.getD_eq_getElem?_getD]
  · have : s.node[i]? = none := by simp [hi]
    rw [this, Option.getD_none, List.getD_eq_default _ _ (by omega)]

/-- Records beyond the list are cleared (rule R22). -/
theorem NodeMemory.ofList_cleared (ns : List NodeRec) (hn : ns.length ≤ 511) :
    ∀ r ∈ (NodeMemory.ofList ns).toList.drop ns.length, r = NodeRec.cleared := by
  intro r hr
  simp only [NodeMemory.ofList, List.take_of_length_le hn] at hr
  simp at hr
  exact hr.2

end Sys2Proof.Machine
end

