-- ==== Sys2Proof/Laws/Ops.lean ====
section
/-! SUPPORT. What each shared operation can do, said once: the running of pseudocode (`Run`), `putbit` and its sequences,
`getbit`, the finalisation, the tree walk, and how a command ends. -/

namespace Sys2Proof.Machine

/-! ### Running pseudocode -/

/-- Every state a run can end in satisfies `P`. -/
def Run.all {α : Type} (P : State → Prop) : Run α → Prop
  | .val _ s => P s
  | .raise _ _ s => P s
  | .fatal _ s => P s
  | .stop _ => True

theorem Run.all_mono {α : Type} {P Q : State → Prop} (h : ∀ s, P s → Q s) {r : Run α} (hr : r.all P) : r.all Q := by
  cases r <;> first | exact h _ hr | trivial

theorem Run.all_bind {α β : Type} {P : State → Prop} {r : Run α} {k : α → State → Run β} (hr : r.all P)
    (hk : ∀ a s, P s → (k a s).all P) : (r.bind k).all P := by
  cases r with
  | val a s => exact hk a s hr
  | raise e info s => exact hr
  | fatal info s => exact hr
  | stop f => trivial

@[simp] theorem Run.bind_val {α β : Type} (a : α) (s : State) (k : α → State → Run β) : (Run.val a s).bind k = k a s := rfl

@[simp] theorem Run.bind_raise {α β : Type} (e : Err) (info : Word) (s : State) (k : α → State → Run β) :
    (Run.raise e info s : Run α).bind k = .raise e info s := rfl

/-- The value of a sequence comes from the values of its parts. -/
theorem Run.bind_eq_val {α β : Type} {r : Run α} {k : α → State → Run β} {b : β} {t : State} (h : r.bind k = .val b t) :
    ∃ a s, r = .val a s ∧ k a s = .val b t := by
  cases r with
  | val a s => exact ⟨a, s, rfl, h⟩
  | raise e info s => cases h
  | fatal info s => cases h
  | stop f => cases h

/-- A command ends in a next state in exactly three ways (rules R152, R153, R154). -/
theorem finish_next {i : Instr} {r : Run Unit} {t : State} (h : finish i r = .next t) :
    (∃ s, r = .val () s ∧ t = completeNormally s) ∨
    (∃ e info s, r = .raise e info s ∧ t = takeError (isWholeOperation i) e info s) ∨
    (∃ info s, r = .fatal info s ∧ t = takeFatal info s) := by
  cases r with
  | val a s => cases h; exact .inl ⟨s, rfl, rfl⟩
  | raise e info s => cases h; exact .inr (.inl ⟨e, info, s, rfl, rfl⟩)
  | fatal info s => cases h; exact .inr (.inr ⟨info, s, rfl, rfl⟩)
  | stop f => cases h

/-! ### The BitWriter -/

/-- `t` differs from `s` in the BitWriter's cursor, partial byte and count, and in OBUF, only. -/
def WriterOnly (s t : State) : Prop :=
  t = { s with obuf := t.obuf, bwPos := t.bwPos, bwAcc := t.bwAcc, bwCnt := t.bwCnt }

theorem WriterOnly.refl (s : State) : WriterOnly s s := rfl

theorem WriterOnly.trans {s t u : State} (h1 : WriterOnly s t) (h2 : WriterOnly t u) : WriterOnly s u := by
  unfold WriterOnly at *; rw [h2, h1]

/-- `putbit` with room for the bit and the byte not yet full (rule R106). -/
theorem putbit_partial {b : Bool} {s : State} (room : s.bwPos.toNat < s.cfg.obufSize) (h : s.bwCnt ≠ 7) :
    putbit b s = .val () { s with bwAcc := accWithBit s.bwAcc s.bwCnt b, bwCnt := s.bwCnt + 1 } := by
  have hr : ¬ (s.bwCnt = 0 ∧ s.cfg.obufSize ≤ s.bwPos.toNat) := by omega
  rw [putbit, if_neg hr, if_neg h]

/-- `putbit` with the bit that fills the byte (rule R106). -/
theorem putbit_full {b : Bool} {s : State} (room : s.bwPos.toNat < s.cfg.obufSize) (h : s.bwCnt = 7) :
    putbit b s = .val () { s with
      obuf := s.obuf.write s.bwPos.toNat (accWithBit s.bwAcc 7 b), bwPos := s.bwPos + 1, bwAcc := 0, bwCnt := 0 } := by
  simp [putbit, h, room]

/-- `putbit` with no room for the byte the bit would start (rule R106): nothing changes. -/
theorem putbit_overflow {b : Bool} {s : State} (hp : s.cfg.obufSize ≤ s.bwPos.toNat) (h : s.bwCnt = 0) :
    putbit b s = .raise .outputOverflow s.bwPos s := by
  simp [putbit, h, hp]

theorem putbit_writerOnly (b : Bool) (s : State) : (putbit b s).all (WriterOnly s) := by
  unfold putbit
  split
  · exact WriterOnly.refl s
  · split
    · split
      · exact rfl
      · trivial
    · exact rfl

theorem putbits_writerOnly (bs : List Bool) (s : State) : (putbits bs s).all (WriterOnly s) := by
  induction bs generalizing s with
  | nil => exact WriterOnly.refl s
  | cons b bs ih =>
    exact Run.all_bind (putbit_writerOnly b s) fun _ t h => Run.all_mono (fun _ => h.trans) (ih t)

theorem putSymbols_writerOnly (bs : List Byte) (s : State) : (putSymbols bs s).all (WriterOnly s) := by
  induction bs generalizing s with
  | nil => exact WriterOnly.refl s
  | cons b bs ih =>
    exact Run.all_bind (putbits_writerOnly _ s) fun _ t h => Run.all_mono (fun _ => h.trans) (ih t)

/-- Writing two sequences in a row is writing their concatenation (rules R110, R126). -/
theorem putbits_append (xs ys : List Bool) (s : State) :
    putbits (xs ++ ys) s = (putbits xs s).bind (fun _ t => putbits ys t) := by
  induction xs generalizing s with
  | nil => rfl
  | cons x xs ih =>
    simp only [List.cons_append, putbits]
    cases putbit x s with
    | val a t => exact ih t
    | raise e info t => rfl
    | fatal info t => rfl
    | stop f => rfl

/-- Finalising with no partial byte (rule R111). -/
theorem finalise_empty {s : State} (h : s.bwCnt = 0) :
    finalise s = .val 0 { s with res0 := 0, res1 := s.bwPos, outLen := s.bwPos, bwOpen := false } := by
  simp [finalise, h]

/-- What the finalisation leaves alone (rule R111). -/
theorem finalise_only (s : State) : (finalise s).all fun t =>
    t = { s with
      obuf := t.obuf, bwPos := t.bwPos, bwAcc := t.bwAcc, bwCnt := t.bwCnt, res0 := t.res0, res1 := t.res1,
      outLen := t.outLen, bwOpen := false } := by
  unfold finalise
  split
  · exact rfl
  · split
    · exact rfl
    · trivial

/-! ### The BitReader -/

/-- `t` differs from `s` in the BitReader's position only. -/
def ReaderOnly (s t : State) : Prop := t = { s with brPos := t.brPos }

theorem ReaderOnly.refl (s : State) : ReaderOnly s s := rfl

theorem ReaderOnly.trans {s t u : State} (h1 : ReaderOnly s t) (h2 : ReaderOnly t u) : ReaderOnly s u := by
  unfold ReaderOnly at *; rw [h2, h1]

/-- `getbit` inside IBUF (rule R116). -/
theorem getbit_val {s : State} (h : brOffset s < s.cfg.ibufSize) :
    getbit s = .val ((s.ibufByte (brOffset s)).getLsbD (7 - s.brPos.toNat % 8)) { s with brPos := s.brPos + 1 } := by
  simp [getbit, h]

theorem getbit_readerOnly (s : State) : (getbit s).all (ReaderOnly s) := by
  unfold getbit; split
  · exact rfl
  · trivial

theorem walkFrom_readerOnly (info : Word) (fuel : Nat) (n : NodeIdx) (s : State) :
    (walkFrom info fuel n s).all (ReaderOnly s) := by
  induction fuel generalizing n s with
  | zero =>
    unfold walkFrom
    cases s.node.at? n with
    | none => trivial
    | some r => cases h : r.kind <;> simp only [h] <;> exact ReaderOnly.refl s
  | succ fuel ih =>
    unfold walkFrom
    cases s.node.at? n with
    | none => trivial
    | some r =>
      cases h : r.kind <;> simp only [h]
      · exact ReaderOnly.refl s
      · refine Run.all_bind (getbit_readerOnly s) fun b t ht => ?_
        generalize (if b = true then r.right else r.left) = c
        by_cases hc : c = NIL
        · rw [if_pos hc]; exact ht
        · rw [if_neg hc]; exact Run.all_mono (fun _ => ht.trans) (ih c t)

theorem bitsLeft_eq_zero {s : State} : bitsLeft s = 0 ↔ s.brPos = s.brValid := by
  unfold bitsLeft
  constructor
  · intro h
    have : s.brValid - s.brPos = 0#34 := by apply BitVec.eq_of_toNat_eq; simpa using h
    have := s.brValid.isLt; have := s.brPos.isLt
    apply BitVec.eq_of_toNat_eq; bv_omega
  · intro h; simp [h]

theorem bitsLeft_succ {s : State} (h : s.brPos ≠ s.brValid) :
    bitsLeft s = bitsLeft { s with brPos := s.brPos + 1 } + 1 := by
  have : s.brPos.toNat ≠ s.brValid.toNat := fun e => h (BitVec.eq_of_toNat_eq e)
  simp only [bitsLeft]
  bv_omega

/-- The loop of `walk` line by line (rule R135): a Leaf ends it, no valid bit left raises CorruptStream, a bit selects the child, a
missing child is fatal. -/
theorem walk_step (info : Word) (n : NodeIdx) (s : State) :
    walkFrom info (bitsLeft s) n s =
      match s.node.at? n with
      | none => .stop .noSuchNode
      | some r =>
        match r.kind with
        | .leaf => .val r.sym s
        | .internal =>
          if s.brPos = s.brValid then .raise .corruptStream info s
          else
            (getbit s).bind fun b t =>
              if (if b then r.right else r.left) = NIL then .fatal (n.setWidth 32) t
              else walkFrom info (bitsLeft t) (if b then r.right else r.left) t := by
  by_cases h : s.brPos = s.brValid
  · rw [bitsLeft_eq_zero.2 h]; unfold walkFrom
    cases s.node.at? n with
    | none => rfl
    | some r => cases hk : r.kind <;> simp [hk, h]
  · rw [bitsLeft_succ h]; rw [walkFrom]
    cases s.node.at? n with
    | none => rfl
    | some r =>
      cases hk : r.kind <;> simp only [hk, h, if_false]
      by_cases hg : brOffset s < s.cfg.ibufSize
      · rw [getbit_val hg]; rfl
      · have : getbit s = .stop .ibufRange := by simp [getbit, hg]
        rw [this]; rfl

/-! ### Counting -/

/-- Counting adds to each entry the number of its symbol's occurrences (rules R80, R81), modulo 2^32. -/
theorem countBytes_at (bs : List Byte) (ft : FreqTable) (sym : Byte) :
    (countBytes bs ft).at sym = BitVec.ofNat 32 ((ft.at sym).toNat + bs.count sym) := by
  induction bs generalizing ft with
  | nil => simp [countBytes]
  | cons b bs ih =>
    have := ih (ft.put b (BitVec.ofNat 32 ((ft.at b).toNat + 1)))
    rw [show countBytes (b :: bs) ft = countBytes bs (ft.put b (BitVec.ofNat 32 ((ft.at b).toNat + 1))) from rfl, this,
      FreqTable.at_put, List.count_cons]
    by_cases h : sym = b
    · subst h
      apply BitVec.eq_of_toNat_eq
      simp only [if_true, BitVec.toNat_ofNat, beq_self_eq_true]
      omega
    · rw [if_neg h, if_neg (by simpa using fun e => h e.symm), Nat.add_zero]

/-- A table in which every symbol occurs has 256 retained symbols (rule R21). -/
theorem nsym_eq_256 {ft : FreqTable} (h : ∀ sym, ft.at sym ≠ 0) : nsym ft = 256 := by
  have : pairs ft = allSyms.zip ft.toList := by
    refine List.filter_eq_self.2 fun e he => ?_
    obtain ⟨i, hi, hv⟩ := List.getElem_of_mem (List.of_mem_zip he).2
    have hi' : i < 256 := by simpa using hi
    have := h (BitVec.ofNat 8 i)
    have h8 : (BitVec.ofNat 8 i).toNat = i := by simp; omega
    simp only [FreqTable.at, h8] at this
    rw [← hv]
    simpa using this
  rw [nsym, this, List.length_zip, allSyms_length]
  simp

/-! ### CODEGEN -/

/-- What CODEGEN's pseudocode writes (rule R95): the code table, CT_VALID, RES0 and RES1. -/
theorem codegenBody_only (s : State) : (codegenBody s).all fun t =>
    t = { s with ct := t.ct, ctValid := t.ctValid, res0 := t.res0, res1 := t.res1 } := by
  unfold codegenBody
  split
  · exact rfl
  · cases s.treeKind with
    | none => exact rfl
    | single =>
      cases s.node.at? s.root with
      | none => trivial
      | some r => exact rfl
    | multi =>
      cases traverse s.node traverseBound [(s.root, [])] CodeTable.empty with
      | finished ct => exact rfl
      | oneChild n ct => exact rfl
      | stopped f => trivial

/-- CODEGEN keeps the frequency table and the tree, however it ends. -/
theorem codegen_keeps_tree {s t : State} (h : exec .codegen s = .next t) :
    t.ft = s.ft ∧ t.node = s.node ∧ t.nnodes = s.nnodes ∧ t.root = s.root ∧ t.treeKind = s.treeKind ∧
      t.treeValid = s.treeValid := by
  have key := codegenBody_only s
  obtain ⟨u, hu, rfl⟩ | ⟨e, info, u, hu, rfl⟩ | ⟨info, u, hu, rfl⟩ := finish_next h <;> rw [hu] at key <;>
    · simp only [Run.all] at key
      rw [key]
      exact ⟨rfl, rfl, rfl, rfl, rfl, rfl⟩

/-! ### BUILD -/

/-- BUILD always completes (rule R85). -/
theorem exec_build (s : State) : exec .build s = .next (completeNormally (buildTree s)) := rfl

/-- BUILD's node memory holds the records of the tree (rule R85). -/
@[simp] theorem buildTree_node (s : State) : (buildTree s).node = NodeMemory.ofList (treeRecords s.ft) := rfl
@[simp] theorem buildTree_ft (s : State) : (buildTree s).ft = s.ft := rfl
@[simp] theorem buildTree_root (s : State) : (buildTree s).root = rootOf (treeRecords s.ft) := rfl
@[simp] theorem buildTree_nnodes (s : State) : (buildTree s).nnodes = BitVec.ofNat 10 (treeRecords s.ft).length := rfl
@[simp] theorem buildTree_treeKind (s : State) : (buildTree s).treeKind = treeKindOf (leaves s.ft).length := rfl
@[simp] theorem buildTree_treeValid (s : State) : (buildTree s).treeValid = true := rfl
@[simp] theorem buildTree_ctValid (s : State) : (buildTree s).ctValid = false := rfl

end Sys2Proof.Machine
end

