-- ==== Sys2Proof/Laws/PerInstr.lean ====
section
/-! SUPPORT. Statements about every command as syntax, one lemma for each constructor of `Instr`. -/

namespace Sys2Proof.Laws.Encoding

/-- The command's word is legal (spec/30_encoding.md rule R65), and the decoder reads the command from it (rule R62). -/
def Statement (i : Instr) : Prop := wellFormedWord (encode i) = true ∧ decode (encode i) = .ok i

theorem nop : Statement .nop := ⟨by decide, rfl⟩
theorem clear : Statement .clear := ⟨by decide, rfl⟩
theorem freq : Statement .freq := ⟨by decide, rfl⟩
theorem build : Statement .build := ⟨by decide, rfl⟩
theorem codegen : Statement .codegen := ⟨by decide, rfl⟩
theorem bwInit : Statement .bwInit := ⟨by decide, rfl⟩
theorem bwPutb : Statement .bwPutb := ⟨by decide, rfl⟩
theorem bwPuts : Statement .bwPuts := ⟨by decide, rfl⟩
theorem bwPutsym : Statement .bwPutsym := ⟨by decide, rfl⟩
theorem bwFinal : Statement .bwFinal := ⟨by decide, rfl⟩
theorem brInit : Statement .brInit := ⟨by decide, rfl⟩
theorem brGetb : Statement .brGetb := ⟨by decide, rfl⟩
theorem brGetsym : Statement .brGetsym := ⟨by decide, rfl⟩
theorem encode : Statement .encode := ⟨by decide, rfl⟩
theorem decode : Statement .decode := ⟨by decide, rfl⟩

end Sys2Proof.Laws.Encoding
end

