-- ==== Sys2Proof/Tests/Slice0.lean ====
section
/-! SUPPORT. The model's own tests. First the words of the opcode map written out bit by bit (spec/30_encoding.md rule R62), the
ill-formed terms each check refuses, and one or two vectors of spec/95_test_vectors.md for each command and for the host's
accesses (the vector is named beside the test). Then, for each obligation with hypotheses, a state and operands that meet them. -/

namespace Sys2Proof.Tests

open Sys2Proof.Machine

set_option Elab.async false

/-! ### Helpers -/

/-- The state a step or a command leaves, the reset state where it stops. -/
def after (r : Host.Outcome State Fault Refusal) : State :=
  match r with
  | .next t => t
  | .fault _ => State.reset
  | .refused _ => State.reset

/-- The step answers a next state. -/
def goesOn (r : Host.Outcome State Fault Refusal) : Bool :=
  match r with
  | .next _ => true
  | .fault _ => false
  | .refused _ => false

theorem eq_next_after {r : Host.Outcome State Fault Refusal} (h : goesOn r = true) : r = .next (after r) := by
  cases r with
  | next t => rfl
  | fault f => cases h
  | refused f => cases h

/-- `load` of rule R73: the bytes in IBUF from offset 0 on, IN_LEN their number. -/
def load (bs : List Byte) (s : State) : State :=
  { s with ibuf := Memory.writeBytes [] 0 bs, inLen := BitVec.ofNat 32 bs.length }

theorem load_inputBytes (bs : List Byte) (s : State) (h : bs.length < 2 ^ 32) : (load bs s).inputBytes = bs := by
  have hlen : (load bs s).inLen.toNat = bs.length := by simp [load]; omega
  apply List.ext_getElem
  · simp [State.inputBytes, hlen]
  · intro i h1 h2
    simp only [State.inputBytes, List.getElem_map, List.getElem_range, State.ibufByte, load, Memory.lookup_writeBytes]
    simp [h2]

/-- `cmd` of rule R73: the command word is accepted and completes. -/
def cmd (w : Nat) (s : State) : State := after (step (s.withFetchWord 32 w))

/-- The host's access comes next. -/
def withAccess (a : Access) (s : State) : State := { s with inputs := [.access a] }

/-- What the host's access is answered. -/
def answerTo (a : Access) (s : State) : Answer := (after (step (withAccess a s))).answer

/-- `OBUF[0 .. n−1]`. -/
def obufBytes (n : Nat) (s : State) : List Byte := (List.range n).map s.obufByte

/-- The frequency table of V3: 61:3, 62:1. -/
def table3 : FreqTable := (FreqTable.empty.put 0x61 3).put 0x62 1

/-- The input of V3, "aaab". -/
def aaab : List Byte := [0x61, 0x61, 0x61, 0x62]

/-- The container of V3. -/
def container3 : List Byte := [0x02, 0x61, 0x00, 0x00, 0x00, 0x03, 0x62, 0x00, 0x00, 0x00, 0x01, 0x04, 0xE0]

/-- V3's table in the block, its tree and its codes. -/
def built3 : State := completeNormally (buildTree (State.reset.writeFt table3))
def coded3 : State := after (exec .codegen built3)

/-- The constructed state of V46. -/
def state46 : State :=
  { State.reset with
    treeValid := true, treeKind := .multi, nnodes := 3, root := 2
    node := State.reset.node.set 2 { kind := .internal, sym := 0, weight := 0, left := NIL, right := 0, inq := true } }

/-! ### Decoding: the words of the opcode map, bit by bit (rules R60, R62, R65) -/

theorem test_word_nop : decode 0b000000000000000000000000_00000000 = .ok .nop := by decide
theorem test_word_clear : decode 0b000000000000000000000000_00000001 = .ok .clear := by decide
theorem test_word_freq : decode 0b000000000000000000000000_00010000 = .ok .freq := by decide
theorem test_word_build : decode 0b000000000000000000000000_00010001 = .ok .build := by decide
theorem test_word_codegen : decode 0b000000000000000000000000_00010010 = .ok .codegen := by decide
theorem test_word_bwInit : decode 0b000000000000000000000000_00100000 = .ok .bwInit := by decide
theorem test_word_bwPutb : decode 0b000000000000000000000000_00100001 = .ok .bwPutb := by decide
theorem test_word_bwPuts : decode 0b000000000000000000000000_00100010 = .ok .bwPuts := by decide
theorem test_word_bwPutsym : decode 0b000000000000000000000000_00100011 = .ok .bwPutsym := by decide
theorem test_word_bwFinal : decode 0b000000000000000000000000_00100100 = .ok .bwFinal := by decide
theorem test_word_brInit : decode 0b000000000000000000000000_00110000 = .ok .brInit := by decide
theorem test_word_brGetb : decode 0b000000000000000000000000_00110001 = .ok .brGetb := by decide
theorem test_word_brGetsym : decode 0b000000000000000000000000_00110010 = .ok .brGetsym := by decide
theorem test_word_encode : decode 0b000000000000000000000000_01000000 = .ok .encode := by decide
theorem test_word_decode : decode 0b000000000000000000000000_01000001 = .ok .decode := by decide

/-- The table's numbering: one word of 32 bits. -/
theorem test_tableWord : decodeTableWord 32 0x23 = some .bwPutsym ∧ decodeTableWord 32 0x123 = none := by decide

/-! ### Well-formedness: each check refuses an ill-formed term -/

theorem test_wf_zeroField : zeroFieldClear 0x00000140 = false ∧ wellFormedWord 0x00000140 = false := by decide
theorem test_wf_opcode : assignedOpcodes.contains (0x02 : BitVec 8) = false ∧ wellFormedWord 0x00000002 = false := by decide
theorem test_wf_ibufSize : { Config.standard with ibufSize := 0 }.wellFormed = false ∧
    { Config.standard with ibufSize := 2 ^ 30 + 1 }.ibufSizeOk = false := by decide
theorem test_wf_obufSize : { Config.standard with obufSize := 1 }.wellFormed = false ∧
    { Config.standard with obufSize := 2 ^ 30 + 1 }.obufSizeOk = false := by decide
theorem test_wf_byteOrder : { Config.standard with freqByteOrder := .little }.byteOrderOk = false ∧
    { Config.standard with freqByteOrder := .little }.wellFormed = false := by decide
theorem test_wf_good : Config.standard.wellFormed = true ∧ wellFormedWord 0x00000041 = true := by decide

/-! ### Vectors of the spec: the commands -/

/-- V41. -/
theorem test_nop_V41 : statusWord (cmd 0x00 State.reset) = 0x00004002 := by decide

/-- V42. -/
theorem test_illegal_V42 :
    let t := cmd 0xFFFFFFFF State.reset
    t.errcode = 0x10 ∧ t.errinfo = 0xFFFFFFFF ∧ statusWord t = 0x00004006 := by decide

/-- V45. -/
theorem test_clear_V45 :
    let t := cmd 0x01 coded3
    statusWord t = 0x00004002 ∧ readReg t 0x3C = 0x000001FF ∧ readNodeWord t 0 0 = 0 ∧ readCtWord t 0x61 0 = 0 := by
  decide +kernel

/-- V50. -/
theorem test_freq_V50 :
    let t := cmd 0x10 (load aaab State.reset)
    t.ft.at 0x61 = 3 ∧ t.ft.at 0x62 = 1 ∧ t.res0 = 2 ∧ total t.ft = 4 ∧ statusWord t = 0x00004002 := by decide +kernel

/-- V53. -/
theorem test_freq_discards_V53 :
    let t := cmd 0x10 (load [0x62] (State.reset.writeFt table3))
    t.ft.at 0x61 = 0 ∧ t.ft.at 0x62 = 1 := by decide +kernel

/-- V61: a leaf of weight 1 goes before an Internal node of weight 2. -/
theorem test_build_V61 :
    let t := cmd 0x11 (State.reset.writeFt (((FreqTable.empty.put 0 1).put 1 1).put 2 1))
    (t.recAt 3).left = 0 ∧ (t.recAt 3).right = 1 ∧ (t.recAt 4).left = 2 ∧ (t.recAt 4).right = 3 ∧ t.root = 4 ∧
      t.res0 = 3 ∧ t.res1 = 5 := by decide +kernel

/-- V62: weights beyond 32 bits. -/
theorem test_build_V62 :
    let t := cmd 0x11 (State.reset.writeFt (((FreqTable.empty.put 0x10 0xFFFFFFFF).put 0x20 0xFFFFFFFF).put 0x30 1))
    readNodeWord t 3 2 = 0 ∧ readNodeWord t 3 3 = 1 ∧ readNodeWord t 4 2 = 0xFFFFFFFF ∧ readNodeWord t 4 3 = 1 ∧
      (t.recAt 3).left = 2 ∧ (t.recAt 3).right = 0 := by decide +kernel

/-- V3: the codes of the tree. -/
theorem test_codegen_V3 :
    coded3.ct.at 0x61 = [true] ∧ coded3.ct.at 0x62 = [false] ∧ coded3.res0 = 1 ∧ coded3.res1 = 1 ∧
      statusWord coded3 = 0x00004B02 := by decide +kernel

/-- V46: the fatal error. -/
theorem test_codegen_V46 :
    let t := cmd 0x12 state46
    t.errcode = 0x04 ∧ t.errinfo = 2 ∧ t.fatal = true ∧ t.err = true ∧ t.done = true ∧ t.ctValid = false := by decide +kernel

/-- V74: the largest offset, and one more. -/
theorem test_bwInit_V74 :
    (cmd 0x20 { State.reset with arg0 := 65536 }).bwPos = 65536 ∧
      (cmd 0x20 { State.reset with arg0 := 65537 }).errcode = 0x12 ∧
      (cmd 0x20 { State.reset with arg0 := 65537 }).bwOpen = false := by decide +kernel

/-- V70: the third bit of 1, 0, 1. -/
theorem test_bwPutb_V70 :
    readReg (cmd 0x21 { State.reset with arg0 := 1, bwOpen := true, bwAcc := 0x80, bwCnt := 2 }) 0x44 = 0x3A0 := by
  decide +kernel

/-- V74: no room. -/
theorem test_bwPutb_V74 :
    let t := cmd 0x21 { State.reset with arg0 := 1, bwOpen := true, bwPos := 65536 }
    t.errcode = 0x13 ∧ t.errinfo = 0x10000 := by decide +kernel

/-- V71: the 32 bits after `101`. -/
theorem test_bwPuts_V71 :
    let t := cmd 0x22 { State.reset with arg0 := 0xFFFFFFFF, arg1 := 32, bwOpen := true, bwPos := 1, bwAcc := 0xA0, bwCnt := 3 }
    t.bwPos = 5 ∧ readReg t 0x44 = 0x3E0 ∧ t.obuf = [(1, 0xBF), (2, 0xFF), (3, 0xFF), (4, 0xFF)] := by decide +kernel

/-- V71: too many bits. -/
theorem test_bwPuts_tooMany_V71 :
    let t := cmd 0x22 { State.reset with arg1 := 33, bwOpen := true }
    t.errcode = 0x12 ∧ t.errinfo = 0x21 := by decide +kernel

/-- Like V80, on V3's codes: bits 31:8 of ARG0 are ignored. -/
theorem test_bwPutsym_V80 :
    let t := cmd 0x23 { coded3 with arg0 := 0x161, bwOpen := true }
    t.bwAcc = 0x80 ∧ t.bwCnt = 1 ∧ t.res0 = 1 := by decide +kernel

/-- V80: 'z' has no code. -/
theorem test_bwPutsym_noCode_V80 :
    let t := cmd 0x23 { coded3 with arg0 := 0x7A, bwOpen := true }
    t.errcode = 0x12 ∧ t.errinfo = 0x7A ∧ t.bwCnt = 0 := by decide +kernel

/-- V72. -/
theorem test_bwFinal_V72 :
    let t := cmd 0x24 { State.reset with bwOpen := true, bwAcc := 0xE0, bwCnt := 4 }
    t.obuf = [(0, 0xE0)] ∧ t.res0 = 4 ∧ t.res1 = 1 ∧ t.outLen = 1 ∧ t.bwOpen = false := by decide +kernel

/-- V73: no partial byte. -/
theorem test_bwFinal_V73 :
    let t := cmd 0x24 { State.reset with bwOpen := true, bwPos := 5 }
    t.obuf = [] ∧ t.res0 = 0 ∧ t.res1 = 5 ∧ t.outLen = 5 := by decide +kernel

/-- V75. -/
theorem test_brInit_V75 :
    let t := cmd 0x30 { State.reset with inLen := 6, arg1 := 5 }
    t.brValid = 43 ∧ t.brPos = 0 ∧ t.brOpen = true ∧ brEmpty t = false := by decide +kernel

/-- V76. -/
theorem test_brInit_V76 :
    (cmd 0x30 { State.reset with inLen := 6, arg0 := 6 }).errcode = 0 ∧
      (cmd 0x30 { State.reset with inLen := 6, arg0 := 6, arg1 := 1 }).errcode = 0x03 ∧
      (cmd 0x30 { State.reset with inLen := 6, arg0 := 7 }).errcode = 0x12 ∧
      (cmd 0x30 { State.reset with inLen := 6, arg1 := 8 }).errinfo = 8 := by decide +kernel

/-- V75: bit 7 (the last 1 of `A1`) and the 44th read. -/
theorem test_brGetb_V75 :
    let s := { load [0xA1, 0xBF] State.reset with brOpen := true, brValid := 16, brPos := 7 }
    (cmd 0x31 s).res0 = 1 ∧ (cmd 0x31 s).brPos = 8 := by decide +kernel

theorem test_brGetb_end_V75 :
    let t := cmd 0x31 { State.reset with brOpen := true, brValid := 43, brPos := 43 }
    t.errcode = 0x05 ∧ t.errinfo = 0x2B ∧ t.brPos = 43 := by decide +kernel

/-- V82: the fourth symbol, and the fifth. -/
theorem test_brGetsym_V82 :
    let t := cmd 0x32 { load [0xE0] coded3 with brOpen := true, brValid := 4, brPos := 3 }
    t.res0 = 0x62 ∧ t.res1 = 1 ∧ t.brPos = 4 := by decide +kernel

theorem test_brGetsym_end_V82 :
    let t := cmd 0x32 { load [0xE0] coded3 with brOpen := true, brValid := 4, brPos := 4 }
    t.errcode = 0x03 ∧ t.errinfo = 4 := by decide +kernel

/-- V3. -/
theorem test_encode_V3 :
    let t := cmd 0x40 (load aaab State.reset)
    obufBytes 13 t = container3 ∧ t.outLen = 13 ∧ t.res0 = 4 ∧ t.res1 = 2 ∧ statusWord t = 0x00004B02 := by decide +kernel

/-- V2: one symbol. -/
theorem test_encode_V2 :
    let t := cmd 0x40 (load [0x61] State.reset)
    obufBytes 8 t = [0x01, 0x61, 0, 0, 0, 1, 7, 0] ∧ t.outLen = 8 ∧ statusWord t = 0x00004702 := by decide +kernel

/-- V3. -/
theorem test_decode_V3 :
    let t := cmd 0x41 (load container3 State.reset)
    obufBytes 4 t = aaab ∧ t.outLen = 4 ∧ t.brBase = 12 ∧ t.brValid = 4 ∧ t.brPos = 4 ∧ statusWord t = 0x00004902 := by
  decide +kernel

/-- V34: the walk runs out of bits. -/
theorem test_decode_V34 :
    let t := cmd 0x41 (load [2, 0x61, 0, 0, 0, 3, 0x62, 0, 0, 0, 1, 7, 0xE0] State.reset)
    t.errcode = 0x03 ∧ t.errinfo = 1 ∧ t.outLen = 0 ∧ statusWord t = 0x00006906 := by decide +kernel

/-! ### Vectors of the spec: the host's accesses -/

/-- V40. -/
theorem test_reset_V40 :
    answerTo (.read32 0x04) State.reset = .word 0x00004000 ∧ answerTo (.read32 0x3C) State.reset = .word 0x000001FF ∧
      answerTo (.read32 0x60) State.reset = .word 0x00010000 := by decide +kernel

/-- V43: a write to ARG0 in the BUSY window; STATUS reads as at accept before it and after it, and shows HOSTVIOL when ENCODE has
completed. -/
theorem test_busy_V43 :
    let a := after (step (withAccess (.write32 0x00 0x40) State.reset))
    let s := after (step (withAccess (.write32 0x20 5) a))
    answerTo (.read32 0x04) a = .word 0x00004001 ∧ answerTo (.read32 0x04) s = .word 0x00004001 ∧ s.arg0 = 0 ∧
      s.hostviol = true ∧ s.busy = true ∧ answerTo (.read32 0x04) (after (step s)) = .word 0x00004312 := by decide +kernel

/-- V43 begun with HOSTVIOL set (V44): STATUS shows the mark in the BUSY window, as at accept. -/
theorem test_busy_marked_V43 :
    let s := after (step (withAccess (.read32 0x100) State.reset))
    answerTo (.read32 0x04) (after (step (withAccess (.write32 0x00 0x40) s))) = .word 0x00004011 := by decide +kernel

/-- V44: violations and non-violations. -/
theorem test_violations_V44 :
    (after (step (withAccess (.read32 0x100) State.reset))).hostviol = true ∧
      (after (step (withAccess (.read32 0x06) State.reset))).hostviol = true ∧
      (after (step (withAccess (.read32 0x40000000) State.reset))).hostviol = true ∧
      (after (step (withAccess (.write8 0x20 1) State.reset))).hostviol = true ∧
      (after (step (withAccess (.write32 0x28 7) State.reset))).hostviol = false ∧
      (after (step (withAccess (.write32 0x8000 1) State.reset))).hostviol = false := by decide +kernel

/-- V14: the windows after V3's BUILD and CODEGEN. -/
theorem test_windows_V14 :
    answerTo (.read32 0x0584) coded3 = .word 3 ∧ answerTo (.read32 0x8000) coded3 = .word 0x00006101 ∧
      answerTo (.read32 0x8004) coded3 = .word 0x01FF01FF ∧ answerTo (.read32 0x8040) coded3 = .word 0x00000007 ∧
      answerTo (.read32 0x8044) coded3 = .word 1 ∧ answerTo (.read32 0x3840) coded3 = .word 1 ∧
      answerTo (.read32 0x3860) coded3 = .word 0x80000000 := by decide +kernel

/-- V46: the STATUS write in FATAL. -/
theorem test_fatal_V46 :
    let t := after (step (withAccess (.write32 0x04 6) (cmd 0x12 state46)))
    t.done = false ∧ t.err = false ∧ t.fatal = true := by decide +kernel

/-! ### A state with a tree, codes and two open sessions that meets the invariant -/

/-- The tree of V3. -/
def records3 : List NodeRec :=
  [{ kind := .leaf, sym := 0x61, weight := 3, left := NIL, right := NIL, inq := false },
   { kind := .leaf, sym := 0x62, weight := 1, left := NIL, right := NIL, inq := false },
   { kind := .internal, sym := 0, weight := 4, left := 1, right := 0, inq := true }]

/-- V3: the records of the tree. -/
theorem test_tree_V3 : treeRecords table3 = records3 := by decide +kernel

theorem table3_pairs : pairs table3 = [(0x61, 3), (0x62, 1)] := by decide +kernel

theorem table3_nsym : nsym table3 = 2 := by rw [nsym, table3_pairs]; rfl

theorem coded3_next : exec .codegen built3 = .next coded3 := eq_next_after (by decide +kernel)

theorem coded3_ft : coded3.ft = table3 := (codegen_keeps_tree coded3_next).1

theorem coded3_node : coded3.node = NodeMemory.ofList records3 := by
  rw [(codegen_keeps_tree coded3_next).2.1, ← test_tree_V3]; rfl

theorem coded3_root : coded3.root = 2 := by
  rw [(codegen_keeps_tree coded3_next).2.2.2.1]; decide +kernel

theorem coded3_nnodes : coded3.nnodes = 3 := by
  rw [(codegen_keeps_tree coded3_next).2.2.1]; decide +kernel

theorem coded3_kind : coded3.treeKind = .multi := by
  rw [(codegen_keeps_tree coded3_next).2.2.2.2.1]; decide +kernel

theorem coded3_ct : coded3.ct = (CodeTable.empty.put 0x61 [true]).put 0x62 [false] := by
  apply Vector.toList_inj.1; decide +kernel

theorem coded3_rec : coded3.recAt = fun i => records3.getD i NodeRec.cleared := by
  funext i; exact State.recAt_ofList coded3_node (by decide) i

/-- V3's tree satisfies the tree invariant. -/
theorem coded3_tree : coded3.TreeInv where
  kind := by rw [coded3_ft, table3_nsym, coded3_kind]; rfl
  count := by rw [coded3_ft, table3_nsym, coded3_nnodes]; rfl
  root := by rw [coded3_ft, table3_nsym, coded3_root]; rfl
  leafAt := by
    intro i e h
    rw [coded3_ft, table3_pairs] at h
    rw [coded3_ft, table3_nsym, coded3_rec]
    match i with
    | 0 => cases h; rfl
    | 1 => cases h; rfl
    | n + 2 => simp at h
  internalAt := by
    rw [coded3_ft, table3_nsym]
    intro i h1 h2
    obtain rfl : i = 2 := by omega
    unfold State.internalOk
    rw [coded3_rec]; decide
  oneParent := by
    rw [coded3_ft, table3_nsym]
    unfold State.parents
    rw [coded3_rec]; decide
  rootWeight := by
    intro _
    rw [coded3_ft, coded3_rec, coded3_root]; decide +kernel

/-- V3's codes satisfy the code-table invariant. -/
theorem coded3_codes : coded3.CodeInv where
  notRetained sym h := by
    rw [coded3_ft, table3] at h
    rw [coded3_ct]
    simp only [FreqTable.at_put, CodeTable.at_put] at *
    by_cases h2 : sym = 0x62
    · simp [h2] at h
    · by_cases h1 : sym = 0x61
      · simp [h1] at h
      · rw [if_neg h2, if_neg h1]; exact CodeTable.at_empty sym
  single h := by rw [coded3_kind] at h; cases h
  multi _ sym h := by
    rw [coded3_ft, table3] at h
    rw [coded3_ct, coded3_node, coded3_root]
    by_cases h2 : sym = 0x62
    · subst h2; decide +kernel
    · by_cases h1 : sym = 0x61
      · subst h1; decide +kernel
      · rw [FreqTable.at_put, if_neg h2, FreqTable.at_put, if_neg h1] at h
        exact absurd (FreqTable.at_empty sym) h

/-- V82's BitReader session at its end, with a BitWriter session open beside it. -/
def session (s : State) : State := { load [0xE0] s with brOpen := true, brValid := 4, brPos := 4, bwOpen := true }
def session3 : State := session coded3

theorem session_tree {s : State} (h : s.TreeInv) : (session s).TreeInv := h.congr rfl rfl rfl rfl rfl
theorem session_codes {s : State} (h : s.CodeInv) : (session s).CodeInv := h.congr rfl rfl rfl rfl rfl

theorem session3_inv : session3.Inv where
  config := by decide +kernel
  oneMode := by decide +kernel
  hostviolSticky := by decide +kernel
  errcodeKnown := by decide +kernel
  ibufOk := by decide +kernel
  obufOk := by decide +kernel
  outLenOk := by decide +kernel
  clearedBeyond := by
    show ∀ r ∈ coded3.node.toList.drop coded3.nnodes.toNat, r = NodeRec.cleared
    rw [coded3_node, coded3_nnodes]
    exact NodeMemory.ofList_cleared records3 (by decide)
  codeLength sym := by
    show (coded3.ct.at sym).length ≤ 255
    rw [coded3_ct]
    simp only [CodeTable.at_put, CodeTable.at_empty]
    split
    · decide
    · split <;> decide
  ctNeedsTree := by decide +kernel
  treeOk _ := session_tree coded3_tree
  codesOk _ := session_codes coded3_codes
  bwPosOk := by decide +kernel
  bwAccOk i _ := by simp [show session3.bwAcc = 0 by decide +kernel]
  bwCntOk := by decide +kernel
  brPosOk := by decide +kernel
  brValidOk := by decide +kernel
/-! ### Witnesses: the hypotheses of each obligation are met -/

theorem witness_TurnRunsTheDecodedCommand :
    let s := State.reset.withFetchWord 32 0x40
    s.busy = true ∧ turnNext s [] ∧ turnNext (acceptWord 0x40 State.reset) [] ∧ decode s.cmdReg = .ok .encode :=
  ⟨rfl, .inl rfl, .inr ⟨rfl, rfl⟩, by decide⟩

theorem witness_TurnOfAnIdleBlockDoesNothing : State.reset.busy = false ∧ turnNext State.reset [] := ⟨rfl, .inr ⟨rfl, rfl⟩⟩

theorem witness_IllegalWordCompletesWithIllegalCommand :
    let s := acceptWord 0x00000140 State.reset
    s.busy = true ∧ turnNext s [] ∧ ∀ i : Instr, s.cmdReg ≠ encode i :=
  ⟨rfl, .inr ⟨rfl, rfl⟩, by intro i; cases i <;> decide⟩

theorem witness_CmdWriteIsAcceptedOnlyInIdle :
    (let s := withAccess (.write32 0x00 0x41) (acceptWord 0x40 State.reset)
     accessNext s (.write32 0x00 0x41) [] ∧ s.busy = true) ∧
    (let s := withAccess (.write32 0x00 0x41) { State.reset with fatal := true }
     accessNext s (.write32 0x00 0x41) [] ∧ s.busy = false ∧ s.fatal = true) ∧
    (let s := withAccess (.write32 0x00 0x41) State.reset
     accessNext s (.write32 0x00 0x41) [] ∧ s.busy = false ∧ s.fatal = false) :=
  ⟨⟨rfl, rfl⟩, ⟨rfl, rfl, rfl⟩, rfl, rfl, rfl⟩

/-- The last register, the last byte of IBUF; one beyond each, and a misaligned word. -/
theorem witness_MalformedOrUnmappedAccessOnlySetsHostviol :
    State.reset.busy = false ∧ State.reset.cfg.wellFormed = true ∧
    (∀ a, accessNext (withAccess a State.reset) a []) ∧
    wellFormedAccess State.reset.cfg (.read32 0xFC) ∧ wellFormedAccess State.reset.cfg (.write8 0x4000FFFF 1) ∧
    ¬ wellFormedAccess State.reset.cfg (.read32 0x100) ∧ ¬ wellFormedAccess State.reset.cfg (.write8 0x40010000 1) ∧
    ¬ wellFormedAccess State.reset.cfg (.write32 0x22 1) ∧ ¬ wellFormedAccess State.reset.cfg (.read8 0x20) := by
  refine ⟨rfl, by decide, fun _ => rfl, ?_, ?_, ?_, ?_, ?_, ?_⟩ <;>
    simp [wellFormedAccess, inWordSpace, inByteSpace, State.reset, Config.standard]

theorem witness_BusyBlockAnswersOnlyStatus :
    let s := acceptWord 0x40 State.reset
    s.busy = true ∧ (∀ a, accessNext (withAccess a s) a []) ∧ Access.read32 0x08 ≠ .read32 0x04 ∧
    State.reset.busy = false ∧ State.reset.fatal = false ∧
    accessNext (withAccess (.write32 0x00 0x40) State.reset) (.write32 0x00 0x40) [] :=
  ⟨rfl, fun _ => rfl, by decide, rfl, rfl, rfl⟩

theorem witness_ReadsHaveNoSideEffect :
    let a := Access.read32 0xBFFC
    let s := { State.reset with inputs := [.access a, .access a] }
    s.busy = false ∧ s.cfg.wellFormed = true ∧ wellFormedAccess s.cfg a ∧ s.inputs = .access a :: .access a :: [] := by
  refine ⟨rfl, by decide, ?_, rfl⟩
  simp [wellFormedAccess, inWordSpace]

theorem witness_StatusWriteAcknowledgesDoneAndErr :
    let s := withAccess (.write32 0x04 0x6) { State.reset with done := true, err := true }
    s.busy = false ∧ accessNext s (.write32 0x04 0x6) [] := ⟨rfl, rfl⟩

/-- Each clause: the ignored registers at the first and the last offset, the two windows at the first and the last word. -/
theorem witness_HostRegisterWritesOnlyStore :
    State.reset.busy = false ∧ (∀ o v, accessNext (withAccess (.write32 o v) State.reset) (.write32 o v) []) ∧
    ((0x08 : Word).toNat % 4 = 0 ∧ (0x08 : Word).toNat ≤ 0xFF ∧ (0x08 : Word) ∉ [0x00#32, 0x04, 0x10, 0x14, 0x20, 0x24]) ∧
    ((0xFC : Word).toNat % 4 = 0 ∧ (0xFC : Word).toNat ≤ 0xFF ∧ (0xFC : Word) ∉ [0x00#32, 0x04, 0x10, 0x14, 0x20, 0x24]) ∧
    ((0x2000 : Word).toNat % 4 = 0 ∧ 0x2000 ≤ (0x2000 : Word).toNat ∧ (0x5FFC : Word).toNat % 4 = 0 ∧
      (0x5FFC : Word).toNat ≤ 0x5FFF) ∧
    ((0x8000 : Word).toNat % 4 = 0 ∧ 0x8000 ≤ (0x8000 : Word).toNat ∧ (0xBFFC : Word).toNat % 4 = 0 ∧
      (0xBFFC : Word).toNat ≤ 0xBFFF) :=
  ⟨rfl, fun _ _ => rfl, by decide, by decide, by decide, by decide⟩

/-- The first and the last offset, and the first reserved one of the last clause. -/
theorem witness_RegisterReadsReturnTheirContent :
    State.reset.busy = false ∧ (∀ o, accessNext (withAccess (.read32 o) State.reset) (.read32 o) []) ∧
    ((0x00 : Word).toNat % 4 = 0 ∧ (0x00 : Word).toNat ≤ 0xFF) ∧ ((0x68 : Word).toNat % 4 = 0 ∧ (0x68 : Word).toNat ≤ 0xFF) ∧
    ((0xFC : Word).toNat % 4 = 0 ∧ (0xFC : Word).toNat ≤ 0xFF) :=
  ⟨rfl, fun _ => rfl, by decide, by decide, by decide⟩

/-- The last entry, `ft[255]`. -/
theorem witness_HostFtWriteStoresAndInvalidates :
    let s := { State.reset with inputs := [.access (.write32 0x7FC 9), .access (.read32 0x7FC)] }
    s.busy = false ∧ (0x7FC : Word).toNat = 0x400 + 4 * (0xFF : Byte).toNat ∧
      s.inputs = .access (.write32 0x7FC 9) :: .access (.read32 0x7FC) :: [] := ⟨rfl, by decide, rfl⟩

/-- The last byte of each buffer. -/
theorem witness_HostByteWriteStoresOneByte :
    State.reset.busy = false ∧ State.reset.cfg.wellFormed = true ∧
    (∀ o v, ({ State.reset with inputs := [.access (.write8 o v), .access (.read8 o)] } : State).inputs =
      .access (.write8 o v) :: .access (.read8 o) :: []) ∧
    65535 < State.reset.cfg.ibufSize ∧ (0x4000FFFF : Word).toNat = 0x40000000 + 65535 ∧
    65535 < State.reset.cfg.obufSize ∧ (0x8000FFFF : Word).toNat = 0x80000000 + 65535 :=
  ⟨rfl, by decide, fun _ _ => rfl, by decide, by decide, by decide, by decide⟩

/-- The record that does not exist, its last word; and record 0. -/
theorem witness_NodeWindowShowsTheRecords :
    State.reset.busy = false ∧ State.reset.nnodes.toNat ≤ 511 ∧
    (∀ o, accessNext (withAccess (.read32 o) State.reset) (.read32 o) []) ∧
    (0xBFFC : Word).toNat = 0x8000 + 32 * 511 + 4 * 7 ∧ (0x8000 : Word).toNat = 0x8000 + 32 * 0 + 4 * 0 :=
  ⟨rfl, by decide, fun _ => rfl, by decide, by decide⟩

/-- The last word of the last record, and the first. -/
theorem witness_CodeWindowShowsTheCodes :
    State.reset.busy = false ∧ State.reset.ct.len 0xFF ≤ 255 ∧ State.reset.ct.len 0 ≤ 255 ∧
    (∀ o, accessNext (withAccess (.read32 o) State.reset) (.read32 o) []) ∧
    (0x5FFC : Word).toNat = 0x2000 + 64 * (0xFF : Byte).toNat + 4 * 15 ∧
    (0x2000 : Word).toNat = 0x2000 + 64 * (0 : Byte).toNat + 4 * 0 :=
  ⟨rfl, by decide +kernel, by decide +kernel, fun _ => rfl, by decide, by decide⟩

/-- In a BUSY block. -/
theorem witness_ResetInputGivesTheResetState :
    ({ acceptWord 0x40 State.reset with inputs := [.reset] } : State).inputs = .reset :: [] := rfl

theorem witness_EveryStepAnswersAndKeepsTheInvariant : session3.Inv := session3_inv

theorem witness_NoStepRaisesTheFatalError :
    session3.Inv ∧ session3.fatal = false ∧ step session3 = .next (after (step session3)) :=
  ⟨session3_inv, by decide +kernel, eq_next_after (by decide +kernel)⟩

theorem witness_OnlyResetClearsTheFaultMarks :
    let s := { State.reset with fatal := true, hostviol := true }
    s.inputs.head? ≠ some .reset ∧ step s = .next s ∧ s.fatal = true ∧ s.hostviol = true :=
  ⟨by decide, rfl, rfl, rfl⟩

theorem witness_FatalBlockIsFrozenUntilReset :
    let s := withAccess (.write32 0x00 0x40) { State.reset with fatal := true, err := true, errcode := 0x04 }
    s.fatal = true ∧ s.busy = false ∧ s.inputs.head? ≠ some .reset ∧ step s = .next (after (step s)) :=
  ⟨rfl, rfl, by decide, eq_next_after (by decide)⟩

/-- Both inner clauses: a normal completion, and the fatal error of V46. -/
theorem witness_CompletionClearsBusyAndSetsDone :
    (exec .nop State.reset = .next (after (exec .nop State.reset)) ∧ State.reset.err = false ∧
      (after (exec .nop State.reset)).err = false) ∧
    (exec .codegen state46 = .next (after (exec .codegen state46)) ∧ state46.err = false ∧ state46.fatal = false ∧
      (after (exec .codegen state46)).fatal = true) :=
  ⟨⟨rfl, rfl, rfl⟩, eq_next_after (by decide +kernel), rfl, rfl, by decide +kernel⟩

theorem witness_EachCommandReportsOnlyItsErrors :
    State.reset.err = false ∧ exec .decode State.reset = .next (after (exec .decode State.reset)) ∧
      (after (exec .decode State.reset)).err = true ∧ exec .brGetb State.reset = .next (after (exec .brGetb State.reset)) ∧
      (after (exec .brGetb State.reset)).err = true :=
  ⟨rfl, eq_next_after (by decide), by decide, eq_next_after (by decide), by decide⟩

theorem witness_NoCommandWritesTheHostsState : exec .clear State.reset = .next (after (exec .clear State.reset)) :=
  eq_next_after rfl

/-- Each clause, in an open session: ARG0 differs outside the bits named; BW_PUTS with all 32 bits and with none. -/
theorem witness_UnnamedOperandBitsAreIgnored :
    ((3 : Word).getLsbD 0 = (1 : Word).getLsbD 0 ∧ goesOn (exec .bwPutb { session3 with arg0 := 3 }) = true) ∧
    ((0x161 : Word).setWidth 8 = (0x61 : Word).setWidth 8 ∧ goesOn (exec .bwPutsym { session3 with arg0 := 0x161 }) = true) ∧
    ((∀ i, i < ({ session3 with arg1 := 0 } : State).arg1.toNat → (7 : Word).getLsbD i = (0 : Word).getLsbD i) ∧
      goesOn (exec .bwPuts { session3 with arg1 := 0, arg0 := 7 }) = true) ∧
    ((∀ i, i < ({ session3 with arg1 := 32 } : State).arg1.toNat → (7 : Word).getLsbD i = (7 : Word).getLsbD i) ∧
      goesOn (exec .bwPuts { session3 with arg1 := 32, arg0 := 7 }) = true) :=
  ⟨⟨by decide, by decide +kernel⟩, ⟨by decide, by decide +kernel⟩, ⟨by intro i hi; exact absurd hi (Nat.not_lt_zero i), by decide +kernel⟩,
    fun _ _ => rfl, by decide +kernel⟩

/-- The longest input, and the empty one. -/
theorem witness_FreqCountsTheInput :
    State.reset.cfg.wellFormed = true ∧ ({ State.reset with inLen := 65536 } : State).inLen.toNat ≤ State.reset.cfg.ibufSize ∧
      State.reset.inLen.toNat ≤ State.reset.cfg.ibufSize := by decide

theorem witness_TooLongInputIsBadArgument :
    ({ State.reset with inLen := 65537 } : State).cfg.ibufSize < ({ State.reset with inLen := 65537 } : State).inLen.toNat := by
  decide

theorem witness_PopminTakesTheSmallestEarliestNode :
    popmin (leaves table3) = some (1, 1, [leafRec (0x61, 3), { leafRec (0x62, 1) with inq := false }]) := by decide +kernel

theorem witness_MergeJoinsTheTwoSmallestNodes : 1 < inqCount (leaves table3) := by decide +kernel

/-- V61: two Internal nodes. -/
theorem witness_InternalWeightsNeverDecrease :
    let s := State.reset.writeFt (((FreqTable.empty.put 0 1).put 1 1).put 2 1)
    exec .build s = .next (completeNormally (buildTree s)) ∧ nsym s.ft ≤ 3 ∧ 3 < 4 ∧
      4 < (completeNormally (buildTree s)).nnodes.toNat := ⟨rfl, by decide +kernel, by decide, by decide +kernel⟩

/-- Two states that differ but for the table. -/
theorem witness_TreeAndCodesDependOnTheTableOnly :
    let s := State.reset.writeFt table3
    let s' := { State.reset.writeFt table3 with arg0 := 7 }
    let t := completeNormally (buildTree s)
    let t' := completeNormally (buildTree s')
    s.ft = s'.ft ∧ exec .build s = .next t ∧ exec .build s' = .next t' ∧ exec .codegen t = .next (after (exec .codegen t)) ∧
      exec .codegen t' = .next (after (exec .codegen t')) :=
  ⟨rfl, rfl, rfl, eq_next_after (by decide +kernel), eq_next_after (by decide +kernel)⟩

theorem built3_tree : built3.TreeInv :=
  have h := codegen_keeps_tree coded3_next
  coded3_tree.congr h.1.symm h.2.1.symm h.2.2.1.symm h.2.2.2.1.symm h.2.2.2.2.1.symm

/-- Two symbols, and none. -/
theorem witness_CodegenAssignsThePathCodes :
    (built3.treeValid = true ∧ built3.TreeInv ∧ nsym built3.ft ≠ 0) ∧
    (let s := { State.reset with treeValid := true }
     s.treeValid = true ∧ s.TreeInv ∧ nsym s.ft = 0) := by
  have h0 : pairs (State.reset.ft) = [] := by decide +kernel
  have hn : nsym (State.reset.ft) = 0 := by rw [nsym, h0]; rfl
  refine ⟨⟨rfl, built3_tree, by decide +kernel⟩, rfl, ?_, hn⟩
  exact {
    kind := by show TreeKind.none = _; rw [if_pos hn]
    count := by show 0 = 2 * nsym State.reset.ft - 1; rw [hn]
    root := by show 511 = if nsym State.reset.ft = 0 then 511 else _; rw [if_pos hn]
    leafAt := by intro i e h; change (pairs State.reset.ft)[i]? = some e at h; rw [h0] at h; simp at h
    internalAt := by intro i _ h; change i < 2 * nsym State.reset.ft - 1 at h; rw [hn] at h; omega
    oneParent := by intro c h; change c < 2 * nsym State.reset.ft - 2 at h; rw [hn] at h; omega
    rootWeight := by intro h; change 2 ≤ nsym State.reset.ft at h; rw [hn] at h; omega }

theorem witness_CodegenRefusesNoTreeAndAMissingChild :
    State.reset.treeValid = false ∧ state46.treeValid = true ∧ state46.treeKind = .multi ∧ state46.root ≠ NIL ∧
      (state46.recAt state46.root.toNat).kind = .internal ∧ (state46.recAt state46.root.toNat).left = NIL := by
  refine ⟨rfl, rfl, rfl, by decide, ?_, ?_⟩ <;> decide +kernel

theorem witness_CodesArePrefixFreeAndComplete : session3.Inv ∧ session3.ctValid = true ∧ session3.treeKind = .multi :=
  ⟨session3_inv, by decide +kernel, by decide +kernel⟩

/-- The code that gives every symbol its 8-bit numeral (rule R131). -/
theorem witness_CodesAreOptimal :
    let c : Byte → Code := fun sym => (List.range 8).map (fun i => sym.getLsbD (7 - i))
    2 ≤ nsym (State.reset.writeFt table3).ft ∧ exec .build (State.reset.writeFt table3) = .next built3 ∧
      exec .codegen built3 = .next coded3 ∧ prefixFreeOn (State.reset.writeFt table3).ft c := by
  refine ⟨by rw [show (State.reset.writeFt table3).ft = table3 from rfl, table3_nsym], exec_build _, coded3_next, ?_⟩
  intro p q _ _ hpq hp
  apply hpq
  have h := List.IsPrefix.eq_of_length hp (by simp)
  apply BitVec.eq_of_getLsbD_eq
  intro i hi
  have := congrArg (fun l => l[7 - i]?) h
  simp only [List.getElem?_map, List.getElem?_range (show 7 - i < 8 by omega), Option.map_some, Option.some.injEq] at this
  rwa [show 7 - (7 - i) = i by omega] at this

/-- Both ends of the range. -/
theorem witness_BwInitOpensASession :
    ({ State.reset with arg0 := 65536 } : State).arg0.toNat ≤ State.reset.cfg.obufSize ∧
      State.reset.cfg.obufSize < ({ State.reset with arg0 := 65537 } : State).arg0.toNat := by decide

/-- Nine bits written from offset 1 on, `101000011`: one byte stored, one bit in the partial byte. -/
def writing : State := { coded3 with arg0 := 0x61, arg1 := 32, bwOpen := true, bwPos := 2, bwAcc := 0x80, bwCnt := 1, obuf := [(1, 0xA1)] }

def written : List Bool := [true, false, true, false, false, false, false, true, true]

theorem writing_holds : writerHolds writing 1 written := by
  refine ⟨by decide +kernel, by decide +kernel, ?_, ?_⟩
  · intro j hj
    obtain rfl : j = 0 := by simp [written] at hj; omega
    decide +kernel
  · show ∀ i, i < 8 → (0x80 : Byte).getLsbD (7 - i) = _
    decide +kernel

theorem writing_mayWrite : mayWrite .bwPutb writing ∧ mayWrite .bwPuts writing ∧ mayWrite .bwPutsym writing := by
  refine ⟨⟨rfl, .inl rfl⟩, ⟨rfl, .inr (.inl ⟨rfl, by decide +kernel⟩)⟩, rfl, .inr (.inr ⟨rfl, by decide +kernel, by decide +kernel⟩)⟩

/-- Each command in a session with room. -/
theorem witness_BitWriterCommandsAppendTheirBits :
    writing.cfg.wellFormed = true ∧ writerHolds writing 1 written ∧
    (∀ i ∈ [Instr.bwPutb, .bwPuts, .bwPutsym], mayWrite i writing ∧
      8 * 1 + written.length + (bitsToWrite i writing).length ≤ 8 * writing.cfg.obufSize) := by
  refine ⟨by decide +kernel, writing_holds, ?_⟩
  intro i hi
  simp only [List.mem_cons, List.not_mem_nil, or_false] at hi
  obtain rfl | rfl | rfl := hi
  · exact ⟨writing_mayWrite.1, by decide +kernel⟩
  · exact ⟨writing_mayWrite.2.1, by decide +kernel⟩
  · exact ⟨writing_mayWrite.2.2, by decide +kernel⟩

/-- The end of OBUF, nothing written yet. -/
def full : State := { coded3 with arg0 := 0x61, arg1 := 1, bwOpen := true, bwPos := 65536, bwAcc := 0, bwCnt := 0 }

/-- Each command in a session without room. -/
theorem witness_BitWriterOverflowKeepsTheBitsThatFit :
    full.cfg.wellFormed = true ∧ writerHolds full 65536 [] ∧ 8 * 65536 + ([] : List Bool).length ≤ 8 * full.cfg.obufSize ∧
    (∀ i ∈ [Instr.bwPutb, .bwPuts, .bwPutsym], mayWrite i full ∧
      8 * full.cfg.obufSize < 8 * 65536 + ([] : List Bool).length + (bitsToWrite i full).length) := by
  refine ⟨by decide +kernel, ?_, by decide +kernel, ?_⟩
  · refine ⟨by decide +kernel, by decide +kernel, fun j hj => absurd hj (Nat.not_lt_zero j), ?_⟩
    show ∀ i, i < 8 → (0 : Byte).getLsbD (7 - i) = _
    decide
  · intro i hi
    simp only [List.mem_cons, List.not_mem_nil, or_false] at hi
    obtain rfl | rfl | rfl := hi
    · exact ⟨⟨rfl, .inl rfl⟩, by decide +kernel⟩
    · exact ⟨⟨rfl, .inr (.inl ⟨rfl, by decide +kernel⟩)⟩, by decide +kernel⟩
    · exact ⟨⟨rfl, .inr (.inr ⟨rfl, by decide +kernel, by decide +kernel⟩)⟩, by decide +kernel⟩

/-- Each clause: no session; 33 bits; no codes; a symbol without a code. -/
theorem witness_BitWriterRefusals :
    State.reset.bwOpen = false ∧ Instr.bwFinal ∈ [Instr.bwPutb, .bwPuts, .bwPutsym, .bwFinal] ∧
    (let s := { State.reset with bwOpen := true, arg1 := 33 }; s.bwOpen = true ∧ 32 < s.arg1.toNat ∧ s.ctValid = false) ∧
    (let s := { session3 with arg0 := 0x7A }; s.bwOpen = true ∧ s.ctValid = true ∧ s.ct.at (s.arg0.setWidth 8) = []) := by
  refine ⟨rfl, by decide, ⟨rfl, by decide, rfl⟩, rfl, ?_, ?_⟩ <;> decide +kernel

theorem witness_BwFinalPacksTheSession :
    writing.cfg.wellFormed = true ∧ writing.bwOpen = true ∧ writerHolds writing 1 written ∧
      8 * 1 + written.length ≤ 8 * writing.cfg.obufSize := ⟨by decide +kernel, rfl, writing_holds, by decide +kernel⟩

/-- Each clause: an offset beyond the input; too much padding, by each of its two bounds; the largest padding of one byte. -/
theorem witness_BrInitWrapsTheBuffer :
    State.reset.cfg.wellFormed = true ∧ ({ State.reset with inLen := 6 } : State).inLen.toNat ≤ State.reset.cfg.ibufSize ∧
    (let s := { State.reset with inLen := 6, arg0 := 7 }; s.inLen.toNat < s.arg0.toNat) ∧
    (let s := { State.reset with inLen := 6, arg1 := 8 }; s.arg0.toNat ≤ s.inLen.toNat ∧ 7 < s.arg1.toNat) ∧
    (let s := { State.reset with inLen := 6, arg0 := 6, arg1 := 1 }
     s.arg0.toNat ≤ s.inLen.toNat ∧ 8 * (s.inLen.toNat - s.arg0.toNat) < s.arg1.toNat) ∧
    (let s := { State.reset with inLen := 6, arg0 := 5, arg1 := 7 }
     s.arg0.toNat ≤ s.inLen.toNat ∧ s.arg1.toNat ≤ 7 ∧ s.arg1.toNat ≤ 8 * (s.inLen.toNat - s.arg0.toNat)) := by decide

/-- The last bit of the last byte of IBUF. -/
theorem witness_BrGetbReturnsTheNextBit :
    let s := { State.reset with brOpen := true, brBase := 65535, brPos := 7, brValid := 8 }
    s.cfg.wellFormed = true ∧ s.brOpen = true ∧ s.brPos.toNat < s.brValid.toNat ∧
      8 * s.brBase.toNat + s.brValid.toNat ≤ 8 * s.cfg.ibufSize := by decide

/-- Each clause: no session; no bit left; a tree that is absent, and one that is SINGLE. -/
theorem witness_BitReaderRefusals :
    State.reset.brOpen = false ∧ Instr.brGetsym ∈ [Instr.brGetb, .brGetsym] ∧
    (let s := { State.reset with brOpen := true }; s.brOpen = true ∧ s.brValid.toNat ≤ s.brPos.toNat ∧ s.treeValid = false) ∧
    (let s := { State.reset with brOpen := true, treeValid := true, treeKind := .single }
     s.brOpen = true ∧ s.treeKind ≠ .multi) := by decide

/-- V72's four bits `1110`, packed as `E0` with four pad bits. -/
theorem witness_BitReaderReturnsThePackedBits :
    let s := { load [0xE0] State.reset with arg1 := 4 }
    let w := [true, true, true, false]
    s.cfg.wellFormed = true ∧ s.inLen.toNat ≤ s.cfg.ibufSize ∧ s.inLen.toNat = s.arg0.toNat + ceil8 w.length ∧
      s.arg1.toNat = padOf w.length ∧ holdsBits s.ibufByte s.arg0.toNat w := by
  refine ⟨by decide, by decide, by decide, by decide, ?_⟩
  intro j hj
  obtain rfl : j = 0 := by simp [ceil8] at hj; omega
  decide

/-- V82's first symbol. -/
theorem witness_BrGetsymWalksToTheLeaf :
    let s := { session3 with brPos := 0 }
    s.cfg.wellFormed = true ∧ s.brOpen = true ∧ s.treeValid = true ∧ s.treeKind = .multi ∧
      8 * s.brBase.toNat + s.brValid.toNat ≤ 8 * s.cfg.ibufSize ∧ s.brPos.toNat + [true].length ≤ s.brValid.toNat ∧
      upcoming s [true].length = [true] ∧ s.node.leadsTo s.root [true] 0x61 = true := by
  refine ⟨?_, ?_, ?_, ?_, ?_, ?_, ?_, ?_⟩ <;> decide +kernel

/-- V82's fifth BR_GETSYM. -/
theorem witness_BrGetsymReportsAnUnfinishedCode :
    session3.Inv ∧ session3.brOpen = true ∧ session3.treeValid = true ∧ session3.treeKind = .multi ∧
      (∀ n, session3.brPos.toNat + n ≤ session3.brValid.toNat →
        session3.node.leadsToLeaf session3.root (upcoming session3 n) = false) := by
  refine ⟨session3_inv, rfl, by decide +kernel, by decide +kernel, ?_⟩
  intro n hn
  obtain rfl : n = 0 := by
    have h1 : session3.brPos.toNat = 4 := rfl
    have h2 : session3.brValid.toNat = 4 := rfl
    omega
  decide +kernel

/-- V3, in an OBUF that the container fills. -/
def input3 : State := { load aaab State.reset with cfg := { ibufSize := 65536, obufSize := 13, freqByteOrder := .big } }

theorem witness_EncodeWritesTheContainer :
    input3.cfg.wellFormed = true ∧ input3.inLen.toNat ≤ input3.cfg.ibufSize ∧ nsym (inputTable input3) ≤ 255 ∧
      containerSize (inputTable input3) (codesOf (inputTable input3)) ≤ input3.cfg.obufSize := by
  refine ⟨?_, ?_, ?_, ?_⟩ <;> decide +kernel

/-- Each clause: V4's input, and V3's in an OBUF one byte too small. -/
theorem witness_EncodeReportsWhatDoesNotFit :
    (let s := load allSyms State.reset
     s.cfg.wellFormed = true ∧ s.inLen.toNat ≤ s.cfg.ibufSize ∧ nsym (inputTable s) = 256) ∧
    (let s := { input3 with cfg := { input3.cfg with obufSize := 12 } }
     s.cfg.wellFormed = true ∧ s.inLen.toNat ≤ s.cfg.ibufSize ∧ nsym (inputTable s) ≤ 255 ∧
       s.cfg.obufSize < containerSize (inputTable s) (codesOf (inputTable s))) := by
  refine ⟨⟨by decide, by simp [load, allSyms_length, State.reset, Config.standard], ?_⟩, ?_, ?_, ?_, ?_⟩
  · refine nsym_eq_256 fun sym => ?_
    have h : (load allSyms State.reset).inputBytes = allSyms :=
      load_inputBytes _ _ (by rw [allSyms_length]; decide)
    have h1 : allSyms.count sym = 1 := List.count_eq_one_of_mem (allSyms_ascending.imp (fun h e => by simp [e] at h)) (mem_allSyms sym)
    unfold inputTable
    rw [h, countBytes_at, h1, FreqTable.at_empty]
    decide
  all_goals decide +kernel

/-- A container in IBUF. -/
def holding (bs : List Byte) : State := load bs State.reset

theorem pairsOk_intro {s : State} (h : s.inLen.toNat ≤ s.cfg.ibufSize ∧ 1 ≤ s.inLen.toNat ∧
    2 + 5 * (s.ibufByte 0).toNat ≤ s.inLen.toNat)
    (hp : ∀ j ∈ List.range (s.ibufByte 0).toNat, (j = 0 ∨ pairSym s (j - 1) < pairSym s j) ∧ pairFreq s j ≠ 0) : pairsOk s :=
  ⟨h.1, h.2.1, h.2.2, fun j hj => hp j (List.mem_range.2 hj)⟩

/-- Each clause at a vector: V38, V20, V22, V24, V25, V26, V5, V28, V30, V31, V32. -/
theorem witness_DecodeReportsTheFirstFailingCheck :
    State.reset.cfg.wellFormed = true ∧
    (let s := { State.reset with inLen := 65537 }; s.cfg.ibufSize < s.inLen.toNat) ∧ (holding []).inLen = 0 ∧
    (let s := holding [2, 0x61, 0, 0, 0, 3]
     s.inLen.toNat ≤ s.cfg.ibufSize ∧ 1 ≤ s.inLen.toNat ∧ s.inLen.toNat < 2 + 5 * (s.ibufByte 0).toNat) ∧
    (let s := holding [2, 0x61, 0, 0, 0, 3, 0x61, 0, 0, 0, 1, 4, 0xE0]
     2 + 5 * (s.ibufByte 0).toNat ≤ s.inLen.toNat ∧ 1 < (s.ibufByte 0).toNat ∧ (∀ i, i < 1 → pairOk s i) ∧
       pairSym s 1 ≤ pairSym s (1 - 1)) ∧
    (let s := holding [2, 0x61, 0, 0, 0, 0, 0x62, 0, 0, 0, 1, 4, 0xE0]
     2 + 5 * (s.ibufByte 0).toNat ≤ s.inLen.toNat ∧ 0 < (s.ibufByte 0).toNat ∧ (∀ i, i < 0 → pairOk s i) ∧ pairFreq s 0 = 0) ∧
    (let s := holding [2, 0x61, 255, 255, 255, 255, 0x62, 0, 0, 0, 1, 0, 0xE0]
     pairsOk s ∧ 2 ^ 32 ≤ headerTotal s) ∧
    (let s := holding [2, 0x61, 0, 0, 0, 3, 0x62, 0, 0, 0, 1, 9, 0xE0]
     pairsOk s ∧ headerTotal s < 2 ^ 32 ∧ 7 < headerPad s) ∧
    (let s := holding [0, 0, 0xFF]
     pairsOk s ∧ headerTotal s < 2 ^ 32 ∧ headerPad s ≤ 7 ∧ ¬ (s.ibufByte 0 = 0 ↔ payloadLen s = 0)) ∧
    (let s := holding [2, 0x61, 0, 0, 0, 3, 0x62, 0, 0, 0, 1, 4]
     pairsOk s ∧ headerTotal s < 2 ^ 32 ∧ headerPad s ≤ 7 ∧ ¬ (s.ibufByte 0 = 0 ↔ payloadLen s = 0)) ∧
    (let s := holding [0, 3]
     pairsOk s ∧ headerPad s ≤ 7 ∧ s.ibufByte 0 = 0 ∧ payloadLen s = 0 ∧ headerPad s ≠ 0) ∧
    (let s := holding [1, 0x61, 0, 1, 0, 1, 0, 0]
     pairsOk s ∧ headerTotal s < 2 ^ 32 ∧ headerPad s ≤ 7 ∧ s.ibufByte 0 ≠ 0 ∧ payloadLen s ≠ 0 ∧
       s.cfg.obufSize < headerTotal s) := by
  refine ⟨by decide, by decide, by decide, by decide +kernel, ⟨by decide +kernel, by decide +kernel, ?_, by decide +kernel⟩,
    ⟨by decide +kernel, by decide +kernel, fun i hi => absurd hi (Nat.not_lt_zero i), by decide +kernel⟩,
    ⟨pairsOk_intro (by decide +kernel) (by decide +kernel), by decide +kernel⟩,
    ⟨pairsOk_intro (by decide +kernel) (by decide +kernel), by decide +kernel⟩,
    ⟨pairsOk_intro (by decide +kernel) (by decide +kernel), by decide +kernel⟩,
    ⟨pairsOk_intro (by decide +kernel) (by decide +kernel), by decide +kernel⟩,
    ⟨pairsOk_intro (by decide +kernel) (by decide +kernel), by decide +kernel⟩,
    ⟨pairsOk_intro (by decide +kernel) (by decide +kernel), by decide +kernel⟩⟩
  intro i hi
  obtain rfl : i = 0 := by omega
  exact ⟨.inl rfl, by decide +kernel⟩

/-- V1 and V36. -/
theorem witness_DecodeHandlesEmptyAndSingleEntry :
    (let s := holding [0, 0]
     s.cfg.wellFormed = true ∧ pairsOk s ∧ headerPad s ≤ 7 ∧ s.ibufByte 0 = 0 ∧ payloadLen s = 0 ∧ headerPad s = 0) ∧
    (let s := holding [1, 0x61, 0, 0, 0, 5, 3, 0xFF]
     s.cfg.wellFormed = true ∧ pairsOk s ∧ headerPad s ≤ 7 ∧ s.ibufByte 0 = 1 ∧ payloadLen s ≠ 0 ∧
       pairFreq s 0 ≤ s.cfg.obufSize) :=
  ⟨⟨by decide, pairsOk_intro (by decide +kernel) (by decide +kernel), by decide +kernel⟩,
    by decide, pairsOk_intro (by decide +kernel) (by decide +kernel), by decide +kernel⟩

theorem table3_isHeader (pad : Byte) (f : Nat → Byte)
    (h : (List.range 12).map f = [2, 0x61, 0, 0, 0, 3, 0x62, 0, 0, 0, 1, pad]) : isHeader f table3 pad.toNat := by
  simp [List.range_succ] at h
  obtain ⟨h0, h1, h2, h3, h4, h5, h6, h7, h8, h9, h10, h11⟩ := h
  refine ⟨by rw [table3_nsym, h0]; rfl, ?_, by rw [table3_nsym]; exact congrArg BitVec.toNat h11⟩
  intro j e he
  rw [table3_pairs] at he
  match j with
  | 0 => cases he; simp [h1, h2, h3, h4, h5]
  | 1 => cases he; simp [h6, h7, h8, h9, h10]
  | n + 2 => simp at he

/-- V3's container: the payload bits `1110` spell "aaab". -/
theorem witness_DecodeEmitsTheSpelledMessage :
    let s := holding container3
    s.cfg.wellFormed = true ∧ s.inLen.toNat ≤ s.cfg.ibufSize ∧ 2 ≤ nsym table3 ∧ nsym table3 ≤ 255 ∧
      2 + 5 * nsym table3 < s.inLen.toNat ∧ 4 ≤ 7 ∧ isHeader s.ibufByte table3 4 ∧ aaab.length = total table3 ∧
      total table3 ≤ s.cfg.obufSize ∧
      spells (treeOf table3) (rootOf (treeRecords table3)) (payloadBits s (nsym table3) 4) aaab := by
  refine ⟨by decide, by decide, by rw [table3_nsym], by rw [table3_nsym]; decide, by rw [table3_nsym]; decide, by decide,
    table3_isHeader 4 _ (by decide +kernel), by decide +kernel, by decide +kernel, ?_⟩
  unfold treeOf
  rw [table3_nsym, test_tree_V3, show payloadBits (holding container3) 2 4 = [true, true, true, false] by decide +kernel]
  exact ⟨[true], [true, true, false], rfl, by decide +kernel, [true], [true, false], rfl, by decide +kernel, [true], [false],
    rfl, by decide +kernel, [false], [], rfl, by decide +kernel, trivial⟩

/-- V34: one valid bit, one symbol. -/
theorem witness_DecodeReportsAnExhaustedPayload :
    let s := holding [2, 0x61, 0, 0, 0, 3, 0x62, 0, 0, 0, 1, 7, 0xE0]
    s.cfg.wellFormed = true ∧ s.inLen.toNat ≤ s.cfg.ibufSize ∧ 2 ≤ nsym table3 ∧ nsym table3 ≤ 255 ∧
      2 + 5 * nsym table3 < s.inLen.toNat ∧ 7 ≤ 7 ∧ isHeader s.ibufByte table3 7 ∧ [(0x61 : Byte)].length < total table3 ∧
      total table3 ≤ s.cfg.obufSize ∧
      spellsThenEnds (treeOf table3) (rootOf (treeRecords table3)) (payloadBits s (nsym table3) 7) [0x61] := by
  refine ⟨by decide, by decide, by rw [table3_nsym], by rw [table3_nsym]; decide, by rw [table3_nsym]; decide, by decide,
    table3_isHeader 7 _ (by decide +kernel), by decide +kernel, by decide +kernel, ?_⟩
  unfold treeOf
  rw [table3_nsym, test_tree_V3, show payloadBits (holding [2, 0x61, 0, 0, 0, 3, 0x62, 0, 0, 0, 1, 7, 0xE0]) 2 7 = [true]
    by decide +kernel]
  refine ⟨[true], [], rfl, by decide +kernel, ?_⟩
  intro n hn
  obtain rfl : n = 0 := by simpa using hn
  decide +kernel

/-- V3: the container of "aaab", copied to IBUF. -/
theorem witness_DecodeOfEncodeIsTheInput :
    let t := after (exec .encode input3)
    let u := { State.reset with ibuf := t.obuf, inLen := t.outLen }
    input3.cfg.wellFormed = true ∧ input3.err = false ∧ exec .encode input3 = .next t ∧ t.err = false ∧
      u.cfg.wellFormed = true ∧ u.err = false ∧ u.inLen = t.outLen ∧ t.outLen.toNat ≤ u.cfg.ibufSize ∧
      input3.inLen.toNat ≤ u.cfg.obufSize ∧ (∀ a, a < t.outLen.toNat → u.ibufByte a = t.obufByte a) := by
  have hall : ∀ a ∈ List.range 13, ((after (exec .encode input3)).obuf.lookup a).isSome = true := by decide +kernel
  have hlen : (after (exec .encode input3)).outLen.toNat = 13 := by decide +kernel
  refine ⟨by decide, rfl, eq_next_after (by decide +kernel), by decide +kernel, by decide, rfl, rfl, by rw [hlen]; decide,
    by decide, ?_⟩
  intro a ha
  rw [hlen] at ha
  have h := hall a (List.mem_range.2 ha)
  obtain ⟨v, hv⟩ := Option.isSome_iff_exists.1 h
  simp only [State.ibufByte, State.obufByte, hv]

end Sys2Proof.Tests
end

section
/-! Host accesses: what one access does to a block that is not BUSY, said once for each window of the address map
(rules R45 to R48), and the words the windows show (rules R13, R15, R24, R25). -/

namespace Sys2Proof.Machine

/-! ### The next event -/

theorem step_access {s : State} {a : Access} {es : List Event} (h : accessNext s a es) :
    step s = .next (hostAccess a { s with inputs := es }) := by
  rw [accessNext] at h
  rw [step, h]

theorem step_reset {s : State} {es : List Event} (h : s.inputs = .reset :: es) :
    step s = .next (resetInput { s with inputs := es }) := by
  rw [step, h]

/-! ### The address map (rule R45) -/

theorem elementAt_reg (c : Config) {o : Nat} (h : o < 0x100) : elementAt c o = .reg o := if_pos h

theorem elementAt_ft (c : Config) (sym : Byte) : elementAt c (0x400 + 4 * sym.toNat) = .ft sym := by
  have hsym := sym.isLt
  have hdiv : (0x400 + 4 * sym.toNat - 0x400) / 4 = sym.toNat := by omega
  rw [elementAt, if_neg (by omega), if_pos (by omega), hdiv, BitVec.ofNat_toNat, BitVec.setWidth_eq]

theorem elementAt_ct (c : Config) (sym : Byte) {w : Nat} (hw : w < 16) :
    elementAt c (0x2000 + 64 * sym.toNat + 4 * w) = .ct sym w := by
  have hsym := sym.isLt
  have hdiv : (0x2000 + 64 * sym.toNat + 4 * w - 0x2000) / 64 = sym.toNat := by omega
  have hmod : (0x2000 + 64 * sym.toNat + 4 * w - 0x2000) % 64 / 4 = w := by omega
  rw [elementAt, if_neg (by omega), if_neg (by omega), if_pos (by omega), hdiv, hmod, BitVec.ofNat_toNat,
    BitVec.setWidth_eq]

theorem elementAt_node (c : Config) {i w : Nat} (hi : i ≤ 511) (hw : w < 8) :
    elementAt c (0x8000 + 32 * i + 4 * w) = .node i w := by
  have hdiv : (0x8000 + 32 * i + 4 * w - 0x8000) / 32 = i := by omega
  have hmod : (0x8000 + 32 * i + 4 * w - 0x8000) % 32 / 4 = w := by omega
  rw [elementAt, if_neg (by omega), if_neg (by omega), if_neg (by omega), if_pos (by omega), hdiv, hmod]

/-- The offsets of the two windows the host can only read (rules R24, R25). -/
theorem elementAt_readOnlyWindow (c : Config) {o : Nat}
    (h : (0x2000 ≤ o ∧ o ≤ 0x5FFF) ∨ (0x8000 ≤ o ∧ o ≤ 0xBFFF)) :
    (∃ sym w, elementAt c o = .ct sym w) ∨ ∃ i w, elementAt c o = .node i w := by
  rcases h with ⟨hlo, hhi⟩ | ⟨hlo, hhi⟩
  · exact .inl ⟨_, _, by rw [elementAt, if_neg (by omega), if_neg (by omega), if_pos (by omega)]⟩
  · exact .inr ⟨_, _, by rw [elementAt, if_neg (by omega), if_neg (by omega), if_neg (by omega), if_pos (by omega)]⟩

/-! ### Accesses of a block that is not BUSY (rules R46, R47) -/

section Idle

variable {s : State} {o : Word} (hb : s.busy = false) (ho : o.toNat % 4 = 0)
include hb ho

theorem hostAccess_read32_reg (hr : o.toNat < 0x100) :
    hostAccess (.read32 o) s = { s with answer := .word (readReg s o.toNat) } := by
  simp [hostAccess, hb, hostRead32, ho, elementAt_reg _ hr]

theorem hostAccess_write32_reg (v : Word) (hr : o.toNat < 0x100) :
    hostAccess (.write32 o v) s = { writeReg o.toNat v s with answer := .none } := by
  simp [hostAccess, hb, hostWrite32, ho, elementAt_reg _ hr]

theorem hostAccess_read32_ft {sym : Byte} (hs : elementAt s.cfg o.toNat = .ft sym) :
    hostAccess (.read32 o) s = { s with answer := .word (s.ft.at sym) } := by
  simp [hostAccess, hb, hostRead32, ho, hs]

theorem hostAccess_write32_ft (v : Word) {sym : Byte} (hs : elementAt s.cfg o.toNat = .ft sym) :
    hostAccess (.write32 o v) s = { s.writeFt (s.ft.put sym v) with answer := .none } := by
  simp [hostAccess, hb, hostWrite32, ho, hs]

theorem hostAccess_read32_ct {sym : Byte} {w : Nat} (hs : elementAt s.cfg o.toNat = .ct sym w) :
    hostAccess (.read32 o) s = { s with answer := .word (readCtWord s sym w) } := by
  simp [hostAccess, hb, hostRead32, ho, hs]

theorem hostAccess_read32_node {i w : Nat} (hs : elementAt s.cfg o.toNat = .node i w) :
    hostAccess (.read32 o) s = { s with answer := .word (readNodeWord s i w) } := by
  simp [hostAccess, hb, hostRead32, ho, hs]

/-- The windows onto the code table and onto node memory ignore a write (rules R24, R25). -/
theorem hostAccess_write32_readOnlyWindow (v : Word)
    (hw : (0x2000 ≤ o.toNat ∧ o.toNat ≤ 0x5FFF) ∨ (0x8000 ≤ o.toNat ∧ o.toNat ≤ 0xBFFF)) :
    hostAccess (.write32 o v) s = { s with answer := .none } := by
  obtain ⟨sym, w, he⟩ | ⟨i, w, he⟩ := elementAt_readOnlyWindow s.cfg hw <;>
    simp [hostAccess, hb, hostWrite32, ho, he]

end Idle

/-! ### Words made of fields -/

/-- A flag shows at its own bit and nowhere else. -/
theorem getLsbD_flagAt {n : Nat} (hn : n < 32) (b : Bool) (i : Nat) : (flagAt n b).getLsbD i = (b && decide (i = n)) := by
  cases b with
  | false => simp [flagAt]
  | true =>
    simp only [flagAt, if_true, BitVec.getLsbD_shiftLeft, BitVec.getLsbD_one, Bool.true_and]
    grind

/-- A field above `k` bits of another one: the word's value is the sum (rules R13, R24). -/
theorem toNat_shiftLeft_or {x y : Word} {k : Nat} (hy : y.toNat < 2 ^ k) (hx : x.toNat * 2 ^ k < 2 ^ 32) :
    (x <<< k ||| y).toNat = x.toNat * 2 ^ k + y.toNat := by
  rw [BitVec.toNat_or, BitVec.toNat_shiftLeft, Nat.shiftLeft_eq, Nat.mod_eq_of_lt hx, ← Nat.shiftLeft_eq,
    Nat.shiftLeft_add_eq_or_of_lt hy]

/-- The two enable bits of IE (rule R19). -/
theorem toNat_ieWord (a b : Bool) : (flagAt 0 a ||| flagAt 1 b).toNat = a.toNat + 2 * b.toNat := by
  cases a <;> cases b <;> rfl

/-- The two upper bits of a bit counter (rules R13, R27). -/
theorem toNat_upperBits (x : BitCount) : ((x.extractLsb' 32 2).setWidth 32).toNat = x.toNat / 2 ^ 32 := by
  have hx := x.isLt
  rw [BitVec.toNat_setWidth, BitVec.extractLsb'_toNat, Nat.shiftRight_eq_div_pow]
  omega

/-- The bits of STATUS, one flag after the other (rule R15). -/
theorem getLsbD_statusWord (s : State) (i : Nat) :
    (statusWord s).getLsbD i =
      (s.busy && decide (i = 0) || s.done && decide (i = 1) || s.err && decide (i = 2) || s.fatal && decide (i = 3) ||
        hostviolShown s && decide (i = 4) || irq s && decide (i = 5) || s.treeValid && decide (i = 8) ||
        s.ctValid && decide (i = 9) || (decide (i < 32) && !decide (i < 10) && s.treeKind.bits.getLsbD (i - 10)) ||
        s.bwOpen && decide (i = 12) || s.brOpen && decide (i = 13) || brEmpty s && decide (i = 14)) := by
  have hkind : ((s.treeKind.bits.setWidth 32) <<< 10).getLsbD i =
      (decide (i < 32) && !decide (i < 10) && s.treeKind.bits.getLsbD (i - 10)) := by
    rw [BitVec.getLsbD_shiftLeft, BitVec.getLsbD_setWidth]
    grind
  simp (disch := decide) only [statusWord, BitVec.getLsbD_or, getLsbD_flagAt, hkind]

/-- INFO (rule R24): valid, kind, `inq`, then the symbol from bit 8 on. -/
theorem toNat_infoWord (valid inq : Bool) (kind : NodeKind) (sym : Byte) :
    (flagAt 0 valid ||| flagAt 1 kind.bit ||| flagAt 2 inq ||| (sym.setWidth 32 <<< 8)).toNat =
      (if valid then 1 else 0) + (if kind = .internal then 2 else 0) + (if inq then 4 else 0) + sym.toNat * 2 ^ 8 := by
  have hsym := sym.isLt
  have hflags : (flagAt 0 valid ||| flagAt 1 kind.bit ||| flagAt 2 inq).toNat =
      (if valid then 1 else 0) + (if kind = .internal then 2 else 0) + (if inq then 4 else 0) := by
    cases valid <;> cases kind <;> cases inq <;> rfl
  have hlow : (flagAt 0 valid ||| flagAt 1 kind.bit ||| flagAt 2 inq).toNat < 2 ^ 8 := by
    rw [hflags]
    split <;> split <;> split <;> decide
  rw [BitVec.or_comm, toNat_shiftLeft_or hlow, hflags] <;> simp only [BitVec.toNat_setWidth] <;> omega

/-- WEIGHT_HI (rule R24). -/
theorem toNat_weightHigh (w : Weight) : (w.extractLsb' 32 32).toNat = w.toNat / 2 ^ 32 := by
  have hw := w.isLt
  rw [BitVec.extractLsb'_toNat, Nat.shiftRight_eq_div_pow]
  omega

/-- A fold that sets flags one by one: a bit of the result comes from the start value or from one of the flags. -/
theorem getLsbD_foldl_flagAt (pos : Nat → Nat) (bit : Nat → Bool) (is : List Nat) (hpos : ∀ i ∈ is, pos i < 32) (w : Word)
    (n : Nat) :
    (is.foldl (fun w i => w ||| flagAt (pos i) (bit i)) w).getLsbD n =
      (w.getLsbD n || is.any (fun i => bit i && decide (n = pos i))) := by
  induction is generalizing w with
  | nil => simp
  | cons i is ih =>
    rw [List.foldl_cons, ih (fun j hj => hpos j (List.mem_cons_of_mem _ hj)), BitVec.getLsbD_or,
      getLsbD_flagAt (hpos i List.mem_cons_self), List.any_cons, Bool.or_assoc]

/-- The packed code (rule R25): bit `31 − i` of word `j` is bit `32·j + i` of the code, 0 beyond its end. -/
theorem getLsbD_codeWord (c : Code) (j : Nat) {i : Nat} (hi : i < 32) :
    (codeWord c j).getLsbD (31 - i) = c.getD (32 * j + i) false := by
  rw [codeWord, getLsbD_foldl_flagAt (fun i => 31 - i) (fun i => c.getD (32 * j + i) false) _ (fun _ _ => by omega)]
  rw [show BitVec.getLsbD (0 : Word) (31 - i) = false from BitVec.getLsbD_zero, Bool.false_or, Bool.eq_iff_iff,
    List.any_eq_true]
  constructor
  · rintro ⟨m, hm, hbit⟩
    simp only [Bool.and_eq_true, decide_eq_true_eq] at hbit
    have hm' := List.mem_range.1 hm
    obtain rfl : m = i := by omega
    exact hbit.1
  · intro h
    exact ⟨i, List.mem_range.2 hi, by simp only [h, decide_true, Bool.and_self]⟩

/-- A write to a read-only register or to a reserved offset is ignored (rule R13). -/
theorem writeReg_ignored {o : Nat} (h : o ∉ [0x00, 0x04, 0x10, 0x14, 0x20, 0x24]) (v : Word) (s : State) :
    writeReg o v s = s := by
  simp only [List.mem_cons, List.not_mem_nil, or_false, not_or] at h
  obtain ⟨h0, h4, h10, h14, h20, h24⟩ := h
  simp only [writeReg]

/-- The last four words of a node record read 0 (rule R24). -/
theorem readNodeWord_reserved {w : Nat} (h : 4 ≤ w) (s : State) (i : Nat) : readNodeWord s i w = 0 := by
  obtain ⟨n, rfl⟩ := Nat.exists_eq_add_of_le' h
  rfl

/-- There is no record 511: it reads 0 (rule R24). -/
theorem readNodeWord_511 {s : State} (h : s.nnodes.toNat ≤ 511) (w : Nat) : readNodeWord s 511 w = 0 := by
  have hrec : s.recAt 511 = NodeRec.cleared := by simp [State.recAt]
  have hvalid : decide (511 < s.nnodes.toNat) = false := decide_eq_false (by omega)
  rcases Nat.lt_or_ge w 4 with hw | hw
  · obtain rfl | rfl | rfl | rfl : w = 0 ∨ w = 1 ∨ w = 2 ∨ w = 3 := by omega
    all_goals simp only [readNodeWord, hrec, hvalid]; decide
  · exact readNodeWord_reserved hw s 511

/-- The reserved offsets read 0 (rule R13). -/
theorem readReg_reserved {o : Nat} (h : o = 0x1C ∨ o = 0x5C ∨ 0x68 ≤ o) (s : State) : readReg s o = 0 := by
  unfold readReg
  split
  case h_25 => rfl
  all_goals omega

end Sys2Proof.Machine
end

section
open Sys2Proof Sys2Proof.Machine

/-- Settles O7: a BUSY block takes the write as a violation, a FATAL one drops it, an IDLE one accepts it. -/
theorem cmdWriteIsAcceptedOnlyInIdle : Obligations.CmdWriteIsAcceptedOnlyInIdle := by
  unfold Obligations.CmdWriteIsAcceptedOnlyInIdle
  intro s w es h
  rw [step_access h]
  refine ⟨fun hb => ?_, fun hb hf => ?_, fun hb hf => ?_⟩
  · simp [hostAccess, hb, violate]
  · rw [hostAccess_write32_reg (s := { s with inputs := es }) hb rfl w (by decide)]
    simp [writeReg, writeCmd, hf]
  · rw [hostAccess_write32_reg (s := { s with inputs := es }) hb rfl w (by decide)]
    simp [writeReg, writeCmd, hf, acceptWord]

/-- Settles O12: the write reaches `writeStatus`, whose two masks are the two conditionals. -/
theorem statusWriteAcknowledgesDoneAndErr : Obligations.StatusWriteAcknowledgesDoneAndErr := by
  unfold Obligations.StatusWriteAcknowledgesDoneAndErr
  intro s v es hb h
  rw [step_access h, hostAccess_write32_reg (s := { s with inputs := es }) hb rfl v (by decide)]
  have hclear (b c : Bool) : (b && !c) = if c then false else b := by cases b <;> cases c <;> rfl
  simp only [writeReg, writeStatus, hclear]
  rfl

/-- Settles O14: the four storing registers one by one, the others of the register space by `writeReg_ignored`, the two windows
by the address map. -/
theorem hostRegisterWritesOnlyStore : Obligations.HostRegisterWritesOnlyStore := by
  unfold Obligations.HostRegisterWritesOnlyStore
  intro s v es hb
  have hreg {o : Word} (ho : o.toNat % 4 = 0) (hr : o.toNat < 0x100) (h : accessNext s (.write32 o v) es) :
      step s = .next { writeReg o.toNat v { s with inputs := es } with answer := .none } := by
    rw [step_access h, hostAccess_write32_reg (s := { s with inputs := es }) hb ho v hr]
  refine ⟨hreg rfl (by decide), hreg rfl (by decide), hreg rfl (by decide), hreg rfl (by decide), ?_, ?_⟩
  · intro o ho hr hne h
    have hne' : o.toNat ∉ [0x00, 0x04, 0x10, 0x14, 0x20, 0x24] := by
      intro hmem
      apply hne
      simp only [List.mem_cons, List.not_mem_nil, or_false, ← BitVec.toNat_inj] at hmem ⊢
      exact hmem
    rw [hreg ho (by omega) h, writeReg_ignored hne']
  · intro o ho hw h
    rw [step_access h, hostAccess_write32_readOnlyWindow (s := { s with inputs := es }) hb ho v hw]

/-- Settles O15: the answer is `readReg`, whose branch for each offset is the content rule R13 names. -/
theorem registerReadsReturnTheirContent : Obligations.RegisterReadsReturnTheirContent := by
  unfold Obligations.RegisterReadsReturnTheirContent
  intro s o es hb ho hr h
  refine ⟨readReg s o.toNat, ?_, ?_⟩
  · rw [step_access h, hostAccess_read32_reg (s := { s with inputs := es }) hb ho (by omega)]
    rfl
  have htotal := total_lt s.ft
  have hnsym := nsym_le s.ft
  have hroot := s.root.isLt
  have hnnodes := s.nnodes.isLt
  have hacc := s.bwAcc.isLt
  have hcnt := s.bwCnt.isLt
  have htree : (readReg s 0x3C).toNat = s.root.toNat + s.nnodes.toNat * 2 ^ 16 := by
    rw [readReg, toNat_shiftLeft_or] <;> simp only [BitVec.toNat_setWidth] <;> omega
  have hwriter : (readReg s 0x44).toNat = s.bwAcc.toNat + s.bwCnt.toNat * 2 ^ 8 := by
    rw [readReg, toNat_shiftLeft_or] <;> simp only [BitVec.toNat_setWidth] <;> omega
  refine ⟨?_, ?_, ?_, ?_, ?_, ?_, ?_, ?_, ?_, ?_, ?_, ?_, ?_, ?_, ?_, ?_, ?_, ?_, ?_, ?_, ?_, ?_, ?_, ?_,
    fun hres => readReg_reserved hres s⟩ <;> rintro rfl
  case refine_3 => exact BitVec.toNat_setWidth_of_le (by decide)
  case refine_5 => exact toNat_ieWord _ _
  case refine_12 => exact Nat.mod_eq_of_lt (by omega)
  case refine_14 => exact Nat.mod_eq_of_lt (by omega)
  case refine_15 => exact htree
  case refine_17 => exact hwriter
  case refine_19 => exact BitVec.toNat_setWidth _ _
  case refine_20 => exact toNat_upperBits _
  case refine_21 => exact BitVec.toNat_setWidth _ _
  case refine_22 => exact toNat_upperBits _
  all_goals rfl

/-- Settles O11: `getLsbD` of the union of the flags, each at its own bit. -/
theorem statusShowsEachFlagAtItsBit : Obligations.StatusShowsEachFlagAtItsBit := by
  unfold Obligations.StatusShowsEachFlagAtItsBit
  intro s
  have hkind : (statusWord s).extractLsb' 10 2 = s.treeKind.bits := by
    refine BitVec.eq_of_getLsbD_eq fun i hi => ?_
    rw [BitVec.getLsbD_extractLsb', getLsbD_statusWord]
    obtain rfl | rfl : i = 0 ∨ i = 1 := by omega
    · simp
    · simp
  rw [hkind]
  simp only [getLsbD_statusWord]
  refine ⟨?_, ?_, ?_, ?_, ?_, ?_, ?_, ?_, ?_, ?_, ?_, ?_, ?_, ?_, fun n hn => ?_⟩
  case refine_11 => cases s.treeKind <;> rfl
  case refine_15 =>
    have hbeyond : s.treeKind.bits.getLsbD (n - 10) = false := BitVec.getLsbD_of_ge _ _ (by omega)
    have hne (m : Nat) (hm : m < 15) : decide (n = m) = false := decide_eq_false (by omega)
    simp [hbeyond, hne]
  all_goals simp [hostviolShown, brEmpty]

/-- Settles O16: the write is `writeFt` of the table with one entry put, and the read finds that entry. -/
theorem hostFtWriteStoresAndInvalidates : Obligations.HostFtWriteStoresAndInvalidates := by
  unfold Obligations.HostFtWriteStoresAndInvalidates
  intro s sym o v es hb ho h
  have halign : o.toNat % 4 = 0 := by omega
  have hel (c : Config) : elementAt c o.toNat = .ft sym := by rw [ho, elementAt_ft]
  have hread (t : State) (ht : t.busy = false) (hn : accessNext t (.read32 o) es) :
      step t = .next { t with inputs := es, answer := .word (t.ft.at sym) } := by
    rw [step_access hn, hostAccess_read32_ft (s := { t with inputs := es }) ht halign (hel _)]
  refine ⟨{ s.writeFt (s.ft.put sym v) with inputs := .access (.read32 o) :: es, answer := .none }, ?_, ?_, ?_, rfl, ?_⟩
  · rw [step_access h, hostAccess_write32_ft (s := { s with inputs := .access (.read32 o) :: es }) hb halign v (hel _)]
    rfl
  · exact (FreqTable.at_put _ _ _ _).trans (if_pos rfl)
  · exact fun q hq => (FreqTable.at_put _ _ _ _).trans (if_neg hq)
  · rw [hread]
    · simp
    · exact hb
    · rfl

/-- Settles O18: the answer is `readNodeWord`, each of whose words is a sum of fields. -/
theorem nodeWindowShowsTheRecords : Obligations.NodeWindowShowsTheRecords := by
  unfold Obligations.NodeWindowShowsTheRecords
  intro s i w o es hb hi hw ho h
  have hel : elementAt s.cfg o.toNat = .node i w := by rw [ho, elementAt_node _ hi hw]
  refine ⟨readNodeWord s i w, ?_, ?_, ?_, ?_, ?_, ?_, ?_⟩
  · rw [step_access h, hostAccess_read32_node (s := { s with inputs := es }) hb (by omega) hel]
    rfl
  · rintro rfl
    simpa only [readNodeWord, decide_eq_true_eq] using
      toNat_infoWord (decide (i < s.nnodes.toNat)) (s.recAt i).inq (s.recAt i).kind (s.recAt i).sym
  · rintro rfl
    have hl := (s.recAt i).left.isLt
    have hr := (s.recAt i).right.isLt
    rw [readNodeWord, BitVec.or_comm, toNat_shiftLeft_or] <;> simp only [BitVec.toNat_setWidth] <;> omega
  · rintro rfl
    exact BitVec.extractLsb'_toNat _ _ _
  · rintro rfl
    exact toNat_weightHigh _
  · exact fun hw4 => readNodeWord_reserved hw4 s i
  · rintro rfl hn
    exact readNodeWord_511 hn w

/-- Settles O19: the answer is `readCtWord`, whose packed words are read bit by bit. -/
theorem codeWindowShowsTheCodes : Obligations.CodeWindowShowsTheCodes := by
  unfold Obligations.CodeWindowShowsTheCodes
  intro s sym w o es hb hlen hw ho h
  have hel : elementAt s.cfg o.toNat = .ct sym w := by rw [ho, elementAt_ct _ _ hw]
  refine ⟨readCtWord s sym w, ?_, ?_, ?_, ?_⟩
  · rw [step_access h, hostAccess_read32_ct (s := { s with inputs := es }) hb (by omega) hel]
    rfl
  · rintro rfl
    have hlen' : (s.ct.at sym).length ≤ 255 := hlen
    rw [readCtWord, if_pos rfl, CodeTable.len, BitVec.toNat_ofNat]
    omega
  · intro h1 h7
    rw [readCtWord, if_neg (by omega), if_neg (by omega)]
  · intro h8 i hi
    rw [readCtWord, if_neg (by omega), if_pos h8, getLsbD_codeWord _ _ hi]
end

section
/-! The frame of the commands: what no pseudocode writes (rules R10, R19, R20, R28, R32, R33), proved once for every command. -/

namespace Sys2Proof.Machine

/-- The pseudocode of a command. -/
def body : Instr → State → Run Unit
  | .nop => fun s => .val () s
  | .clear => fun s => .val () (ctxClear s)
  | .freq => freqBody
  | .build => fun s => .val () (buildTree s)
  | .codegen => codegenBody
  | .bwInit => bwInitBody
  | .bwPutb => bwPutbBody
  | .bwPuts => bwPutsBody
  | .bwPutsym => bwPutsymBody
  | .bwFinal => bwFinalBody
  | .brInit => brInitBody
  | .brGetb => brGetbBody
  | .brGetsym => brGetsymBody
  | .encode => encodeBody
  | .decode => decodeBody

/-- A command runs its pseudocode and completes (rules R64, R152 to R154). -/
theorem exec_eq_finish (i : Instr) (s : State) : exec i s = finish i (body i s) := by cases i <;> rfl

/-- The elements of the state that no pseudocode writes; every other one is blanked. -/
def State.frame (s : State) : State :=
  { s with
    outLen := 0, res0 := 0, res1 := 0, ft := FreqTable.empty, node := NodeMemory.clear, nnodes := 0, root := 0
    treeValid := false, treeKind := .none, ct := CodeTable.empty, ctValid := false, bwOpen := false, bwPos := 0
    bwAcc := 0, bwCnt := 0, brOpen := false, brBase := 0, brPos := 0, brValid := 0, obuf := [], draws := 0 }

/-- `t` agrees with `s` in everything no pseudocode writes. -/
def SameFrame (s t : State) : Prop := t.frame = s.frame

theorem SameFrame.refl (s : State) : SameFrame s s := rfl

/-- Every function of the frame agrees; with a field of the frame for `f` this is the field's equation. -/
theorem SameFrame.get {α : Type} {s t : State} (h : SameFrame s t) (f : State → α) : f t.frame = f s.frame := congrArg f h

theorem SameFrame.of_eq {s t u : State} (h : t = u) (hu : u.frame = s.frame) : SameFrame s t :=
  (congrArg State.frame h).trans hu

theorem SameFrame.trans {s t u : State} (h1 : SameFrame s t) (h2 : SameFrame t u) : SameFrame s u := Eq.trans h2 h1

/-- A run that begins in a state with the frame of `s` and keeps it ends in the frame of `s`. -/
theorem Run.all_sameFrame {α : Type} {s t : State} {r : Run α} (h : SameFrame s t) (hr : r.all (SameFrame t)) :
    r.all (SameFrame s) :=
  Run.all_mono (fun _ => h.trans) hr

theorem WriterOnly.sameFrame {s t : State} (h : WriterOnly s t) : SameFrame s t := .of_eq h rfl

theorem ReaderOnly.sameFrame {s t : State} (h : ReaderOnly s t) : SameFrame s t := .of_eq h rfl

theorem putbits_sameFrame (bs : List Bool) (s : State) : (putbits bs s).all (SameFrame s) :=
  Run.all_mono (fun _ => WriterOnly.sameFrame) (putbits_writerOnly bs s)

theorem finalise_sameFrame (s : State) : (finalise s).all (SameFrame s) := by
  refine Run.all_mono ?_ (finalise_only s)
  exact fun _ h => SameFrame.of_eq h rfl

theorem getbit_sameFrame (s : State) : (getbit s).all (SameFrame s) :=
  Run.all_mono (fun _ => ReaderOnly.sameFrame) (getbit_readerOnly s)

theorem walk_sameFrame (info : Word) (s : State) : (walk info s).all (SameFrame s) :=
  Run.all_mono (fun _ => ReaderOnly.sameFrame) (walkFrom_readerOnly info _ _ s)

theorem codegenBody_sameFrame (s : State) : (codegenBody s).all (SameFrame s) := by
  refine Run.all_mono ?_ (codegenBody_only s)
  exact fun _ h => SameFrame.of_eq h rfl

theorem freqBody_sameFrame (s : State) : (freqBody s).all (SameFrame s) := by
  unfold freqBody
  split <;> exact rfl

theorem bwInitBody_sameFrame (s : State) : (bwInitBody s).all (SameFrame s) := by
  unfold bwInitBody
  split <;> exact rfl

theorem bwFinalBody_sameFrame (s : State) : (bwFinalBody s).all (SameFrame s) := by
  unfold bwFinalBody
  split
  · exact SameFrame.refl s
  · exact Run.all_bind (finalise_sameFrame s) fun _ t ht => ht

theorem bwPutsymBody_sameFrame (s : State) : (bwPutsymBody s).all (SameFrame s) := by
  unfold bwPutsymBody
  split
  · exact SameFrame.refl s
  · split
    · exact SameFrame.refl s
    · simp only
      split
      · exact SameFrame.refl s
      · exact Run.all_bind (putbits_sameFrame _ s) fun _ t ht => ht.trans rfl

theorem bwPutsBody_sameFrame (s : State) : (bwPutsBody s).all (SameFrame s) := by
  unfold bwPutsBody
  split
  · exact SameFrame.refl s
  · split
    · exact SameFrame.refl s
    · exact putbits_sameFrame _ s

theorem bwPutbBody_sameFrame (s : State) : (bwPutbBody s).all (SameFrame s) := by
  unfold bwPutbBody
  split
  · exact SameFrame.refl s
  · exact Run.all_mono (fun _ => WriterOnly.sameFrame) (putbit_writerOnly _ s)

theorem brInitBody_sameFrame (s : State) : (brInitBody s).all (SameFrame s) := by
  unfold brInitBody
  simp only
  split
  · exact SameFrame.refl s
  · split
    · exact SameFrame.refl s
    · split
      · exact SameFrame.refl s
      · split <;> exact rfl

theorem brGetbBody_sameFrame (s : State) : (brGetbBody s).all (SameFrame s) := by
  unfold brGetbBody
  split
  · exact SameFrame.refl s
  · split
    · exact SameFrame.refl s
    · exact Run.all_bind (getbit_sameFrame s) fun _ t ht => ht.trans rfl

theorem brGetsymBody_sameFrame (s : State) : (brGetsymBody s).all (SameFrame s) := by
  unfold brGetsymBody
  split
  · exact SameFrame.refl s
  · split
    · exact SameFrame.refl s
    · split
      · exact SameFrame.refl s
      · exact Run.all_bind (walk_sameFrame _ s) fun _ t ht => ht.trans rfl

theorem encodeContainer_sameFrame (s : State) : (encodeContainer s).all (SameFrame s) := by
  unfold encodeContainer
  refine Run.all_bind (P := SameFrame s) ?_ fun _ t ht => ?_
  · exact Run.all_mono (fun _ h => SameFrame.trans rfl h.sameFrame) (putSymbols_writerOnly _ _)
  · exact Run.all_bind (Run.all_sameFrame ht (finalise_sameFrame t)) fun _ u hu => hu.trans rfl

theorem encodeBody_sameFrame (s : State) : (encodeBody s).all (SameFrame s) := by
  unfold encodeBody
  split
  · exact SameFrame.refl s
  · refine Run.all_bind (P := SameFrame s) ?_ fun _ t ht => ?_
    · exact Run.all_sameFrame rfl (codegenBody_sameFrame (analyseInput s))
    · split
      · exact ht
      · split
        · exact ht
        · exact Run.all_sameFrame ht (encodeContainer_sameFrame t)

theorem readPairs_sameFrame (todo j : Nat) (prev : Option Byte) (s : State) :
    (readPairs todo j prev s).all (SameFrame s) := by
  induction todo generalizing j prev s with
  | zero => exact SameFrame.refl s
  | succ todo ih =>
    rw [readPairs]
    split
    · exact SameFrame.refl s
    · split
      · exact SameFrame.refl s
      · exact Run.all_sameFrame rfl (ih _ _ _)

theorem walkSymbols_sameFrame (todo i : Nat) (s : State) : (walkSymbols todo i s).all (SameFrame s) := by
  induction todo generalizing i s with
  | zero => exact SameFrame.refl s
  | succ todo ih =>
    exact Run.all_bind (walk_sameFrame _ s) fun _ t ht => Run.all_sameFrame (ht.trans rfl) (ih _ _)

/-- The state in which DECODE begins to walk (rule R137): the tree rebuilt, the BitReader open on the payload. -/
def openPayload (n pad paylen : Nat) (s : State) : State :=
  { buildTree s with
    res0 := BitVec.ofNat 32 pad
    res1 := BitVec.ofNat 32 n
    brBase := BitVec.ofNat 32 (2 + 5 * n)
    brValid := BitVec.ofNat 34 (8 * paylen - pad)
    brPos := 0
    brOpen := true }

/-- The end of DECODE's walk: the walked symbols become the output, or their bytes become free values (rules R137, R143). -/
def closePayload (m : Nat) : Run Unit → Run Unit
  | .val _ s => .val () { s with brOpen := false, outLen := BitVec.ofNat 32 m }
  | .raise e info s => .raise e info (drawObuf m s)
  | .fatal info s => .fatal info s
  | .stop f => .stop f

theorem decodeWalk_eq (n pad paylen m : Nat) (s : State) :
    decodeWalk n pad paylen m s = closePayload m (walkSymbols m 0 (openPayload n pad paylen s)) := rfl

theorem decodeWalk_sameFrame (n pad paylen m : Nat) (s : State) : (decodeWalk n pad paylen m s).all (SameFrame s) := by
  have h : (walkSymbols m 0 (openPayload n pad paylen s)).all (SameFrame s) :=
    Run.all_sameFrame rfl (walkSymbols_sameFrame m 0 _)
  rw [decodeWalk_eq]
  cases hr : walkSymbols m 0 (openPayload n pad paylen s) with rw [hr] at h
  | val _ t => exact SameFrame.trans h rfl
  | raise e info t => exact SameFrame.trans h rfl
  | fatal info t => exact h
  | stop f => trivial

theorem decodePayload_sameFrame (n : Nat) (last : Option Byte) (s : State) :
    (decodePayload n last s).all (SameFrame s) := by
  unfold decodePayload
  split
  · exact SameFrame.refl s
  · simp only
    split_ifs
    case neg => exact Run.all_sameFrame rfl (decodeWalk_sameFrame _ _ _ _ _)
    all_goals exact rfl

theorem decodeBody_sameFrame (s : State) : (decodeBody s).all (SameFrame s) := by
  unfold decodeBody
  split
  · exact SameFrame.refl s
  · simp only
    split
    · exact rfl
    · split
      · exact rfl
      · refine Run.all_bind (P := SameFrame s) ?_ fun _ t ht => ?_
        · exact Run.all_sameFrame rfl (readPairs_sameFrame _ _ _ _)
        · exact Run.all_sameFrame ht (decodePayload_sameFrame _ _ t)

/-- No pseudocode writes the frame. -/
theorem body_sameFrame (i : Instr) (s : State) : (body i s).all (SameFrame s) := by
  cases i with
  | nop => exact SameFrame.refl s
  | clear => exact rfl
  | freq => exact freqBody_sameFrame s
  | build => exact rfl
  | codegen => exact codegenBody_sameFrame s
  | bwInit => exact bwInitBody_sameFrame s
  | bwPutb => exact bwPutbBody_sameFrame s
  | bwPuts => exact bwPutsBody_sameFrame s
  | bwPutsym => exact bwPutsymBody_sameFrame s
  | bwFinal => exact bwFinalBody_sameFrame s
  | brInit => exact brInitBody_sameFrame s
  | brGetb => exact brGetbBody_sameFrame s
  | brGetsym => exact brGetsymBody_sameFrame s
  | encode => exact encodeBody_sameFrame s
  | decode => exact decodeBody_sameFrame s

/-- A command that completes is one of the three completions of a state with the frame of the state it began in. -/
theorem exec_next {i : Instr} {s t : State} (h : exec i s = .next t) :
    ∃ u, SameFrame s u ∧
      (t = completeNormally u ∨ (∃ e info, t = takeError (isWholeOperation i) e info u) ∨
        ∃ info, t = takeFatal info u) := by
  have hframe := body_sameFrame i s
  rw [exec_eq_finish] at h
  obtain ⟨u, hu, rfl⟩ | ⟨e, info, u, hu, rfl⟩ | ⟨info, u, hu, rfl⟩ := finish_next h <;> rw [hu] at hframe
  · exact ⟨u, hframe, .inl rfl⟩
  · exact ⟨u, hframe, .inr (.inl ⟨e, info, rfl⟩)⟩
  · exact ⟨u, hframe, .inr (.inr ⟨info, rfl⟩)⟩

/-- The part of the frame that the completions keep too: what only the host and the reset input write. -/
def State.hostPart (s : State) : State :=
  { s.frame with busy := false, done := false, err := false, fatal := false, errcode := 0, errinfo := 0 }

theorem exec_hostPart {i : Instr} {s t : State} (h : exec i s = .next t) : t.hostPart = s.hostPart := by
  obtain ⟨u, hu, hend⟩ := exec_next h
  have hpart : u.hostPart = s.hostPart :=
    hu.get fun v => { v with busy := false, done := false, err := false, fatal := false, errcode := 0, errinfo := 0 }
  obtain rfl | ⟨e, info, rfl⟩ | ⟨info, rfl⟩ := hend
  all_goals exact hpart

end Sys2Proof.Machine
end

section
open Sys2Proof Sys2Proof.Machine

/-- Settles O28: neither the pseudocode nor a completion writes the host's part of the state. -/
theorem noCommandWritesTheHostsState : Obligations.NoCommandWritesTheHostsState := by
  unfold Obligations.NoCommandWritesTheHostsState
  intro i s t h
  have get {α : Type} (f : State → α) : f t.hostPart = f s.hostPart := congrArg f (exec_hostPart h)
  exact ⟨get State.arg0, get State.arg1, get State.inLen, get State.ieDone, get State.ieErr, get State.ibuf,
    get State.cfg, get State.hostviol, get State.hostviolAtAccept, get State.cmdReg, get State.inputs, get State.answer,
    get State.resets, fun a => get (State.ibufByte · a)⟩
end

section
/-! What a host access can do, said once (rules R45 to R49), and what one step can do. -/

namespace Sys2Proof.Machine

theorem elementAt_ibuf {c : Config} {o a : Nat} (h : elementAt c o = .ibuf a) : a < c.ibufSize := by
  unfold elementAt at h
  generalize 0x40000000 = base at h
  repeat' split at h
  all_goals cases h
  omega

theorem elementAt_obuf {c : Config} {o a : Nat} (h : elementAt c o = .obuf a) : a < c.obufSize := by
  unfold elementAt at h
  generalize 0x40000000 = base at h
  generalize 0x80000000 = base' at h
  repeat' split at h
  all_goals cases h
  omega

/-- What a host access makes of the state: a violation, an answered read, or one of the writes of a block that is not BUSY. -/
inductive AccessEffect (s : State) : State → Prop where
  | violation (a : Access) : AccessEffect s (violate a s)
  | answered (v : Answer) : AccessEffect s { s with answer := v }
  | register (o : Nat) (v : Word) (idle : s.busy = false) : AccessEffect s { writeReg o v s with answer := .none }
  | frequency (ft : FreqTable) : AccessEffect s { s.writeFt ft with answer := .none }
  | inputByte (a : Nat) (v : Byte) (inside : a < s.cfg.ibufSize) :
      AccessEffect s { s with ibuf := s.ibuf.write a v, answer := .none }
  | outputByte (a : Nat) (v : Byte) (inside : a < s.cfg.obufSize) :
      AccessEffect s { s with obuf := s.obuf.write a v, answer := .none }

theorem hostRead32_effect (o : Word) (s : State) : AccessEffect s (hostRead32 o s) := by
  unfold hostRead32
  split
  · exact .violation _
  · split
    iterate 4 exact .answered _
    all_goals exact .violation _

theorem hostWrite32_effect (o v : Word) {s : State} (hb : s.busy = false) : AccessEffect s (hostWrite32 o v s) := by
  unfold hostWrite32
  split
  · exact .violation _
  · split
    · exact .register _ v hb
    · exact .frequency _
    iterate 2 exact .answered _
    all_goals exact .violation _

theorem hostRead8_effect (o : Word) (s : State) : AccessEffect s (hostRead8 o s) := by
  unfold hostRead8
  split
  iterate 2 exact .answered _
  all_goals exact .violation _

theorem hostWrite8_effect (o : Word) (v : Byte) (s : State) : AccessEffect s (hostWrite8 o v s) := by
  unfold hostWrite8
  split
  · rename_i h
    exact .inputByte _ v (elementAt_ibuf h)
  · rename_i h
    exact .outputByte _ v (elementAt_obuf h)
  all_goals exact .violation _

theorem hostAccess_effect (a : Access) (s : State) : AccessEffect s (hostAccess a s) := by
  unfold hostAccess
  split
  · split
    · exact .answered _
    · exact .violation a
  · rename_i hb
    cases a with
    | read32 o => exact hostRead32_effect o s
    | write32 o v => exact hostWrite32_effect o v (Bool.eq_false_iff.2 hb)
    | read8 o => exact hostRead8_effect o s
    | write8 o v => exact hostWrite8_effect o v s

/-- A register write keeps the fault marks (rule R32). -/
theorem writeReg_marks (o : Nat) (v : Word) (s : State) :
    (writeReg o v s).fatal = s.fatal ∧ (writeReg o v s).hostviol = s.hostviol := by
  unfold writeReg
  split
  · unfold writeCmd
    split <;> exact ⟨rfl, rfl⟩
  all_goals exact ⟨rfl, rfl⟩

/-- A host access keeps `fatal`, and does not clear `hostviol` (rule R32). -/
theorem AccessEffect.marks {s t : State} (h : AccessEffect s t) :
    t.fatal = s.fatal ∧ (s.hostviol = true → t.hostviol = true) := by
  cases h with
  | violation a => cases a <;> exact ⟨rfl, fun _ => rfl⟩
  | register o v _ =>
    obtain ⟨hf, hv⟩ := writeReg_marks o v s
    exact ⟨hf, fun h => hv.trans h⟩
  | answered v => exact ⟨rfl, id⟩
  | frequency ft => exact ⟨rfl, id⟩
  | inputByte a v _ => exact ⟨rfl, id⟩
  | outputByte a v _ => exact ⟨rfl, id⟩

theorem pairs_empty : pairs FreqTable.empty = [] := by
  refine List.eq_nil_iff_forall_not_mem.2 fun ⟨sym, f⟩ h => ?_
  obtain ⟨hat, hf⟩ := (mem_pairs _ _ _).1 h
  exact hf (hat.symm.trans (FreqTable.at_empty sym))

theorem nsym_empty : nsym FreqTable.empty = 0 := by rw [nsym, pairs_empty, List.length_nil]

theorem total_empty : total FreqTable.empty = 0 := by
  rw [total, FreqTable.empty, Vector.toList_replicate, List.map_replicate, List.sum_replicate]
  rfl

theorem recAt_clear {s : State} (h : s.node = NodeMemory.clear) (i : Nat) : s.recAt i = NodeRec.cleared := by
  rw [State.recAt, h, NodeMemory.clear, Vector.getElem?_replicate]
  split <;> rfl

/-- What a step does (rules R49, R64, R175): the sequencer's turn, an access of the host, or the reset input. -/
theorem step_cases (s : State) :
    (∃ es, turnNext s es ∧ step s = sequencerTurn { s with inputs := es }) ∨
    (∃ a es, accessNext s a es ∧ step s = .next (hostAccess a { s with inputs := es })) ∨
    (∃ es, s.inputs = .reset :: es ∧ step s = .next (resetInput { s with inputs := es })) := by
  rcases h : s.inputs with _ | ⟨_ | _ | _, es⟩
  · exact .inl ⟨[], .inr ⟨h, rfl⟩, by rw [step, h]; simp only [← h]⟩
  · exact .inr (.inl ⟨_, es, h, step_access h⟩)
  · exact .inr (.inr ⟨es, rfl, step_reset h⟩)
  · exact .inl ⟨es, .inl h, by rw [step, h]⟩

/-- A command keeps `hostviol`, and does not clear `fatal` (rule R32). -/
theorem exec_marks {i : Instr} {s t : State} (h : exec i s = .next t) :
    t.hostviol = s.hostviol ∧ (s.fatal = true → t.fatal = true) := by
  obtain ⟨u, hu, hend⟩ := exec_next h
  have hv : u.hostviol = s.hostviol := hu.get State.hostviol
  have hf : u.fatal = s.fatal := hu.get State.fatal
  obtain rfl | ⟨e, info, rfl⟩ | ⟨info, rfl⟩ := hend
  · exact ⟨hv, fun h => hf.trans h⟩
  · exact ⟨hv, fun h => hf.trans h⟩
  · exact ⟨hv, fun _ => rfl⟩

theorem sequencerTurn_marks {s t : State} (h : sequencerTurn s = .next t) :
    t.hostviol = s.hostviol ∧ (s.fatal = true → t.fatal = true) := by
  unfold sequencerTurn complete at h
  split at h
  · split at h
    · exact exec_marks h
    · cases h
      exact ⟨rfl, id⟩
  · cases h
    exact ⟨rfl, id⟩

end Sys2Proof.Machine
end

section
open Sys2Proof Sys2Proof.Machine

/-- Settles O24: neither a command nor a host access clears a mark. -/
theorem onlyResetClearsTheFaultMarks : Obligations.OnlyResetClearsTheFaultMarks := by
  unfold Obligations.OnlyResetClearsTheFaultMarks
  intro s t hreset h
  obtain ⟨es, -, hs⟩ | ⟨a, es, -, hs⟩ | ⟨es, hes, -⟩ := step_cases s
  · obtain ⟨hv, hf⟩ := sequencerTurn_marks (hs.symm.trans h)
    exact ⟨hf, fun hs => hv.trans hs⟩
  · obtain ⟨hf, hv⟩ := (hostAccess_effect a { s with inputs := es }).marks
    cases hs.symm.trans h
    exact ⟨fun hs => hf.trans hs, hv⟩
  · exact absurd (by rw [hes]; rfl) hreset

/-- Settles O20: the state is `State.reset` but for the constants and the model's own fields. -/
theorem resetInputGivesTheResetState : Obligations.ResetInputGivesTheResetState := by
  unfold Obligations.ResetInputGivesTheResetState
  intro s es h
  refine ⟨resetInput { s with inputs := es }, step_reset h, ?_⟩
  have hnsym : nsym FreqTable.empty = 0 := nsym_empty
  have htotal : total FreqTable.empty = 0 := total_empty
  have hrec (i : Nat) : (resetInput { s with inputs := es }).recAt i = NodeRec.cleared := recAt_clear rfl i
  have htree : readReg State.reset 0x3C = 0x000001FF := by decide
  have hstatus : statusWord State.reset = 0x00004000 := by decide
  refine ⟨rfl, rfl, rfl, rfl, rfl, rfl, rfl, hnsym, htotal, htree, rfl, rfl, rfl, rfl, rfl, rfl, rfl, rfl, rfl, rfl,
    FreqTable.at_empty, hrec, rfl, rfl, rfl, rfl, rfl, CodeTable.at_empty, rfl, rfl, rfl, rfl, rfl, rfl, rfl, rfl, hstatus,
    rfl, rfl, rfl⟩
end

section
/-! The operand register ARG0: a BitWriter command run with another ARG0 that names the same operand does the same (rules R12,
R61). -/

namespace Sys2Proof.Machine

def State.withArg0 (s : State) (b : Word) : State := { s with arg0 := b }

/-- The same run, its end state changed by `f`. -/
def Run.mapState {α : Type} (f : State → State) : Run α → Run α
  | .val a s => .val a (f s)
  | .raise e info s => .raise e info (f s)
  | .fatal info s => .fatal info (f s)
  | .stop fault => .stop fault

theorem Run.mapState_ite {α : Type} {f : State → State} {c : Prop} [Decidable c] (r q : Run α) :
    (if c then r else q).mapState f = if c then r.mapState f else q.mapState f :=
  apply_ite _ _ _ _

theorem Run.bind_mapState {α β : Type} {f : State → State} {r : Run α} {k : α → State → Run β}
    (hk : ∀ a s, k a (f s) = (k a s).mapState f) : (r.mapState f).bind k = (r.bind k).mapState f := by
  cases r with
  | val a s => exact hk a s
  | raise e info s => rfl
  | fatal info s => rfl
  | stop fault => rfl

theorem putbit_withArg0 (x : Bool) (s : State) (b : Word) :
    putbit x (s.withArg0 b) = (putbit x s).mapState (State.withArg0 · b) := by
  rw [putbit, putbit, Run.mapState_ite, Run.mapState_ite, Run.mapState_ite]
  rfl

theorem putbits_withArg0 (xs : List Bool) (s : State) (b : Word) :
    putbits xs (s.withArg0 b) = (putbits xs s).mapState (State.withArg0 · b) := by
  induction xs generalizing s with
  | nil => rfl
  | cons x xs ih =>
    rw [putbits, putbits, putbit_withArg0]
    exact Run.bind_mapState fun _ t => ih t

theorem bwPutbBody_withArg0 {s : State} {b : Word} (h : bwPutbBit (s.withArg0 b) = bwPutbBit s) :
    bwPutbBody (s.withArg0 b) = (bwPutbBody s).mapState (State.withArg0 · b) := by
  rw [bwPutbBody, bwPutbBody, h, putbit_withArg0, Run.mapState_ite]
  rfl

theorem bwPutsBody_withArg0 {s : State} {b : Word} (h : bwPutsBits (s.withArg0 b) = bwPutsBits s) :
    bwPutsBody (s.withArg0 b) = (bwPutsBody s).mapState (State.withArg0 · b) := by
  rw [bwPutsBody, bwPutsBody, h, putbits_withArg0, Run.mapState_ite, Run.mapState_ite]
  rfl

theorem bwPutsymBody_withArg0 {s : State} {b : Word} (h : bwPutsymSym (s.withArg0 b) = bwPutsymSym s) :
    bwPutsymBody (s.withArg0 b) = (bwPutsymBody s).mapState (State.withArg0 · b) := by
  have hput : (putcode (bwPutsymSym s) (s.withArg0 b)) = (putcode (bwPutsymSym s) s).mapState (State.withArg0 · b) :=
    putbits_withArg0 _ s b
  simp only [bwPutsymBody, h, Run.mapState_ite, hput]
  rw [Run.bind_mapState fun _ _ => rfl]
  rfl

/-- Where the pseudocode with another ARG0 is the pseudocode with ARG0 replaced at its end, so is the command. -/
theorem exec_withArg0 {i : Instr} {s t : State} {b : Word}
    (hbody : body i (s.withArg0 b) = (body i s).mapState (State.withArg0 · b)) (h : exec i s = .next t) :
    exec i (s.withArg0 b) = .next (t.withArg0 b) := by
  rw [exec_eq_finish] at h ⊢
  rw [hbody]
  obtain ⟨u, hu, rfl⟩ | ⟨e, info, u, hu, rfl⟩ | ⟨info, u, hu, rfl⟩ := finish_next h <;> rw [hu] <;> rfl

end Sys2Proof.Machine
end

section
open Sys2Proof Sys2Proof.Machine

/-- Settles O29: ARG0 enters the three commands through their operand only. -/
theorem unnamedOperandBitsAreIgnored : Obligations.UnnamedOperandBitsAreIgnored := by
  unfold Obligations.UnnamedOperandBitsAreIgnored
  intro s a b
  refine ⟨fun hab t h => ?_, fun hab t h => ?_, fun hab t h => ?_⟩
  · exact exec_withArg0 (s := s.withArg0 a) (bwPutbBody_withArg0 hab.symm) h
  · refine exec_withArg0 (s := s.withArg0 a) (bwPutsymBody_withArg0 ?_) h
    have hsym (w : Word) : w.extractLsb' 0 8 = w.setWidth 8 :=
      (BitVec.setWidth_eq_extractLsb' (by decide)).symm
    exact (hsym b).trans (hab.symm.trans (hsym a).symm)
  · refine exec_withArg0 (s := s.withArg0 a) (bwPutsBody_withArg0 ?_) h
    refine List.map_congr_left fun i hi => (hab _ ?_).symm
    have hlt : i < s.arg1.toNat := List.mem_range.1 hi
    show s.arg1.toNat - 1 - i < s.arg1.toNat
    omega
end

section
/-! The invariant of the block (rules R14, R22, R28, R30, R31, R108, R114, R150, R151) under the shared operations: completions,
the host's accesses, the reset input, and the bit procedures. -/

namespace Sys2Proof.Machine

/-! ### Moving the tree and code-table invariants -/

/-- What the tree and code-table invariants read (rules R30, R31). -/
def State.tables (s : State) :=
  (s.ft, s.node, s.nnodes, s.root, s.treeKind, s.treeValid, s.ct, s.ctValid)

theorem State.Inv.treeOk_of {s t : State} (h : s.Inv) (e : t.tables = s.tables) : t.treeValid = true → t.TreeInv := by
  simp only [State.tables, Prod.mk.injEq] at e
  obtain ⟨hft, hnode, hn, hroot, hkind, hvalid, -, -⟩ := e
  intro ht
  exact (h.treeOk (hvalid ▸ ht)).congr hft hnode hn hroot hkind

theorem State.Inv.codesOk_of {s t : State} (h : s.Inv) (e : t.tables = s.tables) : t.ctValid = true → t.CodeInv := by
  simp only [State.tables, Prod.mk.injEq] at e
  obtain ⟨hft, hnode, -, hroot, hkind, -, hct, hvalid⟩ := e
  intro ht
  exact (h.codesOk (hvalid ▸ ht)).congr hft hnode hroot hkind hct

theorem State.Inv.obufSize_le {s : State} (h : s.Inv) : s.cfg.obufSize ≤ 2 ^ 30 := by
  have hcfg := h.config
  simp only [Config.wellFormed, Config.obufSizeOk, Bool.and_eq_true, decide_eq_true_eq] at hcfg
  omega

theorem State.Inv.ibufSize_le {s : State} (h : s.Inv) : s.cfg.ibufSize ≤ 2 ^ 30 := by
  have hcfg := h.config
  simp only [Config.wellFormed, Config.ibufSizeOk, Bool.and_eq_true, decide_eq_true_eq] at hcfg
  omega

/-! ### Runs that end in a state of a predicate -/

/-- The run ends, neither at a fault nor in the fatal error, and in a state of `P`. -/
def Run.ends {α : Type} (P : State → Prop) : Run α → Prop
  | .val _ s => P s
  | .raise _ _ s => P s
  | .fatal _ _ => False
  | .stop _ => False

theorem Run.ends_mono {α : Type} {P Q : State → Prop} (h : ∀ s, P s → Q s) {r : Run α} (hr : r.ends P) : r.ends Q := by
  cases r with
  | val a s => exact h s hr
  | raise e info s => exact h s hr
  | fatal info s => exact hr
  | stop f => exact hr

/-- A sequence ends in `Q` where its first part ends in a `P` from which its second part does. -/
theorem Run.ends_bind_of {α β : Type} {P Q : State → Prop} {r : Run α} {k : α → State → Run β} (hr : r.ends P)
    (hPQ : ∀ s, P s → Q s) (hk : ∀ a s, P s → (k a s).ends Q) : (r.bind k).ends Q := by
  cases r with
  | val a s => exact hk a s hr
  | raise e info s => exact hPQ s hr
  | fatal info s => exact hr
  | stop f => exact hr

theorem Run.ends_bind {α β : Type} {P : State → Prop} {r : Run α} {k : α → State → Run β} (hr : r.ends P)
    (hk : ∀ a s, P s → (k a s).ends P) : (r.bind k).ends P :=
  Run.ends_bind_of hr (fun _ => id) hk

/-- A run that ends in `P` and keeps `Q` ends in both. -/
theorem Run.ends_and {α : Type} {P Q : State → Prop} {r : Run α} (hr : r.ends P) (hq : r.all Q) :
    r.ends (fun s => P s ∧ Q s) := by
  cases r with
  | val a s => exact ⟨hr, hq⟩
  | raise e info s => exact ⟨hr, hq⟩
  | fatal info s => exact hr
  | stop f => exact hr

/-! ### Completions (rules R152, R153) -/

theorem Err.code_known (e : Err) : e.code ∈ knownErrcodes := by cases e <;> decide

theorem State.Inv.completeNormally {s : State} (h : s.Inv) : (completeNormally s).Inv :=
  { h with
    oneMode := fun hm => Bool.noConfusion hm.1
    hostviolSticky := fun hb => Bool.noConfusion hb
    treeOk := h.treeOk_of rfl
    codesOk := h.codesOk_of rfl }

theorem State.Inv.takeError {s : State} (h : s.Inv) (whole : Bool) (e : Err) (info : Word) :
    (takeError whole e info s).Inv :=
  { h with
    oneMode := fun hm => Bool.noConfusion hm.1
    hostviolSticky := fun hb => Bool.noConfusion hb
    errcodeKnown := e.code_known
    outLenOk := by
      rw [takeError_outLen]
      cases whole
      · exact h.outLenOk
      · exact Nat.zero_le _
    treeOk := h.treeOk_of rfl
    codesOk := h.codesOk_of rfl }

/-- A command whose pseudocode ends in the invariant completes in the invariant. -/
theorem finish_keeps_inv (i : Instr) {r : Run Unit} (hr : r.ends State.Inv) : ∃ t, finish i r = .next t ∧ t.Inv := by
  cases r with
  | val a s => exact ⟨_, rfl, State.Inv.completeNormally hr⟩
  | raise e info s => exact ⟨_, rfl, State.Inv.takeError hr _ e info⟩
  | fatal info s => exact hr.elim
  | stop f => exact hr.elim

/-! ### The host's accesses and the reset input -/

theorem State.Inv.violate {s : State} (h : s.Inv) (a : Access) : (violate a s).Inv := by
  cases a
  all_goals exact { h with hostviolSticky := fun _ _ => rfl, treeOk := h.treeOk_of rfl, codesOk := h.codesOk_of rfl }

theorem State.Inv.answered {s : State} (h : s.Inv) (v : Answer) : State.Inv { s with answer := v } :=
  { h with treeOk := h.treeOk_of rfl, codesOk := h.codesOk_of rfl }

theorem State.Inv.withInputs {s : State} (h : s.Inv) (es : List Event) : State.Inv { s with inputs := es } :=
  { h with treeOk := h.treeOk_of rfl, codesOk := h.codesOk_of rfl }

/-- Writing the table invalidates the tree and the codes (rule R21), so nothing is asked of them. -/
theorem State.Inv.writeFt {s : State} (h : s.Inv) (ft : FreqTable) : (s.writeFt ft).Inv :=
  { h with ctNeedsTree := id, treeOk := nofun, codesOk := nofun }

theorem State.Inv.acceptWord {s : State} (h : s.Inv) (hf : s.fatal = false) (w : Word) : (acceptWord w s).Inv :=
  { h with
    oneMode := fun hm => Bool.noConfusion (hf.symm.trans hm.2)
    hostviolSticky := fun _ => id
    errcodeKnown := List.mem_cons_self
    treeOk := h.treeOk_of rfl
    codesOk := h.codesOk_of rfl }

theorem State.Inv.writeReg {s : State} (h : s.Inv) (o : Nat) (v : Word) : (writeReg o v s).Inv := by
  unfold Machine.writeReg
  split
  · unfold writeCmd
    split
    · exact h
    · rename_i hf
      exact h.acceptWord (Bool.eq_false_iff.2 hf) v
  case h_7 => exact h
  all_goals exact { h with treeOk := h.treeOk_of rfl, codesOk := h.codesOk_of rfl }

theorem State.Inv.writeIbuf {s : State} (h : s.Inv) {a : Nat} (ha : a < s.cfg.ibufSize) (v : Byte) :
    State.Inv { s with ibuf := s.ibuf.write a v } :=
  { h with
    ibufOk := ⟨Memory.wf_write a v h.ibufOk.1, Memory.within_write v ha h.ibufOk.2⟩
    treeOk := h.treeOk_of rfl
    codesOk := h.codesOk_of rfl }

theorem State.Inv.writeObuf {s : State} (h : s.Inv) {a : Nat} (ha : a < s.cfg.obufSize) (v : Byte) :
    State.Inv { s with obuf := s.obuf.write a v } :=
  { h with
    obufOk := ⟨Memory.wf_write a v h.obufOk.1, Memory.within_write v ha h.obufOk.2⟩
    treeOk := h.treeOk_of rfl
    codesOk := h.codesOk_of rfl }

theorem State.Inv.writeBytesObuf {s : State} (h : s.Inv) {a : Nat} {vs : List Byte} (ha : a + vs.length ≤ s.cfg.obufSize) :
    State.Inv { s with obuf := s.obuf.writeBytes a vs } :=
  { h with
    obufOk := ⟨Memory.wf_writeBytes a vs h.obufOk.1, Memory.within_writeBytes a vs ha h.obufOk.2⟩
    treeOk := h.treeOk_of rfl
    codesOk := h.codesOk_of rfl }

theorem AccessEffect.keeps_inv {s t : State} (he : AccessEffect s t) (h : s.Inv) : t.Inv := by
  cases he with
  | violation a => exact h.violate a
  | answered v => exact h.answered v
  | register o v _ => exact (h.writeReg o v).answered .none
  | frequency ft => exact (h.writeFt ft).answered .none
  | inputByte a v ha => exact (h.writeIbuf ha v).answered .none
  | outputByte a v ha => exact (h.writeObuf ha v).answered .none

theorem mem_drop_replicate {α : Type} {n k : Nat} {a r : α} (h : r ∈ (List.replicate n a).drop k) : r = a :=
  List.eq_of_mem_replicate (List.mem_of_mem_drop h)

/-- Clearing the context makes every part of it satisfy its invariant (rule R77). -/
theorem State.Inv.ctxClear {s : State} (h : s.Inv) : (ctxClear s).Inv :=
  { h with
    outLenOk := Nat.zero_le _
    clearedBeyond := fun r hr => by
      rw [ctxClear_node, NodeMemory.clear, Vector.toList_replicate] at hr
      exact mem_drop_replicate hr
    codeLength := fun sym => by
      rw [ctxClear_ct, CodeTable.len, CodeTable.at_empty]
      exact Nat.zero_le _
    ctNeedsTree := id
    treeOk := nofun
    codesOk := nofun
    bwPosOk := Nat.zero_le _
    bwAccOk := fun i _ => BitVec.getLsbD_zero
    bwCntOk := fun hc => absurd rfl hc
    brPosOk := Nat.le_refl _
    brValidOk := Nat.zero_le _ }

/-- The reset state with any constants the spec allows (rule R33). -/
theorem reset_inv {c : Config} (hc : c.wellFormed = true) : State.Inv { State.reset with cfg := c } where
  config := hc
  oneMode := nofun
  hostviolSticky := nofun
  errcodeKnown := List.mem_cons_self
  ibufOk := ⟨rfl, rfl⟩
  obufOk := ⟨rfl, rfl⟩
  outLenOk := Nat.zero_le _
  clearedBeyond := fun r hr => by
    rw [State.reset, Vector.toList_replicate] at hr
    exact mem_drop_replicate hr
  codeLength := fun sym => by
    rw [CodeTable.len]
    exact (congrArg List.length (CodeTable.at_empty sym)).trans_le (Nat.zero_le _)
  ctNeedsTree := id
  treeOk := nofun
  codesOk := nofun
  bwPosOk := Nat.zero_le _
  bwAccOk := fun i _ => BitVec.getLsbD_zero
  bwCntOk := fun h => absurd rfl h
  brPosOk := Nat.le_refl _
  brValidOk := Nat.zero_le _

theorem State.Inv.resetInput {s : State} (h : s.Inv) : (resetInput s).Inv :=
  have hreset := reset_inv h.config
  { hreset with treeOk := nofun, codesOk := nofun }

/-! ### The bit procedures (rules R106, R111, R116) -/

/-- A bit goes into the unfinished byte at position `7 − bw_cnt` (rule R106). -/
theorem getLsbD_accWithBit (acc : Byte) (cnt : BitVec 3) (b : Bool) (i : Nat) :
    (accWithBit acc cnt b).getLsbD i = (acc.getLsbD i || (b && decide (i = 7 - cnt.toNat))) := by
  have hone : (((1 <<< (7 - cnt.toNat) : Nat)) : Byte).getLsbD i = decide (i = 7 - cnt.toNat) := by
    rw [BitVec.natCast_eq_ofNat, BitVec.getLsbD_ofNat, Nat.one_shiftLeft, Nat.testBit_two_pow]
    grind
  cases b
  · simp [accWithBit]
  · rw [accWithBit, BitVec.getLsbD_or, if_pos rfl, hone, Bool.true_and]

theorem putbit_keeps_inv {s : State} (h : s.Inv) (b : Bool) : (putbit b s).ends State.Inv := by
  by_cases hfull : s.bwCnt = 0 ∧ s.cfg.obufSize ≤ s.bwPos.toNat
  · rw [putbit, if_pos hfull]
    exact h
  have hroom : s.bwPos.toNat < s.cfg.obufSize := by
    by_cases hc : s.bwCnt = 0
    · exact Nat.lt_of_not_le fun hle => hfull ⟨hc, hle⟩
    · exact h.bwCntOk hc
  have hsize := h.obufSize_le
  by_cases h7 : s.bwCnt = 7
  · rw [putbit_full hroom h7]
    exact { h.writeObuf hroom _ with
      treeOk := h.treeOk_of rfl
      codesOk := h.codesOk_of rfl
      bwPosOk := by
        show (s.bwPos + 1).toNat ≤ s.cfg.obufSize
        bv_omega
      bwAccOk := fun i _ => BitVec.getLsbD_zero
      bwCntOk := fun hc => absurd rfl hc }
  · rw [putbit_partial hroom h7]
    have hcnt : (s.bwCnt + 1).toNat = s.bwCnt.toNat + 1 := by bv_omega
    exact { h with
      treeOk := h.treeOk_of rfl
      codesOk := h.codesOk_of rfl
      bwAccOk := fun i hi => by
        simp only [hcnt] at hi
        have hi7 : i ≠ 7 - s.bwCnt.toNat := by bv_omega
        rw [getLsbD_accWithBit, h.bwAccOk i (by omega), decide_eq_false hi7, Bool.and_false, Bool.or_false]
      bwCntOk := fun _ => hroom }

theorem putbits_keeps_inv {s : State} (h : s.Inv) (bs : List Bool) : (putbits bs s).ends State.Inv := by
  induction bs generalizing s with
  | nil => exact h
  | cons b bs ih => exact Run.ends_bind (putbit_keeps_inv h b) fun _ _ ht => ih ht

theorem putSymbols_keeps_inv {s : State} (h : s.Inv) (bs : List Byte) : (putSymbols bs s).ends State.Inv := by
  induction bs generalizing s with
  | nil => exact h
  | cons b bs ih => exact Run.ends_bind (putbits_keeps_inv h _) fun _ _ ht => ih ht

theorem finalise_keeps_inv {s : State} (h : s.Inv) : (finalise s).ends State.Inv := by
  by_cases hc : s.bwCnt = 0
  · rw [finalise_empty hc]
    exact { h with outLenOk := h.bwPosOk, treeOk := h.treeOk_of rfl, codesOk := h.codesOk_of rfl }
  · have hroom := h.bwCntOk hc
    have hsize := h.obufSize_le
    have hnext : (s.bwPos + 1).toNat ≤ s.cfg.obufSize := by bv_omega
    rw [finalise, if_neg hc, if_pos hroom]
    exact { h.writeObuf hroom _ with
      outLenOk := hnext
      treeOk := h.treeOk_of rfl
      codesOk := h.codesOk_of rfl
      bwPosOk := hnext
      bwAccOk := fun i _ => BitVec.getLsbD_zero
      bwCntOk := fun h0 => absurd rfl h0 }

/-- A valid bit that is left lies inside IBUF (rules R41, R114). -/
theorem State.Inv.brOffset_lt {s : State} (h : s.Inv) (hleft : s.brPos.toNat < s.brValid.toNat) :
    brOffset s < s.cfg.ibufSize := by
  have hvalid := h.brValidOk
  unfold brOffset
  omega

theorem getbit_keeps_inv {s : State} (h : s.Inv) (hleft : s.brPos.toNat < s.brValid.toNat) :
    (getbit s).ends State.Inv := by
  rw [getbit_val (h.brOffset_lt hleft)]
  exact { h with
    treeOk := h.treeOk_of rfl
    codesOk := h.codesOk_of rfl
    brPosOk := by
      show (s.brPos + 1).toNat ≤ s.brValid.toNat
      bv_omega }

end Sys2Proof.Machine
end

section
open Sys2Proof Sys2Proof.Machine

/-- Settles O21: the reset state of the default constants. -/
theorem invariantHoldsAtReset : Obligations.InvariantHoldsAtReset := by
  unfold Obligations.InvariantHoldsAtReset
  exact reset_inv (c := Config.standard) (by decide)
end

section
/-! BUILD makes the tree of rule R30: the records of the merge loop as a forest whose roots are the nodes in the priority
structure, an invariant of each pass of rule R85. -/

namespace Sys2Proof.Machine

/-! ### Records in a list -/

/-- Record `i` of a list of records, the cleared record beyond its end (rule R22). -/
def recIn (ns : List NodeRec) (i : Nat) : NodeRec := ns.getD i NodeRec.cleared

theorem recIn_eq {ns : List NodeRec} {i : Nat} (h : i < ns.length) : recIn ns i = ns[i] := List.getD_eq_getElem _ _ h

theorem recIn_append_left {ns : List NodeRec} {i : Nat} (h : i < ns.length) (ms : List NodeRec) :
    recIn (ns ++ ms) i = recIn ns i := List.getD_append _ _ _ _ h

theorem recIn_append_length (ns : List NodeRec) (r : NodeRec) : recIn (ns ++ [r]) ns.length = r := by
  rw [recIn_eq (by simp), List.getElem_concat_length rfl]

/-- Taking a node out of the priority structure (rule R85). -/
def clearInq (a : Nat) (ns : List NodeRec) : List NodeRec := ns.modify a (fun r => { r with inq := false })

@[simp] theorem length_clearInq (a : Nat) (ns : List NodeRec) : (clearInq a ns).length = ns.length := List.length_modify _ _ _

theorem recIn_clearInq (a : Nat) (ns : List NodeRec) (i : Nat) :
    recIn (clearInq a ns) i = { recIn ns i with inq := (recIn ns i).inq && decide (i ≠ a) } := by
  simp only [recIn, clearInq, List.getD_eq_getElem?_getD, List.getElem?_modify]
  by_cases h : a = i
  · subst h
    cases hr : ns[a]? <;> simp [NodeRec.cleared]
  · have h' : i ≠ a := fun e => h e.symm
    simp [h, h']

/-- The sum of `g` over the nodes in the priority structure. -/
def inqSum (g : NodeRec → Nat) (ns : List NodeRec) : Nat := (ns.map fun r => if r.inq then g r else 0).sum

theorem inqCount_eq_inqSum (ns : List NodeRec) : inqCount ns = inqSum (fun _ => 1) ns := by
  induction ns with
  | nil => rfl
  | cons r ns ih =>
    rw [inqSum, List.map_cons, List.sum_cons, ← inqSum, ← ih, inqCount, List.countP_cons, inqCount, Nat.add_comm]

theorem inqSum_append (g : NodeRec → Nat) (ns ms : List NodeRec) : inqSum g (ns ++ ms) = inqSum g ns + inqSum g ms := by
  rw [inqSum, List.map_append, List.sum_append, inqSum, inqSum]

theorem inqSum_singleton (g : NodeRec → Nat) {r : NodeRec} (h : r.inq = true) : inqSum g [r] = g r := by
  simp [inqSum, h]

/-- Taking out a node takes its share out of the sum. -/
theorem inqSum_clearInq (g : NodeRec → Nat) {ns : List NodeRec} {a : Nat} (h : (recIn ns a).inq = true) :
    inqSum g (clearInq a ns) + g (recIn ns a) = inqSum g ns := by
  induction ns generalizing a with
  | nil => exact absurd h (by simp [recIn, NodeRec.cleared])
  | cons r ns ih =>
    cases a with
    | zero =>
      have hr : r.inq = true := h
      simp only [clearInq, List.modify_zero_cons, inqSum, List.map_cons, List.sum_cons, hr, if_true, recIn,
        List.getD_cons_zero]
      simp [Nat.add_comm]
    | succ a =>
      have hrec : recIn (r :: ns) (a + 1) = recIn ns a := List.getD_cons_succ
      rw [hrec] at h ⊢
      have hns := ih h
      simp only [clearInq, List.modify_succ_cons, inqSum, List.map_cons, List.sum_cons] at hns ⊢
      omega

theorem inqCount_clearInq {ns : List NodeRec} {a : Nat} (h : (recIn ns a).inq = true) :
    inqCount (clearInq a ns) + 1 = inqCount ns := by
  rw [inqCount_eq_inqSum, inqCount_eq_inqSum]
  exact inqSum_clearInq (fun _ => 1) h

theorem inqCount_pos {ns : List NodeRec} {a : Nat} (h : (recIn ns a).inq = true) : 0 < inqCount ns := by
  have := inqCount_clearInq h
  omega

/-- A sum over no node is 0. -/
theorem inqSum_eq_zero (g : NodeRec → Nat) {ns : List NodeRec} (h : inqCount ns = 0) : inqSum g ns = 0 := by
  have hnone : ∀ r ∈ ns, ¬ r.inq = true := List.countP_eq_zero.1 h
  refine List.sum_eq_zero fun x hx => ?_
  obtain ⟨r, hr, rfl⟩ := List.mem_map.1 hx
  exact if_neg (hnone r hr)

/-! ### One pass of the loop (rules R85, R88, R89) -/

theorem inqCount_cons (r : NodeRec) (ns : List NodeRec) : inqCount (r :: ns) = inqCount ns + if r.inq then 1 else 0 :=
  List.countP_cons

theorem minInq_none {ns : List NodeRec} (h : inqCount ns = 0) (i : Nat) : minInq ns i = none := by
  induction ns generalizing i with
  | nil => rfl
  | cons r ns ih =>
    rw [inqCount_cons] at h
    cases hr : r.inq
    · rw [minInq, ih (by omega), hr]
      rfl
    · rw [hr, if_pos rfl] at h
      omega

/-- Where the priority structure is not empty, `minInq` finds a node that is in it. -/
theorem minInq_some {ns : List NodeRec} (h : 0 < inqCount ns) (i : Nat) :
    ∃ a, minInq ns i = some (i + a, (recIn ns a).weight) ∧ a < ns.length ∧ (recIn ns a).inq = true := by
  induction ns generalizing i with
  | nil => exact absurd h (Nat.lt_irrefl 0)
  | cons r ns ih =>
    rcases Nat.eq_zero_or_pos (inqCount ns) with hzero | hpos
    · have hr : r.inq = true := by
        rw [inqCount_cons, hzero] at h
        by_contra hr
        rw [if_neg hr] at h
        omega
      refine ⟨0, ?_, Nat.succ_pos _, hr⟩
      rw [minInq, minInq_none hzero, hr]
      rfl
    · obtain ⟨a, hw, hlt, hinq⟩ := ih hpos (i + 1)
      rw [minInq, hw]
      by_cases hmin : (r.inq && decide (r.weight.toNat ≤ (recIn ns a).weight.toNat)) = true
      · refine ⟨0, ?_, Nat.succ_pos _, (Bool.and_eq_true_iff.1 hmin).1⟩
        simp only [hmin, if_true]
        rfl
      · refine ⟨a + 1, ?_, Nat.succ_lt_succ hlt, hinq⟩
        simp only [hmin, if_false, Bool.false_eq_true]
        rw [Nat.add_assoc, Nat.add_comm 1 a]
        rfl

theorem popmin_some {ns : List NodeRec} (h : 0 < inqCount ns) :
    ∃ a, popmin ns = some (a, (recIn ns a).weight, clearInq a ns) ∧ a < ns.length ∧ (recIn ns a).inq = true := by
  obtain ⟨a, hmin, hlt, hinq⟩ := minInq_some h 0
  rw [Nat.zero_add] at hmin
  refine ⟨a, ?_, hlt, hinq⟩
  rw [popmin, hmin]
  rfl

/-- The list after a pass that took out the nodes `a` and `b`. -/
def merged (ns : List NodeRec) (a b : Nat) : List NodeRec :=
  clearInq b (clearInq a ns) ++ [mergedRec a b (recIn ns a).weight (recIn ns b).weight]

/-- A pass takes out two nodes and appends the record that joins them. -/
theorem mergeOnce_spec {ns : List NodeRec} (h : 1 < inqCount ns) :
    ∃ a b, a < ns.length ∧ b < ns.length ∧ b ≠ a ∧ (recIn ns a).inq = true ∧ (recIn ns b).inq = true ∧
      mergeOnce ns = merged ns a b := by
  obtain ⟨a, hpop, ha, hinq⟩ := popmin_some (Nat.lt_of_succ_lt h)
  have hleft : 0 < inqCount (clearInq a ns) := by
    have := inqCount_clearInq hinq
    omega
  obtain ⟨b, hpop', hb, hinq'⟩ := popmin_some hleft
  rw [recIn_clearInq] at hpop' hinq'
  simp only [Bool.and_eq_true, decide_eq_true_eq] at hinq'
  rw [length_clearInq] at hb
  refine ⟨a, b, ha, hb, hinq'.2, hinq, hinq'.1, ?_⟩
  rw [mergeOnce, hpop]
  simp only [hpop', merged]

/-! ### The forest (rules R22, R30, R85, R90) -/

/-- The indices of the Internal records that have `c` as a child, as `State.parents` lists them. -/
def parentsIn (ns : List NodeRec) (k c : Nat) : List Nat :=
  (List.range ns.length).filter fun i =>
    decide (k ≤ i) && (decide ((recIn ns i).left.toNat = c) || decide ((recIn ns i).right.toNat = c))

/-- What rule R30 says of an Internal record, its `inq` apart. -/
def internalIn (ns : List NodeRec) (i : Nat) : Prop :=
  (recIn ns i).kind = .internal ∧ (recIn ns i).sym = 0 ∧ (recIn ns i).left.toNat < i ∧ (recIn ns i).right.toNat < i ∧
    (recIn ns i).left ≠ (recIn ns i).right ∧
    (recIn ns i).weight.toNat =
      (recIn ns (recIn ns i).left.toNat).weight.toNat + (recIn ns (recIn ns i).right.toNat).weight.toNat

/-- The records while the tree grows (rule R85): the Leaves first, each Internal record over two earlier ones, and each record
either in the priority structure or the child of exactly one record. -/
structure Forest (ft : FreqTable) (ns : List NodeRec) : Prop where
  count : ns.length + inqCount ns = 2 * nsym ft
  leavesFirst : nsym ft ≤ ns.length
  leafAt : ∀ i e, (pairs ft)[i]? = some e → recIn ns i = { leafRec e with inq := (recIn ns i).inq }
  internalAt : ∀ i, nsym ft ≤ i → i < ns.length → internalIn ns i
  parent : ∀ c, c < ns.length → (parentsIn ns (nsym ft) c).length + (recIn ns c).inq.toNat = 1
  weight : inqSum (fun r => r.weight.toNat) ns = total ft
  last : 0 < ns.length → (recIn ns (ns.length - 1)).inq = true

/-- The counts of the pairs sum up to the total (rule R21). -/
theorem sum_pairs (ft : FreqTable) : ((pairs ft).map fun e => e.2.toNat).sum = total ft := by
  have hfilter (l : List (Byte × Word)) :
      ((l.filter fun e => e.2 != 0).map fun e => e.2.toNat).sum = (l.map fun e => e.2.toNat).sum := by
    induction l with
    | nil => rfl
    | cons e l ih =>
      rw [List.filter_cons, List.map_cons, List.sum_cons, ← ih]
      by_cases he : e.2 = 0
      · rw [if_neg (by simp [he]), he]
        exact (Nat.zero_add _).symm
      · rw [if_pos (bne_iff_ne.2 he), List.map_cons, List.sum_cons]
  have hzip : (allSyms.zip ft.toList).map Prod.snd = ft.toList :=
    List.map_snd_zip (by rw [allSyms_length, Vector.length_toList])
  rw [pairs, hfilter, total]
  conv_rhs => rw [← hzip, List.map_map]
  rfl

theorem length_leaves (ft : FreqTable) : (leaves ft).length = nsym ft := List.length_map _

theorem recIn_leaves {ft : FreqTable} {i : Nat} {e : Byte × Word} (h : (pairs ft)[i]? = some e) :
    recIn (leaves ft) i = leafRec e := by
  rw [recIn, List.getD_eq_getElem?_getD, leaves, List.getElem?_map, h]
  rfl

theorem inq_recIn_leaves {ft : FreqTable} {i : Nat} (h : i < (leaves ft).length) : (recIn (leaves ft) i).inq = true := by
  rw [length_leaves] at h
  rw [recIn_leaves (List.getElem?_eq_getElem h)]
  rfl

/-- The Leaves alone are a forest. -/
theorem forest_leaves (ft : FreqTable) : Forest ft (leaves ft) where
  count := by
    have hall : inqCount (leaves ft) = (leaves ft).length := by
      refine List.countP_eq_length.2 fun r hr => ?_
      obtain ⟨e, -, rfl⟩ := List.mem_map.1 hr
      rfl
    rw [hall, length_leaves, Nat.two_mul]
  leavesFirst := (length_leaves ft).ge
  leafAt := fun i e h => by rw [recIn_leaves h]
  internalAt := fun i hk hi => absurd (length_leaves ft ▸ hi) (Nat.not_lt.2 hk)
  parent := fun c hc => by
    have hnone : parentsIn (leaves ft) (nsym ft) c = [] := by
      refine List.filter_eq_nil_iff.2 fun i hi => ?_
      have hlt := List.mem_range.1 hi
      rw [length_leaves] at hlt
      simp [Nat.not_le.2 hlt]
    rw [hnone, inq_recIn_leaves hc]
    rfl
  weight := by
    rw [← sum_pairs, inqSum, leaves, List.map_map]
    refine congrArg List.sum (List.map_congr_left fun e _ => ?_)
    exact BitVec.toNat_setWidth_of_le (by decide)
  last := fun h => inq_recIn_leaves (Nat.sub_one_lt_of_lt h)

section Merge

variable {ft : FreqTable} {ns : List NodeRec} {a b : Nat}

theorem length_merged (ns : List NodeRec) (a b : Nat) : (merged ns a b).length = ns.length + 1 := by simp [merged]

/-- An old record keeps everything but its place in the priority structure. -/
theorem recIn_merged_old {i : Nat} (hi : i < ns.length) :
    recIn (merged ns a b) i = { recIn ns i with inq := (recIn ns i).inq && decide (i ≠ a) && decide (i ≠ b) } := by
  rw [merged, recIn_append_left (by simpa using hi), recIn_clearInq, recIn_clearInq]

theorem recIn_merged_new : recIn (merged ns a b) ns.length = mergedRec a b (recIn ns a).weight (recIn ns b).weight := by
  have h := recIn_append_length (clearInq b (clearInq a ns)) (mergedRec a b (recIn ns a).weight (recIn ns b).weight)
  rwa [length_clearInq, length_clearInq] at h

theorem internalIn_merged_old {i : Nat} (hi : i < ns.length) (h : internalIn ns i) : internalIn (merged ns a b) i := by
  obtain ⟨hkind, hsym, hl, hr, hne, hw⟩ := h
  unfold internalIn
  rw [recIn_merged_old hi]
  refine ⟨hkind, hsym, hl, hr, hne, ?_⟩
  simp only
  rw [recIn_merged_old (hl.trans hi), recIn_merged_old (hr.trans hi)]
  exact hw

variable (hf : Forest ft ns) (hcount : 1 < inqCount ns) (ha : a < ns.length) (hb : b < ns.length) (hne : b ≠ a)
  (hinqa : (recIn ns a).inq = true) (hinqb : (recIn ns b).inq = true)

include hne hinqb in
theorem inq_recIn_clearInq_ne : (recIn (clearInq a ns) b).inq = true := by
  rw [recIn_clearInq, hinqb, decide_eq_true hne]
  rfl

include hne hinqa hinqb in
theorem inqSum_merged (g : NodeRec → Nat) (hg : ∀ r q, g { r with inq := q } = g r) :
    inqSum g (merged ns a b) + g (recIn ns a) + g (recIn ns b) =
      inqSum g ns + g (mergedRec a b (recIn ns a).weight (recIn ns b).weight) := by
  have h1 := inqSum_clearInq g hinqa
  have h2 := inqSum_clearInq g (inq_recIn_clearInq_ne hne hinqb)
  rw [recIn_clearInq, hg] at h2
  rw [merged, inqSum_append, inqSum_singleton g rfl]
  omega

include hf hcount in
/-- Indices fit in 9 bits and there is a free record (rules R5, R22). -/
theorem Forest.length_lt : ns.length < 511 := by
  have hk := nsym_le ft
  have hc := hf.count
  omega

include hf hne hinqa hinqb in
/-- Weights do not overflow (rule R90). -/
theorem Forest.weights_le : (recIn ns a).weight.toNat + (recIn ns b).weight.toNat ≤ total ft := by
  have h1 := inqSum_clearInq (fun r => r.weight.toNat) hinqa
  have h2 := inqSum_clearInq (fun r => r.weight.toNat) (inq_recIn_clearInq_ne hne hinqb)
  rw [recIn_clearInq] at h2
  rw [← hf.weight]
  simp only at h1 h2
  omega

include hf hcount ha hb hne hinqa hinqb in
theorem Forest.internalIn_merged_new : internalIn (merged ns a b) ns.length := by
  have hlen := hf.length_lt hcount
  have hsum := hf.weights_le hne hinqa hinqb
  have htotal := total_lt ft
  have hla : (BitVec.ofNat 9 a).toNat = a := Nat.mod_eq_of_lt (by omega)
  have hlb : (BitVec.ofNat 9 b).toNat = b := Nat.mod_eq_of_lt (by omega)
  unfold internalIn
  rw [recIn_merged_new]
  refine ⟨rfl, rfl, hla.trans_lt ha, hlb.trans_lt hb, fun h => hne ?_, ?_⟩
  · rw [← hla, ← hlb]
    exact (congrArg BitVec.toNat h).symm
  · simp only [mergedRec, hla, hlb, recIn_merged_old ha, recIn_merged_old hb]
    exact Nat.mod_eq_of_lt (by omega)

include hf hcount ha hb in
/-- The new record is the one new parent, of the two nodes taken out. -/
theorem Forest.parentsIn_merged (c : Nat) :
    parentsIn (merged ns a b) (nsym ft) c = parentsIn ns (nsym ft) c ++ if c = a ∨ c = b then [ns.length] else [] := by
  have hlen := hf.length_lt hcount
  have hla : (BitVec.ofNat 9 a).toNat = a := Nat.mod_eq_of_lt (by omega)
  have hlb : (BitVec.ofNat 9 b).toNat = b := Nat.mod_eq_of_lt (by omega)
  rw [parentsIn, length_merged, List.range_succ, List.filter_append, List.filter_singleton, recIn_merged_new]
  congr 1
  · refine List.filter_congr fun i hi => ?_
    rw [recIn_merged_old (List.mem_range.1 hi)]
  · simp only [mergedRec, hla, hlb, decide_eq_true hf.leavesFirst, Bool.true_and, Bool.cond_eq_ite, Bool.or_eq_true,
      decide_eq_true_eq, eq_comm (a := c)]

/-- Children stand before their parents, so neither the last record nor an index beyond it has one. -/
theorem parentsIn_eq_nil {c : Nat} (hi : ∀ i, nsym ft ≤ i → i < ns.length → internalIn ns i)
    (hc : ns.length ≤ c + 1) : parentsIn ns (nsym ft) c = [] := by
  refine List.filter_eq_nil_iff.2 fun i hmem => ?_
  have hlt := List.mem_range.1 hmem
  by_cases hk : nsym ft ≤ i
  · obtain ⟨-, -, hl, hr, -, -⟩ := hi i hk hlt
    simp only [Bool.and_eq_true, Bool.or_eq_true, decide_eq_true_eq]
    omega
  · simp [hk]

include hf hcount ha hb hne hinqa hinqb in
/-- A pass keeps the forest. -/
theorem Forest.merged : Forest ft (merged ns a b) := by
  have hinternal : ∀ i, nsym ft ≤ i → i < (Machine.merged ns a b).length → internalIn (Machine.merged ns a b) i := by
    intro i hk hi
    rw [length_merged] at hi
    rcases Nat.lt_succ_iff_lt_or_eq.1 hi with hlt | rfl
    · exact internalIn_merged_old hlt (hf.internalAt i hk hlt)
    · exact hf.internalIn_merged_new hcount ha hb hne hinqa hinqb
  have hsum := inqSum_merged hne hinqa hinqb
  have hlen := hf.length_lt hcount
  have hweights := hf.weights_le hne hinqa hinqb
  have htotal := total_lt ft
  exact {
    count := by
      have h := hsum (fun _ => 1) (fun _ _ => rfl)
      rw [← inqCount_eq_inqSum, ← inqCount_eq_inqSum] at h
      have hc := hf.count
      rw [length_merged]
      omega
    leavesFirst := by
      rw [length_merged]
      exact Nat.le_succ_of_le hf.leavesFirst
    leafAt := fun i e h => by
      obtain ⟨hi, -⟩ := List.getElem?_eq_some_iff.1 h
      rw [recIn_merged_old (hi.trans_le hf.leavesFirst), hf.leafAt i e h]
    internalAt := hinternal
    parent := fun c hc => by
      rw [length_merged] at hc
      rcases Nat.lt_succ_iff_lt_or_eq.1 hc with hlt | rfl
      · have hold := hf.parent c hlt
        rw [hf.parentsIn_merged hcount ha hb, recIn_merged_old hlt, List.length_append]
        by_cases hab : c = a ∨ c = b
        · have hinq : (recIn ns c).inq = true := by
            rcases hab with rfl | rfl
            · exact hinqa
            · exact hinqb
          have hout : ((recIn ns c).inq && decide (c ≠ a) && decide (c ≠ b)) = false := by
            rcases hab with rfl | rfl
            · simp
            · simp
          rw [hinq] at hold
          rw [if_pos hab, hout]
          exact hold
        · obtain ⟨hca, hcb⟩ := not_or.1 hab
          simpa [hca, hcb] using hold
      · rw [parentsIn_eq_nil hinternal (length_merged ns a b).le, recIn_merged_new]
        rfl
    weight := by
      have h := hsum (fun r => r.weight.toNat) (fun _ _ => rfl)
      have hnew : (mergedRec a b (recIn ns a).weight (recIn ns b).weight).weight.toNat =
          (recIn ns a).weight.toNat + (recIn ns b).weight.toNat := Nat.mod_eq_of_lt (by omega)
      rw [hnew, hf.weight] at h
      omega
    last := fun _ => by
      rw [length_merged, Nat.add_sub_cancel, recIn_merged_new]
      rfl }

end Merge

/-- The loop keeps the forest and, with passes enough, ends with at most one node in the priority structure (rule R87). -/
theorem forest_mergeLoop {ft : FreqTable} (n : Nat) {ns : List NodeRec} (hf : Forest ft ns) (hn : inqCount ns ≤ n + 1) :
    Forest ft (mergeLoop n ns) ∧ inqCount (mergeLoop n ns) ≤ 1 := by
  induction n generalizing ns with
  | zero => exact ⟨hf, hn⟩
  | succ n ih =>
    rw [mergeLoop]
    split
    · rename_i hcount
      obtain ⟨a, b, ha, hb, hne, hinqa, hinqb, heq⟩ := mergeOnce_spec hcount
      rw [heq]
      have hf' := hf.merged hcount ha hb hne hinqa hinqb
      refine ih hf' ?_
      have hc := hf.count
      have hc' := hf'.count
      rw [length_merged] at hc'
      omega
    · rename_i hcount
      exact ⟨hf, Nat.le_of_not_lt hcount⟩

theorem forest_treeRecords (ft : FreqTable) : Forest ft (treeRecords ft) ∧ inqCount (treeRecords ft) ≤ 1 := by
  refine forest_mergeLoop _ (forest_leaves ft) ?_
  have hc := (forest_leaves ft).count
  rw [length_leaves] at hc ⊢
  omega

/-! ### The finished tree (rule R30) -/

section Finished

variable {ft : FreqTable} {ns : List NodeRec} (hf : Forest ft ns) (hone : inqCount ns ≤ 1)
include hf hone

theorem Forest.length_eq : ns.length = 2 * nsym ft - 1 := by
  have hc := hf.count
  rcases Nat.eq_zero_or_pos ns.length with h0 | hpos
  · have := hf.leavesFirst
    omega
  · have := inqCount_pos (hf.last hpos)
    omega

/-- Only the root, the last record, is left in the priority structure. -/
theorem Forest.inq_eq {i : Nat} (hi : i < ns.length) : (recIn ns i).inq = decide (i = 2 * nsym ft - 2) := by
  have hlen := hf.length_eq hone
  have hlast := hf.last (Nat.zero_lt_of_lt hi)
  rw [show ns.length - 1 = 2 * nsym ft - 2 by omega] at hlast
  by_cases h : i = 2 * nsym ft - 2
  · rw [h, hlast, decide_eq_true rfl]
  · rw [decide_eq_false h, Bool.eq_false_iff]
    intro hinq
    have h1 := inqCount_clearInq hinq
    have h2 := inqCount_pos (inq_recIn_clearInq_ne (Ne.symm h) hlast)
    omega

theorem Forest.root_eq : (rootOf ns).toNat = if nsym ft = 0 then 511 else 2 * nsym ft - 2 := by
  have hlen := hf.length_eq hone
  have hk := nsym_le ft
  by_cases h0 : nsym ft = 0
  · rw [List.eq_nil_of_length_eq_zero (l := ns) (by omega), if_pos h0]
    rfl
  · have hlt : 2 * nsym ft - 2 < ns.length := by omega
    have hidx : ns.findIdx (fun r => r.inq) = 2 * nsym ft - 2 := by
      refine (List.findIdx_eq hlt).2 ⟨?_, fun j hj => ?_⟩
      · rw [← recIn_eq hlt, hf.inq_eq hone hlt, decide_eq_true rfl]
      · rw [← recIn_eq (hj.trans hlt), hf.inq_eq hone (hj.trans hlt), decide_eq_false (Nat.ne_of_lt hj)]
    obtain ⟨r, rs, rfl⟩ := List.exists_cons_of_length_pos (Nat.zero_lt_of_lt hlt)
    rw [rootOf, hidx, if_neg h0]
    exact Nat.mod_eq_of_lt (by omega)

theorem Forest.rootWeight_eq (hpos : 0 < nsym ft) : (recIn ns (2 * nsym ft - 2)).weight.toNat = total ft := by
  have hlen := hf.length_eq hone
  have hinq : (recIn ns (2 * nsym ft - 2)).inq = true := by
    rw [hf.inq_eq hone (by omega), decide_eq_true rfl]
  have hcount := inqCount_clearInq hinq
  have hsum := inqSum_clearInq (fun r => r.weight.toNat) hinq
  rw [inqSum_eq_zero _ (by omega), Nat.zero_add, hf.weight] at hsum
  exact hsum

/-- A state that holds the finished forest meets the tree invariant. -/
theorem Forest.treeInv {s : State} (hft : s.ft = ft) (hnode : s.node = NodeMemory.ofList ns)
    (hn : s.nnodes = BitVec.ofNat 10 ns.length) (hroot : s.root = rootOf ns) (hkind : s.treeKind = treeKindOf (nsym ft)) :
    s.TreeInv := by
  have hlen := hf.length_eq hone
  have hk := nsym_le ft
  have hrec : s.recAt = recIn ns := funext fun i => State.recAt_ofList hnode (by omega) i
  subst hft
  exact {
    kind := hkind
    count := by
      rw [hn, ← hlen]
      exact Nat.mod_eq_of_lt (by omega)
    root := by rw [hroot, hf.root_eq hone]
    leafAt := fun i e h => by
      obtain ⟨hi, -⟩ := List.getElem?_eq_some_iff.1 h
      have hi' : i < nsym s.ft := hi
      have hinq : decide (i = 2 * nsym s.ft - 2) = decide (nsym s.ft = 1) := by
        rw [decide_eq_decide]
        omega
      rw [hrec, hf.leafAt i e h, hf.inq_eq hone (hi.trans_le hf.leavesFirst), hinq]
      rfl
    internalAt := fun i hlo hhi => by
      rw [← hlen] at hhi
      obtain ⟨h1, h2, h3, h4, h5, h6⟩ := hf.internalAt i hlo hhi
      unfold State.internalOk
      rw [hrec]
      exact ⟨h1, h2, h3, h4, h5, h6, hf.inq_eq hone hhi⟩
    oneParent := fun c hc => by
      have h := hf.parent c (by omega)
      rw [hf.inq_eq hone (by omega), decide_eq_false (Nat.ne_of_lt hc), Bool.toNat_false, Nat.add_zero] at h
      rw [State.parents, hrec, ← hlen]
      exact h
    rootWeight := fun h2 => by
      rw [hrec, hroot, hf.root_eq hone, if_neg (by omega), hf.rootWeight_eq hone (by omega)] }

end Finished

/-- BUILD leaves the tree of rule R30, from any state. -/
theorem treeInv_buildTree (s : State) : (buildTree s).TreeInv := by
  obtain ⟨hf, hone⟩ := forest_treeRecords s.ft
  exact hf.treeInv hone rfl rfl rfl rfl (congrArg treeKindOf (length_leaves s.ft))

/-- The tree has at most 511 records (rule R22). -/
theorem length_treeRecords_le (ft : FreqTable) : (treeRecords ft).length ≤ 511 := by
  obtain ⟨hf, hone⟩ := forest_treeRecords ft
  have hlen := hf.length_eq hone
  have hk := nsym_le ft
  omega

theorem State.Inv.buildTree {s : State} (h : s.Inv) : (buildTree s).Inv := by
  have hlen := length_treeRecords_le s.ft
  exact { h with
    clearedBeyond := by
      rw [buildTree_nnodes, buildTree_node, BitVec.toNat_ofNat, Nat.mod_eq_of_lt (by omega)]
      exact NodeMemory.ofList_cleared _ hlen
    ctNeedsTree := fun _ => rfl
    treeOk := fun _ => treeInv_buildTree s
    codesOk := nofun }

end Sys2Proof.Machine
end

section
/-! Paths in the tree of rule R30: the node a path leads to, its length, and that each node has a path (rules R96, R97). -/

namespace Sys2Proof.Machine

/-! ### Paths as node indices -/

/-- The index of the node that a path leads to from node `n`, as `NodeMemory.follow` goes. -/
def NodeMemory.indexAt (m : NodeMemory) : NodeIdx → Code → Option NodeIdx
  | n, [] => some n
  | n, b :: bs =>
    match m.at? n with
    | none => none
    | some r =>
      match r.kind with
      | .leaf => none
      | .internal => NodeMemory.indexAt m (if b then r.right else r.left) bs

theorem NodeMemory.follow_eq_bind (m : NodeMemory) (n : NodeIdx) (path : Code) :
    m.follow n path = (m.indexAt n path).bind m.at? := by
  induction path generalizing n with
  | nil => rfl
  | cons b bs ih =>
    rw [NodeMemory.follow, NodeMemory.indexAt]
    cases m.at? n with
    | none => rfl
    | some r =>
      cases hk : r.kind
      · simp only [hk, Option.bind_none]
      · simp only [hk]
        exact ih _

theorem NodeMemory.indexAt_append (m : NodeMemory) (n : NodeIdx) (p q : Code) :
    m.indexAt n (p ++ q) = (m.indexAt n p).bind fun c => m.indexAt c q := by
  induction p generalizing n with
  | nil => rfl
  | cons b bs ih =>
    rw [List.cons_append, NodeMemory.indexAt, NodeMemory.indexAt]
    cases m.at? n with
    | none => rfl
    | some r =>
      cases hk : r.kind
      · simp only [hk, Option.bind_none]
      · simp only [hk]
        exact ih _

/-! ### The records of a tree -/

/-- The child of record `i` on the branch `b` (rule R96). -/
def State.child (s : State) (i : Nat) (b : Bool) : NodeIdx := if b then (s.recAt i).right else (s.recAt i).left

/-- `n` is the index of a node of the tree. -/
def State.inTree (s : State) (n : NodeIdx) : Prop := n.toNat < 2 * nsym s.ft - 1

theorem NodeMemory.at?_eq {s : State} {n : NodeIdx} (h : n.toNat < 511) : s.node.at? n = some (s.recAt n.toNat) := by
  have hget : s.node[n.toNat]? = some s.node[n.toNat] := Vector.getElem?_eq_getElem h
  rw [NodeMemory.at?, State.recAt, hget, Option.getD_some]

section Tree

variable {s : State} (hT : s.TreeInv)
include hT

omit hT in
theorem State.inTree.at?_eq {n : NodeIdx} (h : s.inTree n) : s.node.at? n = some (s.recAt n.toNat) := by
  have hk := nsym_le s.ft
  unfold State.inTree at h
  exact NodeMemory.at?_eq (by omega)

theorem State.TreeInv.root_inTree (hpos : 0 < nsym s.ft) : s.inTree s.root := by
  have hroot := hT.root
  rw [if_neg (Nat.ne_of_gt hpos)] at hroot
  unfold State.inTree
  omega

theorem State.TreeInv.leaf_kind {i : Nat} (hi : i < nsym s.ft) : (s.recAt i).kind = .leaf := by
  rw [hT.leafAt i _ (List.getElem?_eq_getElem hi)]

theorem State.TreeInv.kind_eq {n : NodeIdx} (h : s.inTree n) :
    (s.recAt n.toNat).kind = if n.toNat < nsym s.ft then .leaf else .internal := by
  split
  · rename_i hlt
    exact hT.leaf_kind hlt
  · rename_i hle
    obtain ⟨hkind, -⟩ := hT.internalAt n.toNat (Nat.le_of_not_lt hle) h
    exact hkind

/-- The children of an Internal node stand before it (rule R30). -/
theorem State.TreeInv.child_lt {i : Nat} (hlo : nsym s.ft ≤ i) (hhi : i < 2 * nsym s.ft - 1) (b : Bool) :
    (s.child i b).toNat < i := by
  obtain ⟨-, -, hl, hr, -⟩ := hT.internalAt i hlo hhi
  cases b
  · exact hl
  · exact hr

theorem State.TreeInv.child_inTree {n : NodeIdx} (h : s.inTree n) (hlo : nsym s.ft ≤ n.toNat) (b : Bool) :
    s.inTree (s.child n.toNat b) := by
  have hlt := hT.child_lt hlo h b
  unfold State.inTree at h ⊢
  omega

omit hT in
theorem State.inTree.ne_nil {n : NodeIdx} (h : s.inTree n) : n ≠ NIL := by
  rintro rfl
  have hk := nsym_le s.ft
  have h511 : (511 : NodeIdx).toNat < 2 * nsym s.ft - 1 := h
  rw [show (511 : NodeIdx).toNat = 511 from rfl] at h511
  omega

theorem State.TreeInv.indexAt_leaf {n : NodeIdx} (h : s.inTree n) (hleaf : n.toNat < nsym s.ft) (b : Bool) (bs : Code) :
    s.node.indexAt n (b :: bs) = none := by
  have hkind := hT.kind_eq h
  rw [if_pos hleaf] at hkind
  rw [NodeMemory.indexAt, h.at?_eq]
  simp only [hkind]

theorem State.TreeInv.indexAt_internal {n : NodeIdx} (h : s.inTree n) (hlo : nsym s.ft ≤ n.toNat) (b : Bool) (bs : Code) :
    s.node.indexAt n (b :: bs) = s.node.indexAt (s.child n.toNat b) bs := by
  have hkind := hT.kind_eq h
  rw [if_neg (Nat.not_lt.2 hlo)] at hkind
  rw [NodeMemory.indexAt, h.at?_eq]
  simp only [hkind]
  rfl

/-- A path leads to a node of the tree, and each of its branches leaves an Internal node for a smaller index. -/
theorem State.TreeInv.indexAt_some {n c : NodeIdx} {path : Code} (h : s.inTree n) (hpath : s.node.indexAt n path = some c) :
    s.inTree c ∧ c.toNat + path.length ≤ n.toNat ∧ (path ≠ [] → nsym s.ft + path.length ≤ n.toNat + 1) := by
  induction path generalizing n with
  | nil =>
    cases hpath
    exact ⟨h, Nat.le_refl _, fun hne => absurd rfl hne⟩
  | cons b bs ih =>
    by_cases hleaf : n.toNat < nsym s.ft
    · rw [hT.indexAt_leaf h hleaf] at hpath
      cases hpath
    · have hlo := Nat.le_of_not_lt hleaf
      have hlt := hT.child_lt hlo h b
      rw [hT.indexAt_internal h hlo] at hpath
      obtain ⟨hc, hlen, hne⟩ := ih (hT.child_inTree h hlo b) hpath
      rw [List.length_cons]
      refine ⟨hc, by omega, fun _ => ?_⟩
      rcases bs with _ | ⟨b', bs'⟩
      · rw [List.length_nil]
        omega
      · have := hne (List.cons_ne_nil _ _)
        omega

/-- A node below the root is the child of an Internal node on one of the two branches (rule R30). -/
theorem State.TreeInv.exists_parent {c : NodeIdx} (hc : c.toNat < 2 * nsym s.ft - 2) :
    ∃ i b, nsym s.ft ≤ i ∧ i < 2 * nsym s.ft - 1 ∧ s.child i b = c := by
  obtain ⟨i, hi⟩ := List.length_pos_iff_exists_mem.1 (show 0 < (s.parents (nsym s.ft) c.toNat).length by
    rw [hT.oneParent c.toNat hc]; decide)
  obtain ⟨hrange, hmem⟩ := List.mem_filter.1 hi
  simp only [Bool.and_eq_true, Bool.or_eq_true, decide_eq_true_eq] at hmem
  obtain ⟨hlo, hl | hr⟩ := hmem
  · exact ⟨i, false, hlo, List.mem_range.1 hrange, BitVec.eq_of_toNat_eq hl⟩
  · exact ⟨i, true, hlo, List.mem_range.1 hrange, BitVec.eq_of_toNat_eq hr⟩

/-- Every node of the tree has a path from the root, by going up from child to parent. -/
theorem State.TreeInv.exists_path {c : NodeIdx} (hc : s.inTree c) : ∃ path, s.node.indexAt s.root path = some c := by
  have hk := nsym_le s.ft
  induction hd : 2 * nsym s.ft - 2 - c.toNat using Nat.strong_induction_on generalizing c with
  | _ d ih =>
    unfold State.inTree at hc
    by_cases hroot : c.toNat = 2 * nsym s.ft - 2
    · have hr := hT.root
      rw [if_neg (by omega)] at hr
      exact ⟨[], congrArg some (BitVec.eq_of_toNat_eq (hr.trans hroot.symm))⟩
    · obtain ⟨i, b, hlo, hhi, rfl⟩ := hT.exists_parent (show c.toNat < 2 * nsym s.ft - 2 by omega)
      have hlt := hT.child_lt hlo hhi b
      have hi : (BitVec.ofNat 9 i).toNat = i := Nat.mod_eq_of_lt (by omega)
      have htree : s.inTree (BitVec.ofNat 9 i) := by
        unfold State.inTree
        omega
      obtain ⟨path, hpath⟩ := ih (2 * nsym s.ft - 2 - i) (by omega) htree (by rw [hi])
      refine ⟨path ++ [b], ?_⟩
      rw [NodeMemory.indexAt_append, hpath, Option.bind_some, hT.indexAt_internal htree (hi.ge.trans' hlo), hi]
      rfl

/-- A path leads to a symbol where it ends at the Leaf of the symbol. -/
theorem State.TreeInv.leadsTo_iff (hpos : 0 < nsym s.ft) {path : Code} {sym : Byte} :
    s.node.leadsTo s.root path sym = true ↔
      ∃ n, s.node.indexAt s.root path = some n ∧ n.toNat < nsym s.ft ∧ (s.recAt n.toNat).sym = sym := by
  rw [NodeMemory.leadsTo, NodeMemory.follow_eq_bind]
  cases hpath : s.node.indexAt s.root path with
  | none => simp
  | some n =>
    obtain ⟨htree, -, -⟩ := hT.indexAt_some (hT.root_inTree hpos) hpath
    have hkind := hT.kind_eq htree
    rw [Option.bind_some, htree.at?_eq]
    simp only [Bool.and_eq_true, beq_iff_eq, hkind, Option.some.injEq, exists_eq_left']
    by_cases hlt : n.toNat < nsym s.ft
    · simp [hlt]
    · simp [hlt]

/-- A path to a symbol has at most 255 branches (rule R5). -/
theorem State.TreeInv.length_le_of_leadsTo (hpos : 0 < nsym s.ft) {path : Code} {sym : Byte}
    (h : s.node.leadsTo s.root path sym = true) : path.length ≤ 255 := by
  have hk := nsym_le s.ft
  obtain ⟨n, hpath, -, -⟩ := (hT.leadsTo_iff hpos).1 h
  have htree := hT.root_inTree hpos
  obtain ⟨-, -, hlen⟩ := hT.indexAt_some htree hpath
  unfold State.inTree at htree
  by_cases hne : path = []
  · rw [hne]
    exact Nat.zero_le _
  · have := hlen hne
    omega

/-- The symbol of a Leaf is a retained one (rules R22, R86). -/
theorem State.TreeInv.sym_retained {i : Nat} (hi : i < nsym s.ft) : s.ft.at (s.recAt i).sym ≠ 0 := by
  have hmem : (pairs s.ft)[i] ∈ pairs s.ft := List.getElem_mem hi
  obtain ⟨hat, hne⟩ := (mem_pairs _ _ _).1 hmem
  rw [hT.leafAt i _ (List.getElem?_eq_getElem hi)]
  exact hat.trans_ne hne

/-- A retained symbol has a Leaf (rules R22, R86). -/
theorem State.TreeInv.exists_leaf {sym : Byte} (h : s.ft.at sym ≠ 0) :
    ∃ i, i < nsym s.ft ∧ (s.recAt i).sym = sym := by
  obtain ⟨i, hi, hget⟩ := List.getElem_of_mem ((mem_pairs _ _ _).2 ⟨rfl, h⟩)
  refine ⟨i, hi, ?_⟩
  rw [hT.leafAt i _ (List.getElem?_eq_getElem hi), hget]

/-- Every retained symbol has a path (rule R96). -/
theorem State.TreeInv.exists_leadsTo {sym : Byte} (h : s.ft.at sym ≠ 0) :
    ∃ path, s.node.leadsTo s.root path sym = true := by
  have hk := nsym_le s.ft
  obtain ⟨i, hi, hsym⟩ := hT.exists_leaf h
  have hnat : (BitVec.ofNat 9 i).toNat = i := Nat.mod_eq_of_lt (by omega)
  obtain ⟨path, hpath⟩ := hT.exists_path (c := BitVec.ofNat 9 i) (by unfold State.inTree; omega)
  exact ⟨path, (hT.leadsTo_iff (Nat.zero_lt_of_lt hi)).2 ⟨_, hpath, by omega, by rw [hnat, hsym]⟩⟩

end Tree

/-! ### The number of symbols and the kind of the tree (rules R16, R30) -/

theorem at_eq_zero_of_nsym_eq_zero {ft : FreqTable} (h : nsym ft = 0) (sym : Byte) : ft.at sym = 0 := by
  by_contra hne
  have hmem := (mem_pairs ft sym _).2 ⟨rfl, hne⟩
  rw [List.eq_nil_of_length_eq_zero h] at hmem
  exact List.not_mem_nil hmem

theorem total_eq_zero_of_nsym_eq_zero {ft : FreqTable} (h : nsym ft = 0) : total ft = 0 := by
  rw [← sum_pairs, List.eq_nil_of_length_eq_zero h]
  rfl

theorem State.TreeInv.nsym_of_none {s : State} (hT : s.TreeInv) (h : s.treeKind = .none) : nsym s.ft = 0 := by
  have hk := hT.kind
  rw [h] at hk
  split_ifs at hk
  assumption

theorem State.TreeInv.nsym_of_single {s : State} (hT : s.TreeInv) (h : s.treeKind = .single) : nsym s.ft = 1 := by
  have hk := hT.kind
  rw [h] at hk
  split_ifs at hk
  assumption

theorem State.TreeInv.nsym_of_multi {s : State} (hT : s.TreeInv) (h : s.treeKind = .multi) : 2 ≤ nsym s.ft := by
  have hk := hT.kind
  rw [h] at hk
  split_ifs at hk
  omega

end Sys2Proof.Machine
end

section
/-! CODEGEN derives the path codes of a valid tree and ends (rules R95 to R97, R100): an invariant of the traversal, and a measure
that its passes use up. -/

namespace Sys2Proof.Machine

/-- The weight of an entry of the traversal's stack: no more passes are spent below node `n`. -/
def passes (e : NodeIdx × Code) : Nat := 2 ^ (e.1.toNat + 1) - 1

theorem passes_pos (e : NodeIdx × Code) : 0 < passes e := by
  have := Nat.one_lt_two_pow (Nat.succ_ne_zero e.1.toNat)
  unfold passes
  omega

/-- The two children weigh less than their parent, whose pass pays for the difference. -/
theorem passes_children {n l r : NodeIdx} (hl : l.toNat < n.toNat) (hr : r.toNat < n.toNat) (p q u : Code) :
    passes (l, p) + passes (r, q) + 1 ≤ passes (n, u) := by
  have h1 : 2 ^ (l.toNat + 1) ≤ 2 ^ n.toNat := Nat.pow_le_pow_right (by decide) hl
  have h2 : 2 ^ (r.toNat + 1) ≤ 2 ^ n.toNat := Nat.pow_le_pow_right (by decide) hr
  have h3 := Nat.two_pow_pos (l.toNat + 1)
  have h4 := Nat.two_pow_pos (r.toNat + 1)
  have h5 : 2 ^ (n.toNat + 1) = 2 ^ n.toNat + 2 ^ n.toNat := by rw [Nat.pow_succ]; omega
  simp only [passes]
  omega

/-- What holds of the traversal with `stack` still to visit and `ct` written so far. -/
structure Traversed (s : State) (stack : List (NodeIdx × Code)) (ct : CodeTable) : Prop where
  /-- Each pending node stands with the path that leads to it. -/
  onPath : ∀ e ∈ stack, s.node.indexAt s.root e.2 = some e.1
  /-- Each code written is a path to its symbol. -/
  sound : ∀ sym, ct.at sym ≠ [] → s.node.leadsTo s.root (ct.at sym) sym = true
  /-- Each symbol with a path has its code already or is below a pending node. -/
  complete : ∀ sym path, s.node.leadsTo s.root path sym = true → ct.at sym ≠ [] ∨ ∃ e ∈ stack, e.2 <+: path

theorem traverse_nil (m : NodeMemory) (fuel : Nat) (ct : CodeTable) : traverse m fuel [] ct = .finished ct := by
  cases fuel <;> rfl

section Codegen

variable {s : State} (hT : s.TreeInv) (hk : 2 ≤ nsym s.ft)
include hT hk

omit hT hk in
theorem traversed_start : Traversed s [(s.root, [])] CodeTable.empty where
  onPath := fun e he => by
    obtain rfl := List.mem_singleton.1 he
    rfl
  sound := fun sym h => absurd (CodeTable.at_empty sym) h
  complete := fun _ _ _ => .inr ⟨_, List.mem_singleton_self _, List.nil_prefix⟩

/-- The node a pending entry stands for, and what a path through it goes on with. -/
theorem Traversed.below {stack : List (NodeIdx × Code)} {ct : CodeTable} {n : NodeIdx} {p path : Code} {sym : Byte}
    (h : Traversed s ((n, p) :: stack) ct) (hpath : s.node.leadsTo s.root path sym = true) (hp : p <+: path) :
    ∃ q c, path = p ++ q ∧ s.node.indexAt n q = some c ∧ c.toNat < nsym s.ft ∧ (s.recAt c.toNat).sym = sym := by
  obtain ⟨q, rfl⟩ := hp
  obtain ⟨c, hc, hleaf, hsym⟩ := (hT.leadsTo_iff (by omega)).1 hpath
  have hn : s.node.indexAt s.root p = some n := h.onPath (n, p) List.mem_cons_self
  rw [NodeMemory.indexAt_append, hn, Option.bind_some] at hc
  exact ⟨q, c, rfl, hc, hleaf, hsym⟩

/-- The pass at a Leaf writes its path (rule R95). -/
theorem Traversed.leaf {stack : List (NodeIdx × Code)} {ct : CodeTable} {n : NodeIdx} {p : Code}
    (h : Traversed s ((n, p) :: stack) ct) (hleaf : n.toNat < nsym s.ft) :
    Traversed s stack (ct.put (s.recAt n.toNat).sym p) := by
  have hn : s.node.indexAt s.root p = some n := h.onPath (n, p) List.mem_cons_self
  have htree := (hT.indexAt_some (hT.root_inTree (by omega)) hn).1
  have hne : p ≠ [] := by
    rintro rfl
    obtain rfl : s.root = n := Option.some.inj hn
    have hroot := hT.root
    rw [if_neg (by omega)] at hroot
    omega
  have hkeep {sym : Byte} (hs : ct.at sym ≠ []) : (ct.put (s.recAt n.toNat).sym p).at sym ≠ [] := by
    rw [CodeTable.at_put]
    split
    · exact hne
    · exact hs
  exact {
    onPath := fun e he => h.onPath e (List.mem_cons_of_mem _ he)
    sound := fun sym hs => by
      rw [CodeTable.at_put] at hs ⊢
      split at hs
      · rename_i heq
        rw [if_pos heq]
        exact (hT.leadsTo_iff (by omega)).2 ⟨n, hn, hleaf, heq.symm⟩
      · rename_i hsym
        rw [if_neg hsym]
        exact h.sound sym hs
    complete := fun sym path hpath => by
      obtain hs | ⟨e, he, hpre⟩ := h.complete sym path hpath
      · exact .inl (hkeep hs)
      · rcases List.mem_cons.1 he with rfl | he
        · obtain ⟨q, c, rfl, hc, -, hsym⟩ := h.below hT hk hpath hpre
          cases q with
          | nil =>
            obtain rfl : n = c := Option.some.inj hc
            refine .inl ?_
            rw [CodeTable.at_put, if_pos hsym.symm]
            exact hne
          | cons b bs =>
            rw [hT.indexAt_leaf htree hleaf] at hc
            cases hc
        · exact .inr ⟨e, he, hpre⟩ }

/-- The pass at an Internal node puts its children on the stack (rules R95, R99). -/
theorem Traversed.internal {stack : List (NodeIdx × Code)} {ct : CodeTable} {n : NodeIdx} {p : Code}
    (h : Traversed s ((n, p) :: stack) ct) (hlo : nsym s.ft ≤ n.toNat) :
    Traversed s ((s.child n.toNat false, p ++ [false]) :: (s.child n.toNat true, p ++ [true]) :: stack) ct := by
  have hn : s.node.indexAt s.root p = some n := h.onPath (n, p) List.mem_cons_self
  have htree := (hT.indexAt_some (hT.root_inTree (by omega)) hn).1
  have hchild (b : Bool) : s.node.indexAt s.root (p ++ [b]) = some (s.child n.toNat b) := by
    rw [NodeMemory.indexAt_append, hn, Option.bind_some, hT.indexAt_internal htree hlo]
    rfl
  exact {
    onPath := fun e he => by
      rcases List.mem_cons.1 he with rfl | he
      · exact hchild false
      · rcases List.mem_cons.1 he with rfl | he
        · exact hchild true
        · exact h.onPath e (List.mem_cons_of_mem _ he)
    sound := h.sound
    complete := fun sym path hpath => by
      obtain hs | ⟨e, he, hpre⟩ := h.complete sym path hpath
      · exact .inl hs
      · rcases List.mem_cons.1 he with rfl | he
        · obtain ⟨q, c, rfl, hc, hleaf, -⟩ := h.below hT hk hpath hpre
          cases q with
          | nil =>
            obtain rfl : n = c := Option.some.inj hc
            omega
          | cons b bs =>
            have hpre' : p ++ [b] <+: p ++ b :: bs := ⟨bs, by simp⟩
            cases b
            · exact .inr ⟨_, List.mem_cons_self, hpre'⟩
            · exact .inr ⟨_, List.mem_cons_of_mem _ List.mem_cons_self, hpre'⟩
        · exact .inr ⟨e, List.mem_cons_of_mem _ (List.mem_cons_of_mem _ he), hpre⟩ }

/-- With passes enough the traversal finishes, and the table it leaves is the one of the paths. -/
theorem traverse_finishes (fuel : Nat) {stack : List (NodeIdx × Code)} {ct : CodeTable} (h : Traversed s stack ct)
    (hfuel : (stack.map passes).sum ≤ fuel) :
    ∃ ct', traverse s.node fuel stack ct = .finished ct' ∧ Traversed s [] ct' := by
  induction fuel generalizing stack ct with
  | zero =>
    cases stack with
    | nil => exact ⟨ct, traverse_nil _ _ _, h⟩
    | cons e stack =>
      have := passes_pos e
      rw [List.map_cons, List.sum_cons] at hfuel
      omega
  | succ fuel ih =>
    obtain _ | ⟨⟨n, p⟩, stack⟩ := stack
    · exact ⟨ct, traverse_nil _ _ _, h⟩
    have hn : s.node.indexAt s.root p = some n := h.onPath (n, p) List.mem_cons_self
    have htree := (hT.indexAt_some (hT.root_inTree (by omega)) hn).1
    have hkind := hT.kind_eq htree
    rw [List.map_cons, List.sum_cons] at hfuel
    rw [traverse, htree.at?_eq]
    by_cases hleaf : n.toNat < nsym s.ft
    · have hpos := passes_pos (n, p)
      rw [if_pos hleaf] at hkind
      simp only [hkind]
      exact ih (h.leaf hT hk hleaf) (by omega)
    · have hlo := Nat.le_of_not_lt hleaf
      have hl := hT.child_inTree htree hlo false
      have hr := hT.child_inTree htree hlo true
      have hpasses := passes_children (hT.child_lt hlo htree false) (hT.child_lt hlo htree true) (p ++ [false])
        (p ++ [true]) p
      rw [if_neg hleaf] at hkind
      simp only [hkind]
      have hchildren : ¬ ((s.recAt n.toNat).left = NIL ∨ (s.recAt n.toNat).right = NIL) :=
        not_or.2 ⟨hl.ne_nil, hr.ne_nil⟩
      rw [if_neg hchildren]
      refine ih (h.internal hT hk hlo) ?_
      show passes (s.child n.toNat false, p ++ [false]) +
        (passes (s.child n.toNat true, p ++ [true]) + (stack.map passes).sum) ≤ fuel
      omega

end Codegen

theorem two_pow_le_traverseBound {n : Nat} (h : n ≤ 512) : 2 ^ n ≤ traverseBound := by
  unfold traverseBound
  gcongr
  decide

theorem State.TreeInv.traverse_root {s : State} (hT : s.TreeInv) (hk : 2 ≤ nsym s.ft) :
    ∃ ct, traverse s.node traverseBound [(s.root, [])] CodeTable.empty = .finished ct ∧ Traversed s [] ct := by
  refine traverse_finishes hT hk _ traversed_start ?_
  have hbound := two_pow_le_traverseBound (n := s.root.toNat + 1) (by have := s.root.isLt; omega)
  rw [List.map_singleton, List.sum_singleton]
  exact (Nat.sub_le _ _).trans hbound

/-- The codes of a finished traversal (rule R31). -/
theorem Traversed.codeInv {s t : State} {ct : CodeTable} (hT : s.TreeInv) (hkind : s.treeKind = .multi)
    (h : Traversed s [] ct) (hft : t.ft = s.ft) (hnode : t.node = s.node) (hroot : t.root = s.root)
    (htk : t.treeKind = s.treeKind) (hct : t.ct = ct) : t.CodeInv where
  notRetained := fun sym h0 => by
    by_contra hne
    rw [hct] at hne
    rw [hft] at h0
    obtain ⟨n, -, hlt, rfl⟩ := (hT.leadsTo_iff (by have := hT.nsym_of_multi hkind; omega)).1 (h.sound sym hne)
    exact hT.sym_retained hlt h0
  single := fun hs => by rw [htk, hkind] at hs; cases hs
  multi := fun _ sym hsym => by
    rw [hft] at hsym
    rw [hct, hnode, hroot]
    obtain ⟨path, hpath⟩ := hT.exists_leadsTo hsym
    obtain hne | ⟨e, he, -⟩ := h.complete sym path hpath
    · exact ⟨hne, h.sound sym hne⟩
    · cases he

/-- From a valid tree CODEGEN's pseudocode ends normally, with valid codes of at most 255 bits (rules R95, R100). -/
theorem codegenBody_of_treeInv {s : State} (hv : s.treeValid = true) (hT : s.TreeInv) :
    ∃ t, codegenBody s = .val () t ∧ t.CodeInv ∧ (∀ sym, t.ct.len sym ≤ 255) ∧
      t = { s with ct := t.ct, ctValid := true, res0 := t.res0, res1 := t.res1 } := by
  unfold codegenBody
  rw [if_neg (by rw [hv]; decide)]
  cases hkind : s.treeKind with
  | none =>
    have h0 := hT.nsym_of_none hkind
    refine ⟨_, rfl, ?_, fun sym => ?_, rfl⟩
    · exact {
        notRetained := fun sym _ => CodeTable.at_empty sym
        single := fun _ sym hne => absurd (at_eq_zero_of_nsym_eq_zero h0 sym) hne
        multi := fun _ sym hne => absurd (at_eq_zero_of_nsym_eq_zero h0 sym) hne }
    · exact (congrArg List.length (CodeTable.at_empty sym)).trans_le (Nat.zero_le _)
  | single =>
    have h1 := hT.nsym_of_single hkind
    have htree := hT.root_inTree (by omega)
    have hroot := hT.root
    rw [if_neg (by omega), h1] at hroot
    simp only [htree.at?_eq, hroot]
    have hat (sym : Byte) : (CodeTable.empty.put (s.recAt 0).sym [false]).at sym =
        if sym = (s.recAt 0).sym then [false] else [] := by
      rw [CodeTable.at_put, CodeTable.at_empty]
    refine ⟨_, rfl, ?_, fun sym => ?_, rfl⟩
    · exact {
        notRetained := fun sym h0 => by
          refine (hat sym).trans (if_neg ?_)
          rintro rfl
          exact hT.sym_retained (by omega) h0
        single := fun _ sym hne => by
          obtain ⟨i, hi, hsym⟩ := hT.exists_leaf hne
          obtain rfl : i = 0 := by omega
          exact (hat sym).trans (if_pos hsym.symm)
        multi := fun hm => TreeKind.noConfusion (show TreeKind.single = .multi from hm) }
    · refine (congrArg List.length (hat sym)).trans_le ?_
      split <;> decide
  | multi =>
    have hk := hT.nsym_of_multi hkind
    obtain ⟨ct, hct, htr⟩ := hT.traverse_root hk
    simp only [hct]
    refine ⟨_, rfl, htr.codeInv hT hkind rfl rfl rfl hkind.symm rfl, fun sym => ?_, rfl⟩
    by_cases hne : ct.at sym = []
    · exact (congrArg List.length hne).trans_le (Nat.zero_le _)
    · exact hT.length_le_of_leadsTo (by omega) (htr.sound sym hne)

end Sys2Proof.Machine
end

section
/-! Every command keeps the invariant and ends (rules R41, R100, R108, R114): its pseudocode neither stops nor meets the fatal
error. -/

namespace Sys2Proof.Machine

theorem State.Inv.setResults {s : State} (h : s.Inv) (a b : Word) : State.Inv { s with res0 := a, res1 := b } :=
  { h with treeOk := h.treeOk_of rfl, codesOk := h.codesOk_of rfl }

/-! ### BitWriter and BitReader -/

theorem bwInitBody_keeps_inv {s : State} (h : s.Inv) : (bwInitBody s).ends State.Inv := by
  unfold bwInitBody
  split
  · exact h
  · rename_i hoff
    exact { h with
      outLenOk := Nat.zero_le _
      treeOk := h.treeOk_of rfl
      codesOk := h.codesOk_of rfl
      bwPosOk := Decidable.not_not.1 hoff
      bwAccOk := fun i _ => BitVec.getLsbD_zero
      bwCntOk := fun hc => absurd rfl hc }

theorem bwPutbBody_keeps_inv {s : State} (h : s.Inv) : (bwPutbBody s).ends State.Inv := by
  unfold bwPutbBody
  split
  · exact h
  · exact putbit_keeps_inv h _

theorem bwPutsBody_keeps_inv {s : State} (h : s.Inv) : (bwPutsBody s).ends State.Inv := by
  unfold bwPutsBody
  split
  · exact h
  · split
    · exact h
    · exact putbits_keeps_inv h _

theorem bwPutsymBody_keeps_inv {s : State} (h : s.Inv) : (bwPutsymBody s).ends State.Inv := by
  unfold bwPutsymBody
  split
  · exact h
  · split
    · exact h
    · simp only
      split
      · exact h
      · exact Run.ends_bind (putbits_keeps_inv h _) fun _ _ ht => ht.setResults _ _

theorem bwFinalBody_keeps_inv {s : State} (h : s.Inv) : (bwFinalBody s).ends State.Inv := by
  unfold bwFinalBody
  split
  · exact h
  · exact Run.ends_bind (finalise_keeps_inv h) fun _ _ ht => ht

/-- The BitReader opened on the bytes from `base` on, `n` of them and all in IBUF (rules R27, R113, R137). -/
theorem State.Inv.openReader {s : State} (h : s.Inv) {base n pad : Nat} (hin : base + n ≤ s.cfg.ibufSize) :
    State.Inv { s with
      brBase := BitVec.ofNat 32 base, brValid := BitVec.ofNat 34 (8 * n - pad), brPos := 0, brOpen := true } :=
  { h with
    treeOk := h.treeOk_of rfl
    codesOk := h.codesOk_of rfl
    brPosOk := Nat.zero_le _
    brValidOk := by
      have hsize := h.ibufSize_le
      show 8 * (base % 2 ^ 32) + (8 * n - pad) % 2 ^ 34 ≤ 8 * s.cfg.ibufSize
      omega }

theorem brInitBody_keeps_inv {s : State} (h : s.Inv) : (brInitBody s).ends State.Inv := by
  unfold brInitBody
  split
  · exact h
  · rename_i hlen
    split
    · exact h
    · rename_i hoff
      simp only
      split
      · exact h
      · split
        · exact h
        · have hopen := h.openReader (base := s.arg0.toNat) (n := s.inLen.toNat - brInitOffset s) (pad := brInitPad s) (by
            unfold brInitOffset at *
            omega)
          rwa [BitVec.ofNat_toNat, BitVec.setWidth_eq] at hopen

theorem brGetbBody_keeps_inv {s : State} (h : s.Inv) : (brGetbBody s).ends State.Inv := by
  unfold brGetbBody
  split
  · exact h
  · split
    · exact h
    · rename_i hleft
      exact Run.ends_bind (getbit_keeps_inv h (Decidable.not_not.1 hleft)) fun _ _ ht => ht.setResults _ _

/-! ### The tree walk (rules R135, R137) -/

/-- A walk from a node of a valid tree meets a record at each step and no missing child. -/
theorem walkFrom_keeps_inv (info : Word) (fuel : Nat) {s : State} {n : NodeIdx} (h : s.Inv) (hv : s.treeValid = true)
    (hn : s.inTree n) (hfuel : s.brPos.toNat + fuel ≤ s.brValid.toNat) :
    (walkFrom info fuel n s).ends State.Inv := by
  induction fuel generalizing s n with
  | zero =>
    rw [walkFrom, hn.at?_eq]
    cases hk : (s.recAt n.toNat).kind <;> simp only [hk] <;> exact h
  | succ fuel ih =>
    have hT := h.treeOk hv
    have hkind := hT.kind_eq hn
    rw [walkFrom, hn.at?_eq]
    by_cases hleaf : n.toNat < nsym s.ft
    · rw [if_pos hleaf] at hkind
      simp only [hkind]
      exact h
    · rw [if_neg hleaf] at hkind
      simp only [hkind]
      have hleft : s.brPos.toNat < s.brValid.toNat := by omega
      have hnext := getbit_keeps_inv h hleft
      rw [getbit_val (h.brOffset_lt hleft)] at hnext ⊢
      rw [Run.bind_val]
      generalize (s.ibufByte (brOffset s)).getLsbD (7 - s.brPos.toNat % 8) = b
      have hchild := hT.child_inTree hn (Nat.le_of_not_lt hleaf) b
      have hne : ¬ (if b = true then (s.recAt n.toNat).right else (s.recAt n.toNat).left) = NIL := hchild.ne_nil
      rw [if_neg hne]
      refine ih (s := { s with brPos := s.brPos + 1 }) hnext hv hchild ?_
      show (s.brPos + 1).toNat + fuel ≤ s.brValid.toNat
      bv_omega

theorem walk_keeps_inv (info : Word) {s : State} (h : s.Inv) (hv : s.treeValid = true) (hpos : 0 < nsym s.ft) :
    (walk info s).ends State.Inv := by
  refine walkFrom_keeps_inv info _ h hv ((h.treeOk hv).root_inTree hpos) ?_
  have hle := h.brPosOk
  unfold bitsLeft
  bv_omega

theorem brGetsymBody_keeps_inv {s : State} (h : s.Inv) : (brGetsymBody s).ends State.Inv := by
  unfold brGetsymBody
  split
  · exact h
  · split
    · exact h
    · rename_i hv
      have hvalid : s.treeValid = true := Bool.eq_true_of_not_eq_false hv
      split
      · exact h
      · rename_i hmulti
        have hk := (h.treeOk hvalid).nsym_of_multi (Decidable.not_not.1 hmulti)
        exact Run.ends_bind (walk_keeps_inv _ h hvalid (by omega)) fun _ _ ht => ht.setResults _ _

/-! ### CODEGEN and FREQ -/

theorem codegenBody_keeps_inv {s : State} (h : s.Inv) : (codegenBody s).ends State.Inv := by
  cases hv : s.treeValid with
  | false =>
    rw [codegenBody, if_pos hv]
    exact h
  | true =>
    obtain ⟨t, hrun, hcodes, hlen, heq⟩ := codegenBody_of_treeInv hv (h.treeOk hv)
    rw [hrun]
    show t.Inv
    rw [heq] at hcodes ⊢
    exact { h with
      codeLength := hlen
      ctNeedsTree := fun _ => hv
      treeOk := fun _ => (h.treeOk hv).congr rfl rfl rfl rfl rfl
      codesOk := fun _ => hcodes }

theorem freqBody_keeps_inv {s : State} (h : s.Inv) : (freqBody s).ends State.Inv := by
  unfold freqBody
  split
  · exact h
  · exact (h.writeFt _).setResults _ _

/-! ### ENCODE (rules R127, R128) -/

theorem length_headerPairs (o : ByteOrder) (ft : FreqTable) : (headerPairs o ft).length = 5 * nsym ft := by
  have hpair (e : Byte × Word) : (e.1 :: freqBytes o e.2).length = 5 := by cases o <;> rfl
  rw [headerPairs, List.length_flatMap, List.map_congr_left (g := fun _ => 5) fun e _ => hpair e, List.map_const',
    List.sum_replicate, smul_eq_mul, Nat.mul_comm]
  rfl

theorem encodeContainer_keeps_inv {s : State} (h : s.Inv) (hfits : containerSize s.ft s.ct ≤ s.cfg.obufSize) :
    (encodeContainer s).ends State.Inv := by
  have hsize : 2 + 5 * nsym s.ft ≤ s.cfg.obufSize := by
    unfold containerSize at hfits
    omega
  have hmax := h.obufSize_le
  have hheader := h.writeBytesObuf (a := 0) (vs := BitVec.ofNat 8 (nsym s.ft) :: headerPairs s.cfg.freqByteOrder s.ft) (by
    rw [List.length_cons, length_headerPairs]
    omega)
  have hpos : (BitVec.ofNat 32 (1 + 5 * nsym s.ft + 1)).toNat = 2 + 5 * nsym s.ft := by
    rw [BitVec.toNat_ofNat]
    omega
  have hopen : State.Inv { s with
      obuf := s.obuf.writeBytes 0 (BitVec.ofNat 8 (nsym s.ft) :: headerPairs s.cfg.freqByteOrder s.ft)
      bwPos := BitVec.ofNat 32 (1 + 5 * nsym s.ft + 1), bwAcc := 0, bwCnt := 0, bwOpen := true } :=
    { hheader with
      treeOk := hheader.treeOk_of rfl
      codesOk := hheader.codesOk_of rfl
      bwPosOk := hpos.trans_le hsize
      bwAccOk := fun i _ => BitVec.getLsbD_zero
      bwCntOk := fun hc => absurd rfl hc }
  refine Run.ends_bind_of (Run.ends_and (putSymbols_keeps_inv hopen _) (putSymbols_writerOnly _ _)) (fun _ ht => ht.1) ?_
  rintro - t ⟨ht, hput⟩
  refine Run.ends_bind_of (Run.ends_and (finalise_keeps_inv ht) (finalise_sameFrame t)) (fun _ hu => hu.1) ?_
  rintro pad u ⟨hu, hfinal⟩
  have hcfg : u.cfg = s.cfg := (hput.sameFrame.trans hfinal).get State.cfg
  exact (hu.writeObuf (by rw [hcfg]; omega) _).setResults _ _

theorem encodeBody_keeps_inv {s : State} (h : s.Inv) : (encodeBody s).ends State.Inv := by
  unfold encodeBody
  split
  · exact h
  · refine Run.ends_bind (codegenBody_keeps_inv (h.ctxClear.writeFt _).buildTree) fun _ t ht => ?_
    split
    · exact ht
    · split
      · exact ht
      · rename_i hfits
        exact encodeContainer_keeps_inv ht (Decidable.not_not.1 hfits)

/-! ### DECODE (rules R137, R146) -/

theorem readPairs_keeps_inv (todo j : Nat) (prev : Option Byte) {s : State} (h : s.Inv) :
    (readPairs todo j prev s).ends State.Inv := by
  induction todo generalizing j prev s with
  | zero => exact h
  | succ todo ih =>
    rw [readPairs]
    split
    · exact h
    · split
      · exact h
      · exact ih _ _ (h.writeFt _)

theorem ReaderOnly.ft_eq {s t : State} (h : ReaderOnly s t) : t.ft = s.ft := by
  unfold ReaderOnly at h
  rw [h]

theorem ReaderOnly.treeValid_eq {s t : State} (h : ReaderOnly s t) : t.treeValid = s.treeValid := by
  unfold ReaderOnly at h
  rw [h]

/-- Each walked symbol is stored inside OBUF. -/
theorem walkSymbols_keeps_inv (todo i : Nat) {s : State} (h : s.Inv) (hv : s.treeValid = true)
    (hpos : 0 < todo → 0 < nsym s.ft) (hroom : i + todo ≤ s.cfg.obufSize) :
    (walkSymbols todo i s).ends State.Inv := by
  induction todo generalizing i s with
  | zero => exact h
  | succ todo ih =>
    have hsome := hpos (Nat.succ_pos todo)
    refine Run.ends_bind_of (Run.ends_and (walk_keeps_inv _ h hv hsome) (walkFrom_readerOnly _ _ _ s)) (fun _ ht => ht.1) ?_
    rintro sym t ⟨ht, honly⟩
    have hcfg : t.cfg = s.cfg := honly.sameFrame.get State.cfg
    refine ih (i + 1) (s := { t with obuf := t.obuf.write i sym }) (ht.writeObuf (by rw [hcfg]; omega) sym) ?_ ?_ ?_
    · exact honly.treeValid_eq.trans hv
    · exact fun _ => honly.ft_eq.symm ▸ hsome
    · show i + 1 + todo ≤ t.cfg.obufSize
      rw [hcfg]
      omega

theorem State.Inv.drawObuf {s : State} (h : s.Inv) {m : Nat} (hm : m ≤ s.cfg.obufSize) : (drawObuf m s).Inv := by
  have hwrite := h.writeBytesObuf (a := 0) (vs := (List.range m).map fun i => Config.freeByte (s.draws + i)) (by
    rw [List.length_map, List.length_range]
    omega)
  exact { hwrite with treeOk := hwrite.treeOk_of rfl, codesOk := hwrite.codesOk_of rfl }

theorem State.Inv.setOutLen {s : State} (h : s.Inv) {m : Nat} (hm : m ≤ s.cfg.obufSize) :
    State.Inv { s with outLen := BitVec.ofNat 32 m } :=
  { h with
    outLenOk := (Nat.mod_le _ _).trans hm
    treeOk := h.treeOk_of rfl
    codesOk := h.codesOk_of rfl }

theorem State.Inv.closeReader {s : State} (h : s.Inv) : State.Inv { s with brOpen := false } :=
  { h with treeOk := h.treeOk_of rfl, codesOk := h.codesOk_of rfl }

theorem decodeWalk_keeps_inv {n pad paylen m : Nat} {s : State} (h : s.Inv) (hin : 2 + 5 * n + paylen ≤ s.cfg.ibufSize)
    (hm : m ≤ s.cfg.obufSize) (hpos : 0 < m → 0 < nsym s.ft) : (decodeWalk n pad paylen m s).ends State.Inv := by
  have hopen : (openPayload n pad paylen s).Inv := (h.buildTree.openReader hin).setResults _ _
  have hwalk := Run.ends_and
    (walkSymbols_keeps_inv m 0 hopen rfl hpos (show 0 + m ≤ s.cfg.obufSize by omega)) (walkSymbols_sameFrame m 0 _)
  have hcfg {t : State} (ht : SameFrame (openPayload n pad paylen s) t) : m ≤ t.cfg.obufSize := by
    have hc : t.cfg = s.cfg := ht.get State.cfg
    rwa [hc]
  rw [decodeWalk_eq]
  cases hr : walkSymbols m 0 (openPayload n pad paylen s) with rw [hr] at hwalk
  | val _ t => exact (hwalk.1.setOutLen (hcfg hwalk.2)).closeReader
  | raise e info t => exact hwalk.1.drawObuf (hcfg hwalk.2)
  | fatal info t => exact hwalk
  | stop f => exact hwalk

theorem decodePayload_keeps_inv {n : Nat} {last : Option Byte} {s : State} (h : s.Inv) (hlen : s.inLen.toNat ≤ s.cfg.ibufSize)
    (hn : 2 + 5 * n ≤ s.inLen.toNat) : (decodePayload n last s).ends State.Inv := by
  have hpad := h.setResults (BitVec.ofNat 32 (s.ibufByte (1 + 5 * n)).toNat) s.res1
  unfold decodePayload
  split
  · exact h
  · simp only
    split
    · exact hpad
    · split
      · exact hpad
      · split
        · exact hpad
        · split
          · exact hpad
          · rename_i hroom
            have hm : total s.ft ≤ s.cfg.obufSize := Decidable.not_not.1 hroom
            split
            · exact hpad.setOutLen (Nat.zero_le _)
            · split
              · exact (hpad.writeBytesObuf (by rw [List.length_replicate, Nat.zero_add]; exact hm)).setOutLen hm
              · refine decodeWalk_keeps_inv hpad (show 2 + 5 * n + (s.inLen.toNat - (2 + 5 * n)) ≤ s.cfg.ibufSize by omega)
                  hm fun hpos => ?_
                by_contra hnone
                rw [total_eq_zero_of_nsym_eq_zero (Nat.eq_zero_of_not_pos hnone)] at hpos
                exact Nat.lt_irrefl 0 hpos

theorem decodeBody_keeps_inv {s : State} (h : s.Inv) : (decodeBody s).ends State.Inv := by
  have hclear := h.ctxClear
  unfold decodeBody
  split
  · exact h
  · rename_i hlen
    simp only
    split
    · exact hclear
    · have hcount := hclear.setResults 0 (BitVec.ofNat 32 ((ctxClear s).ibufByte 0).toNat)
      split
      · exact hcount
      · rename_i hpairs
        refine Run.ends_bind_of (Run.ends_and (readPairs_keeps_inv _ _ _ hcount) (readPairs_sameFrame _ _ _ _))
          (fun _ ht => ht.1) ?_
        rintro last t ⟨ht, hframe⟩
        have hinLen : t.inLen = s.inLen := hframe.get State.inLen
        have hcfg : t.cfg = s.cfg := hframe.get State.cfg
        refine decodePayload_keeps_inv ht ?_ ?_
        · rw [hinLen, hcfg]
          exact Decidable.not_not.1 hlen
        · rw [hinLen]
          exact Decidable.not_not.1 hpairs

/-! ### Every command, and every step -/

theorem body_keeps_inv (i : Instr) {s : State} (h : s.Inv) : (body i s).ends State.Inv := by
  cases i with
  | nop => exact h
  | clear => exact h.ctxClear
  | freq => exact freqBody_keeps_inv h
  | build => exact h.buildTree
  | codegen => exact codegenBody_keeps_inv h
  | bwInit => exact bwInitBody_keeps_inv h
  | bwPutb => exact bwPutbBody_keeps_inv h
  | bwPuts => exact bwPutsBody_keeps_inv h
  | bwPutsym => exact bwPutsymBody_keeps_inv h
  | bwFinal => exact bwFinalBody_keeps_inv h
  | brInit => exact brInitBody_keeps_inv h
  | brGetb => exact brGetbBody_keeps_inv h
  | brGetsym => exact brGetsymBody_keeps_inv h
  | encode => exact encodeBody_keeps_inv h
  | decode => exact decodeBody_keeps_inv h

theorem exec_keeps_inv (i : Instr) {s : State} (h : s.Inv) : ∃ t, exec i s = .next t ∧ t.Inv := by
  rw [exec_eq_finish]
  exact finish_keeps_inv i (body_keeps_inv i h)

theorem sequencerTurn_keeps_inv {s : State} (h : s.Inv) : ∃ t, sequencerTurn s = .next t ∧ t.Inv := by
  unfold sequencerTurn complete
  split
  · split
    · exact exec_keeps_inv _ h
    · exact ⟨_, rfl, h.takeError _ _ _⟩
  · exact ⟨s, rfl, h⟩

end Sys2Proof.Machine
end

section
open Sys2Proof Sys2Proof.Machine

/-- Settles O22: the sequencer's turn by `body_keeps_inv`, a host access by what it can do, the reset input by the reset state. -/
theorem everyStepAnswersAndKeepsTheInvariant : Obligations.EveryStepAnswersAndKeepsTheInvariant := by
  unfold Obligations.EveryStepAnswersAndKeepsTheInvariant
  intro s h
  obtain ⟨es, -, hs⟩ | ⟨a, es, -, hs⟩ | ⟨es, -, hs⟩ := step_cases s
  · rw [hs]
    exact sequencerTurn_keeps_inv (h.withInputs es)
  · exact ⟨_, hs, (hostAccess_effect a _).keeps_inv (h.withInputs es)⟩
  · exact ⟨_, hs, (h.withInputs es).resetInput⟩
end

section
/-! The codes of a valid tree (rule R97): no code leads through another one's Leaf, and the weights `2 ^ (255 − depth)` of the
nodes add up from the Leaves to the root. -/

namespace Sys2Proof.Machine

section Codes

variable {s : State} (hT : s.TreeInv)
include hT

/-- A path of one more branch goes through an Internal node to its child. -/
theorem State.TreeInv.indexAt_snoc (hpos : 0 < nsym s.ft) {p : Code} {b : Bool} {c : NodeIdx}
    (h : s.node.indexAt s.root (p ++ [b]) = some c) :
    ∃ n, s.node.indexAt s.root p = some n ∧ s.inTree n ∧ nsym s.ft ≤ n.toNat ∧ s.child n.toNat b = c := by
  rw [NodeMemory.indexAt_append] at h
  obtain ⟨n, hn, hc⟩ := Option.bind_eq_some_iff.1 h
  have htree := (hT.indexAt_some (hT.root_inTree hpos) hn).1
  by_cases hleaf : n.toNat < nsym s.ft
  · rw [hT.indexAt_leaf htree hleaf] at hc
    cases hc
  · have hlo := Nat.le_of_not_lt hleaf
    rw [hT.indexAt_internal htree hlo] at hc
    exact ⟨n, hn, htree, hlo, Option.some.inj hc⟩

/-- A node is the child of one record on one branch only (rule R30). -/
theorem State.TreeInv.parent_unique {i j : Nat} {b b' : Bool} (hi : nsym s.ft ≤ i) (hi' : i < 2 * nsym s.ft - 1)
    (hj : nsym s.ft ≤ j) (hj' : j < 2 * nsym s.ft - 1) (h : s.child i b = s.child j b') : i = j ∧ b = b' := by
  have hlt := hT.child_lt hi hi' b
  have hmem {m : Nat} {d : Bool} (hm : nsym s.ft ≤ m) (hm' : m < 2 * nsym s.ft - 1) :
      m ∈ s.parents (nsym s.ft) (s.child m d).toNat := by
    refine List.mem_filter.2 ⟨List.mem_range.2 hm', ?_⟩
    cases d <;> simp [State.child, hm]
  obtain ⟨m, hm⟩ := List.length_eq_one_iff.1 (hT.oneParent (s.child i b).toNat (by omega))
  have him : i ∈ [m] := hm ▸ hmem hi hi'
  have hjm : j ∈ [m] := hm ▸ h ▸ hmem hj hj'
  obtain rfl := (List.mem_singleton.1 him).trans (List.mem_singleton.1 hjm).symm
  refine ⟨rfl, ?_⟩
  obtain ⟨-, -, -, -, hne, -⟩ := hT.internalAt i hi hi'
  cases b <;> cases b'
  · rfl
  · exact absurd h hne
  · exact absurd h.symm hne
  · rfl

/-- There is one path to each node. -/
theorem State.TreeInv.path_unique (hpos : 0 < nsym s.ft) {p q : Code} {c : NodeIdx}
    (hp : s.node.indexAt s.root p = some c) (hq : s.node.indexAt s.root q = some c) : p = q := by
  have htree := hT.root_inTree hpos
  have hroot {r : Code} (hr : s.node.indexAt s.root r = some s.root) : r = [] := by
    obtain ⟨-, hlen, -⟩ := hT.indexAt_some htree hr
    exact List.eq_nil_of_length_eq_zero (by omega)
  induction p using List.reverseRecOn generalizing c q with
  | nil =>
    obtain rfl : s.root = c := Option.some.inj hp
    exact (hroot hq).symm
  | append_singleton p b ih =>
    rcases List.eq_nil_or_concat' q with rfl | ⟨q, b', rfl⟩
    · obtain rfl : s.root = c := Option.some.inj hq
      exact hroot hp
    · obtain ⟨n, hn, hnt, hnlo, hnc⟩ := hT.indexAt_snoc hpos hp
      obtain ⟨m, hm, hmt, hmlo, hmc⟩ := hT.indexAt_snoc hpos hq
      obtain ⟨hnm, rfl⟩ := hT.parent_unique hnlo hnt hmlo hmt (hnc.trans hmc.symm)
      obtain rfl := BitVec.eq_of_toNat_eq hnm
      rw [ih hn hm]

/-- Two Leaves have two symbols (rules R22, R86). -/
theorem State.TreeInv.leaf_unique {i j : Nat} (hi : i < nsym s.ft) (hj : j < nsym s.ft)
    (h : (s.recAt i).sym = (s.recAt j).sym) : i = j := by
  have hasc := List.pairwise_iff_getElem.1 (pairs_ascending s.ft)
  rw [hT.leafAt i _ (List.getElem?_eq_getElem hi), hT.leafAt j _ (List.getElem?_eq_getElem hj)] at h
  have hsym : (pairs s.ft)[i].1.toNat = (pairs s.ft)[j].1.toNat := congrArg BitVec.toNat h
  rcases Nat.lt_trichotomy i j with hlt | rfl | hlt
  · have := hasc i j hi hj hlt
    omega
  · rfl
  · have := hasc j i hj hi hlt
    omega

/-- A path that goes on beyond the Leaf of a symbol leads nowhere, so no path of another symbol begins with it. -/
theorem State.TreeInv.sym_eq_of_prefix (hpos : 0 < nsym s.ft) {c d : Code} {p q : Byte}
    (hp : s.node.leadsTo s.root c p = true) (hq : s.node.leadsTo s.root d q = true) (hpre : c <+: d) : p = q := by
  obtain ⟨r, rfl⟩ := hpre
  obtain ⟨n, hn, hleaf, rfl⟩ := (hT.leadsTo_iff hpos).1 hp
  obtain ⟨m, hm, -, rfl⟩ := (hT.leadsTo_iff hpos).1 hq
  have htree := (hT.indexAt_some (hT.root_inTree hpos) hn).1
  rw [NodeMemory.indexAt_append, hn, Option.bind_some] at hm
  cases r with
  | nil => rw [Option.some.inj hm]
  | cons b bs =>
    rw [hT.indexAt_leaf htree hleaf] at hm
    cases hm

/-- No code begins with another one (rule R97 (a)). -/
theorem State.CodeInv.prefixFree (hC : s.CodeInv) : prefixFreeOn s.ft s.ct.at := by
  intro p q hp hq hne hpre
  apply hne
  cases hkind : s.treeKind with
  | none => exact absurd (at_eq_zero_of_nsym_eq_zero (hT.nsym_of_none hkind) p) hp
  | single =>
    have h1 := hT.nsym_of_single hkind
    obtain ⟨i, hi, rfl⟩ := hT.exists_leaf hp
    obtain ⟨j, hj, rfl⟩ := hT.exists_leaf hq
    rw [show i = j by omega]
  | multi =>
    have hk := hT.nsym_of_multi hkind
    obtain ⟨-, hlp⟩ := hC.multi hkind p hp
    obtain ⟨-, hlq⟩ := hC.multi hkind q hq
    exact hT.sym_eq_of_prefix (by omega) hlp hlq hpre

/-- Weights of the nodes: the root's is `2 ^ 255`, and each branch halves it. -/
theorem State.TreeInv.exists_weights (hpos : 0 < nsym s.ft) :
    ∃ W : Nat → Nat, ∀ n path, s.node.indexAt s.root path = some n → W n.toNat = 2 ^ (255 - path.length) := by
  have hone : ∀ i : Nat, ∃ w : Nat, ∀ n path, n.toNat = i → s.node.indexAt s.root path = some n →
      w = 2 ^ (255 - path.length) := by
    intro i
    by_cases h : ∃ (n : NodeIdx) (path : Code), n.toNat = i ∧ s.node.indexAt s.root path = some n
    · obtain ⟨n, path, hn, hpath⟩ := h
      refine ⟨2 ^ (255 - path.length), fun m q hm hq => ?_⟩
      obtain rfl := BitVec.eq_of_toNat_eq (hn.trans hm.symm)
      rw [hT.path_unique hpos hpath hq]
    · exact ⟨0, fun n path hn hpath => absurd ⟨n, path, hn, hpath⟩ h⟩
  choose W hW using hone
  exact ⟨W, fun n path hpath => hW n.toNat n path rfl hpath⟩

/-- The children of the Internal nodes are the nodes below the root, each once. -/
theorem State.TreeInv.sum_children (W : Nat → Nat) :
    ∑ i ∈ Finset.Ico (nsym s.ft) (2 * nsym s.ft - 1), (W (s.child i true).toNat + W (s.child i false).toNat) =
      ∑ c ∈ Finset.range (2 * nsym s.ft - 2), W c := by
  have hpairs : ∑ x ∈ Finset.Ico (nsym s.ft) (2 * nsym s.ft - 1) ×ˢ (Finset.univ : Finset Bool), W (s.child x.1 x.2).toNat =
      ∑ c ∈ Finset.range (2 * nsym s.ft - 2), W c := by
    refine Finset.sum_nbij (fun x => (s.child x.1 x.2).toNat) ?_ ?_ ?_ (fun _ _ => rfl)
    · rintro ⟨i, b⟩ hx
      obtain ⟨hlo, hhi⟩ := Finset.mem_Ico.1 (Finset.mem_product.1 hx).1
      have hlt : (s.child i b).toNat < i := hT.child_lt hlo hhi b
      have hi : i < 2 * nsym s.ft - 1 := hhi
      exact Finset.mem_range.2 (hlt.trans_le (by omega))
    · rintro ⟨i, b⟩ hx ⟨j, b'⟩ hy heq
      obtain ⟨hlo, hhi⟩ := Finset.mem_Ico.1 (Finset.mem_product.1 hx).1
      obtain ⟨hlo', hhi'⟩ := Finset.mem_Ico.1 (Finset.mem_product.1 hy).1
      obtain ⟨rfl, rfl⟩ := hT.parent_unique hlo hhi hlo' hhi' (BitVec.eq_of_toNat_eq heq)
      rfl
    · intro c hc
      have hk := nsym_le s.ft
      have hc' : c < 2 * nsym s.ft - 2 := Finset.mem_range.1 hc
      have hnat : (BitVec.ofNat 9 c).toNat = c := Nat.mod_eq_of_lt (by omega)
      obtain ⟨i, b, hlo, hhi, hchild⟩ := hT.exists_parent (c := BitVec.ofNat 9 c) (by omega)
      refine ⟨(i, b), Finset.mem_product.2 ⟨Finset.mem_Ico.2 ⟨hlo, hhi⟩, Finset.mem_univ b⟩, ?_⟩
      exact (congrArg BitVec.toNat hchild).trans hnat
  rw [← hpairs, Finset.sum_product]
  refine Finset.sum_congr rfl fun i _ => ?_
  rw [Fintype.sum_bool]

/-- Where each Internal node weighs as much as its children, the Leaves weigh as much as the root. -/
theorem State.TreeInv.sum_leaves (hk : 2 ≤ nsym s.ft) {W : Nat → Nat}
    (hW : ∀ i, nsym s.ft ≤ i → i < 2 * nsym s.ft - 1 → W (s.child i true).toNat + W (s.child i false).toNat = W i) :
    ∑ i ∈ Finset.range (nsym s.ft), W i = W (2 * nsym s.ft - 2) := by
  have hchildren := hT.sum_children W
  rw [Finset.sum_congr rfl fun i hi => hW i (Finset.mem_Ico.1 hi).1 (Finset.mem_Ico.1 hi).2] at hchildren
  have hsplit := Finset.sum_range_add_sum_Ico W (show nsym s.ft ≤ 2 * nsym s.ft - 1 by omega)
  rw [hchildren, show 2 * nsym s.ft - 1 = 2 * nsym s.ft - 2 + 1 by omega, Finset.sum_range_succ] at hsplit
  omega

/-- The sum of `2 ^ (255 − depth)` over the Leaves is `2 ^ 255`. -/
theorem State.CodeInv.complete (hC : s.CodeInv) (hkind : s.treeKind = .multi) :
    ((retained s.ft).map fun sym => 2 ^ (255 - s.ct.len sym)).sum = 2 ^ 255 := by
  have hk := hT.nsym_of_multi hkind
  have hpos : 0 < nsym s.ft := by omega
  have hmax := nsym_le s.ft
  have htree := hT.root_inTree hpos
  obtain ⟨W, hW⟩ := hT.exists_weights hpos
  have hroot : W (2 * nsym s.ft - 2) = 2 ^ 255 := by
    have hr := hT.root
    rw [if_neg (Nat.ne_of_gt hpos)] at hr
    rw [← hr]
    exact hW s.root [] rfl
  have hinternal (i : Nat) (hlo : nsym s.ft ≤ i) (hhi : i < 2 * nsym s.ft - 1) :
      W (s.child i true).toNat + W (s.child i false).toNat = W i := by
    have hi : (BitVec.ofNat 9 i).toNat = i := Nat.mod_eq_of_lt (by omega)
    have hit : s.inTree (BitVec.ofNat 9 i) := by unfold State.inTree; omega
    obtain ⟨path, hpath⟩ := hT.exists_path hit
    have hchild (b : Bool) : s.node.indexAt s.root (path ++ [b]) = some (s.child i b) := by
      rw [NodeMemory.indexAt_append, hpath, Option.bind_some, hT.indexAt_internal hit (by omega), hi]
      rfl
    have hlen : path.length + 1 ≤ 255 := by
      obtain ⟨-, -, hlen⟩ := hT.indexAt_some htree (hchild true)
      have := hlen (by simp)
      rw [List.length_append, List.length_singleton] at this
      unfold State.inTree at htree
      omega
    have hwi := hW _ _ hpath
    rw [hi] at hwi
    rw [hW _ _ (hchild true), hW _ _ (hchild false), hwi, List.length_append, List.length_append, List.length_singleton,
      List.length_singleton, ← Nat.two_mul, ← Nat.pow_succ']
    congr 1
    omega
  have hleaf (i : Nat) (hi : i < nsym s.ft) : W i = 2 ^ (255 - s.ct.len (s.recAt i).sym) := by
    obtain ⟨-, hlead⟩ := hC.multi hkind _ (hT.sym_retained hi)
    obtain ⟨n, hpath, hn, hsym⟩ := (hT.leadsTo_iff hpos).1 hlead
    have hwi := hW n _ hpath
    rwa [hT.leaf_unique hn hi hsym] at hwi
  have hretained : retained s.ft = (List.range (nsym s.ft)).map fun i => (s.recAt i).sym := by
    refine List.ext_getElem (by rw [retained, List.length_map, List.length_map, List.length_range]; rfl) fun i h1 h2 => ?_
    have hi : i < nsym s.ft := by simpa using h2
    simp only [retained, List.getElem_map, List.getElem_range]
    exact (congrArg NodeRec.sym (hT.leafAt i _ (List.getElem?_eq_getElem hi))).symm
  rw [hretained, List.map_map, ← hroot, ← hT.sum_leaves hk hinternal]
  refine congrArg List.sum (List.map_congr_left fun i hi => ?_)
  exact (hleaf i (List.mem_range.1 hi)).symm

end Codes

end Sys2Proof.Machine
end

section
open Sys2Proof Sys2Proof.Machine

/-- Settles O41: no path leads on beyond a Leaf, and the weights of the Leaves add up to the root's. -/
theorem codesArePrefixFreeAndComplete : Obligations.CodesArePrefixFreeAndComplete := by
  unfold Obligations.CodesArePrefixFreeAndComplete
  intro s h hv
  have hT := h.treeOk (h.ctNeedsTree hv)
  have hC := h.codesOk hv
  exact ⟨hC.prefixFree hT, hC.complete hT⟩
end

section
/-! The spaces of the address map (rule R45): which accesses of a block that is not BUSY are answered, and which are violations
(rules R46, R47); what a violation, an answered read and a byte write leave unchanged (rules R48, R49). -/

namespace Sys2Proof.Machine

/-! ### The four word spaces and the two byte spaces -/

theorem Config.sizes_of_wellFormed {c : Config} (hc : c.wellFormed = true) :
    (1 ≤ c.ibufSize ∧ c.ibufSize ≤ 2 ^ 30) ∧ 2 ≤ c.obufSize ∧ c.obufSize ≤ 2 ^ 30 := by
  simp only [Config.wellFormed, Config.ibufSizeOk, Config.obufSizeOk, Bool.and_eq_true, decide_eq_true_eq] at hc
  exact hc.1

theorem elementAt_ibufByte {c : Config} {a : Nat} (ha : a < c.ibufSize) : elementAt c (0x40000000 + a) = .ibuf a := by
  rw [elementAt, if_neg (by omega), if_neg (by omega), if_neg (by omega), if_neg (by omega), if_pos (by omega),
    Nat.add_sub_cancel_left]

/-- OBUF begins where the largest IBUF ends (rules R6, R45). -/
theorem elementAt_obufByte {c : Config} (hc : c.wellFormed = true) {a : Nat} (ha : a < c.obufSize) :
    elementAt c (0x80000000 + a) = .obuf a := by
  obtain ⟨⟨-, hi⟩, -⟩ := Config.sizes_of_wellFormed hc
  rw [elementAt, if_neg (by omega), if_neg (by omega), if_neg (by omega), if_neg (by omega), if_neg (by omega),
    if_pos (by omega), Nat.add_sub_cancel_left]

theorem elementAt_ftWindow (c : Config) {o : Nat} (h : 0x400 ≤ o ∧ o ≤ 0x7FF) : ∃ sym, elementAt c o = .ft sym :=
  ⟨_, by rw [elementAt, if_neg (by omega), if_pos (by omega)]⟩

theorem elementAt_wordSpace (c : Config) {o : Nat} (h : inWordSpace o) :
    (o < 0x100 ∧ elementAt c o = .reg o) ∨ (∃ sym, elementAt c o = .ft sym) ∨ (∃ sym w, elementAt c o = .ct sym w) ∨
      ∃ i w, elementAt c o = .node i w := by
  obtain hreg | hft | hwindow := h
  · exact .inl ⟨by omega, elementAt_reg c (by omega)⟩
  · exact .inr (.inl (elementAt_ftWindow c hft))
  · exact .inr (.inr (elementAt_readOnlyWindow c hwindow))

theorem elementAt_byteSpace {c : Config} (hc : c.wellFormed = true) {o : Nat} (h : inByteSpace c o) :
    (∃ a, elementAt c o = .ibuf a) ∨ ∃ a, elementAt c o = .obuf a := by
  obtain ⟨⟨hi, -⟩, ho, -⟩ := Config.sizes_of_wellFormed hc
  obtain ⟨hlo, hhi⟩ | ⟨hlo, hhi⟩ := h
  · obtain ⟨a, rfl⟩ := Nat.exists_eq_add_of_le hlo
    exact .inl ⟨a, elementAt_ibufByte (by omega)⟩
  · obtain ⟨a, rfl⟩ := Nat.exists_eq_add_of_le hlo
    exact .inr ⟨a, elementAt_obufByte hc (by omega)⟩

theorem elementAt_unmapped {c : Config} {o : Nat} (hw : ¬ inWordSpace o) (hb : ¬ inByteSpace c o) :
    elementAt c o = .unmapped := by
  unfold inWordSpace at hw
  unfold inByteSpace at hb
  rw [elementAt, if_neg (by omega), if_neg (by omega), if_neg (by omega), if_neg (by omega), if_neg (by omega),
    if_neg (by omega)]

/-! ### Malformed and unmapped accesses (rule R47) -/

theorem wordAccess_violates {s : State} {o : Word} (hc : s.cfg.wellFormed = true)
    (h : ¬ (o.toNat % 4 = 0 ∧ inWordSpace o.toNat)) :
    hostRead32 o s = violate (.read32 o) s ∧ ∀ v, hostWrite32 o v s = violate (.write32 o v) s := by
  by_cases halign : o.toNat % 4 = 0
  · have hw : ¬ inWordSpace o.toNat := fun hw => h ⟨halign, hw⟩
    by_cases hb : inByteSpace s.cfg o.toNat
    · obtain ⟨a, he⟩ | ⟨a, he⟩ := elementAt_byteSpace hc hb <;> simp [hostRead32, hostWrite32, halign, he]
    · simp [hostRead32, hostWrite32, halign, elementAt_unmapped hw hb]
  · simp [hostRead32, hostWrite32, halign]

theorem byteAccess_violates {s : State} {o : Word} (h : ¬ inByteSpace s.cfg o.toNat) :
    hostRead8 o s = violate (.read8 o) s ∧ ∀ v, hostWrite8 o v s = violate (.write8 o v) s := by
  by_cases hw : inWordSpace o.toNat
  · obtain ⟨-, he⟩ | ⟨sym, he⟩ | ⟨sym, w, he⟩ | ⟨i, w, he⟩ := elementAt_wordSpace s.cfg hw <;>
      simp [hostRead8, hostWrite8, he]
  · simp [hostRead8, hostWrite8, elementAt_unmapped hw h]

theorem hostAccess_violates {s : State} (hc : s.cfg.wellFormed = true) (hb : s.busy = false) {a : Access}
    (h : ¬ wellFormedAccess s.cfg a) : hostAccess a s = violate a s := by
  simp only [hostAccess, hb, Bool.false_eq_true, if_false]
  cases a with
  | read32 o => exact (wordAccess_violates hc h).1
  | write32 o v => exact (wordAccess_violates hc h).2 v
  | read8 o => exact (byteAccess_violates h).1
  | write8 o v => exact (byteAccess_violates h).2 v

/-! ### Well-formed accesses (rules R46, R48) -/

theorem writeReg_draws (r : Nat) (v : Word) (s : State) : (writeReg r v s).draws = s.draws := by
  unfold writeReg
  split
  · unfold writeCmd
    split <;> rfl
  all_goals rfl

section WellFormed

variable {s : State} {o : Word} (hb : s.busy = false)
include hb

/-- A well-formed 32-bit read is answered with a word that does not depend on the pending events or on the last answer. -/
theorem hostAccess_read32_answered (halign : o.toNat % 4 = 0) (hw : inWordSpace o.toNat) :
    ∃ v : Word, ∀ es w, hostAccess (.read32 o) { s with inputs := es, answer := w } =
      { s with inputs := es, answer := .word v } := by
  obtain ⟨hr, -⟩ | ⟨sym, he⟩ | ⟨sym, i, he⟩ | ⟨n, i, he⟩ := elementAt_wordSpace s.cfg hw
  · exact ⟨readReg s o.toNat, fun es w => hostAccess_read32_reg (s := { s with inputs := es, answer := w }) hb halign hr⟩
  · exact ⟨s.ft.at sym, fun es w => hostAccess_read32_ft (s := { s with inputs := es, answer := w }) hb halign he⟩
  · exact ⟨readCtWord s sym i, fun es w => hostAccess_read32_ct (s := { s with inputs := es, answer := w }) hb halign he⟩
  · exact ⟨readNodeWord s n i, fun es w => hostAccess_read32_node (s := { s with inputs := es, answer := w }) hb halign he⟩

/-- An 8-bit read of a byte of IBUF. -/
theorem hostAccess_read8_ibuf {a : Nat} (he : elementAt s.cfg o.toNat = .ibuf a) :
    hostAccess (.read8 o) s = { s with answer := .byte (s.ibufByte a) } := by
  simp [hostAccess, hb, hostRead8, he]

/-- An 8-bit read of a byte of OBUF. -/
theorem hostAccess_read8_obuf {a : Nat} (he : elementAt s.cfg o.toNat = .obuf a) :
    hostAccess (.read8 o) s = { s with answer := .byte (s.obufByte a) } := by
  simp [hostAccess, hb, hostRead8, he]

theorem hostAccess_write8_ibuf (v : Byte) {a : Nat} (he : elementAt s.cfg o.toNat = .ibuf a) :
    hostAccess (.write8 o v) s = { s with ibuf := s.ibuf.write a v, answer := .none } := by
  simp [hostAccess, hb, hostWrite8, he]

theorem hostAccess_write8_obuf (v : Byte) {a : Nat} (he : elementAt s.cfg o.toNat = .obuf a) :
    hostAccess (.write8 o v) s = { s with obuf := s.obuf.write a v, answer := .none } := by
  simp [hostAccess, hb, hostWrite8, he]

/-- A well-formed 8-bit read is answered with a byte that does not depend on the pending events or on the last answer. -/
theorem hostAccess_read8_answered (hc : s.cfg.wellFormed = true) (h : inByteSpace s.cfg o.toNat) :
    ∃ v : Byte, ∀ es w, hostAccess (.read8 o) { s with inputs := es, answer := w } =
      { s with inputs := es, answer := .byte v } := by
  obtain ⟨a, he⟩ | ⟨a, he⟩ := elementAt_byteSpace hc h
  · exact ⟨s.ibufByte a, fun es w => hostAccess_read8_ibuf (s := { s with inputs := es, answer := w }) hb he⟩
  · exact ⟨s.obufByte a, fun es w => hostAccess_read8_obuf (s := { s with inputs := es, answer := w }) hb he⟩

/-- A well-formed access is no violation: it neither sets HOSTVIOL nor draws a free value. -/
theorem hostAccess_wellFormed_marks (hc : s.cfg.wellFormed = true) {a : Access} (h : wellFormedAccess s.cfg a) :
    (hostAccess a s).hostviol = s.hostviol ∧ (hostAccess a s).draws = s.draws := by
  cases a with
  | read32 o =>
    obtain ⟨halign, hw⟩ := h
    obtain ⟨v, hread⟩ := hostAccess_read32_answered hb halign hw
    rw [hread s.inputs s.answer]
    exact ⟨rfl, rfl⟩
  | write32 o v =>
    obtain ⟨halign, hreg | hft | hwindow⟩ := h
    · rw [hostAccess_write32_reg hb halign v (by omega)]
      exact ⟨(writeReg_marks _ v s).2, writeReg_draws _ v s⟩
    · obtain ⟨sym, he⟩ := elementAt_ftWindow s.cfg hft
      rw [hostAccess_write32_ft hb halign v he]
      exact ⟨rfl, rfl⟩
    · rw [hostAccess_write32_readOnlyWindow hb halign v hwindow]
      exact ⟨rfl, rfl⟩
  | read8 o =>
    obtain ⟨v, hread⟩ := hostAccess_read8_answered hb hc h
    rw [hread s.inputs s.answer]
    exact ⟨rfl, rfl⟩
  | write8 o v =>
    obtain ⟨a, he⟩ | ⟨a, he⟩ := elementAt_byteSpace hc h
    · rw [hostAccess_write8_ibuf hb v he]
      exact ⟨rfl, rfl⟩
    · rw [hostAccess_write8_obuf hb v he]
      exact ⟨rfl, rfl⟩

/-- The answer to an 8-bit read of a byte of IBUF. -/
theorem step_read8_ibuf {a : Nat} {es : List Event} (he : elementAt s.cfg o.toNat = .ibuf a) (h : accessNext s (.read8 o) es) :
    step s = .next { s with inputs := es, answer := .byte (s.ibufByte a) } := by
  rw [step_access h, hostAccess_read8_ibuf (s := { s with inputs := es }) hb he]
  rfl

/-- The answer to an 8-bit read of a byte of OBUF. -/
theorem step_read8_obuf {a : Nat} {es : List Event} (he : elementAt s.cfg o.toNat = .obuf a) (h : accessNext s (.read8 o) es) :
    step s = .next { s with inputs := es, answer := .byte (s.obufByte a) } := by
  rw [step_access h, hostAccess_read8_obuf (s := { s with inputs := es }) hb he]
  rfl

end WellFormed

/-! ### The bytes of the buffers after a write (rule R28) -/

theorem ibufByte_of_write {s t : State} {a : Nat} {v : Byte} (h : t.ibuf = s.ibuf.write a v) (hr : t.resets = s.resets)
    (b : Nat) : t.ibufByte b = if b = a then v else s.ibufByte b := by
  rw [State.ibufByte, State.ibufByte, h, hr, Memory.lookup_write]
  by_cases hba : b = a <;> simp [hba]

theorem obufByte_of_write {s t : State} {a : Nat} {v : Byte} (h : t.obuf = s.obuf.write a v) (hr : t.resets = s.resets)
    (b : Nat) : t.obufByte b = if b = a then v else s.obufByte b := by
  rw [State.obufByte, State.obufByte, h, hr, Memory.lookup_write]
  by_cases hba : b = a <;> simp [hba]

/-! ### A BUSY block (rules R47, R49) -/

/-- A BUSY block takes every access but a read of STATUS as a violation. -/
theorem hostAccess_busy {s : State} (hb : s.busy = true) (a : Access) :
    hostAccess a s = if a = .read32 0x04 then { s with answer := .word (statusWord s) } else violate a s := by
  unfold hostAccess
  exact if_pos hb

/-- A violation does not show in STATUS while the block is BUSY. -/
theorem statusWord_violate {s : State} (hb : s.busy = true) (a : Access) : statusWord (violate a s) = statusWord s := by
  have hshown : hostviolShown (violate a s) = hostviolShown s := by
    rw [violate_only, hostviolShown_busy hb]
    exact hostviolShown_busy hb
  rw [statusWord, hshown, violate_only]
  rfl

/-- What the accept makes of each bit of STATUS (rules R49, R63). -/
theorem statusWord_acceptWord {s : State} (hb : s.busy = false) (w : Word) :
    (statusWord (acceptWord w s)).getLsbD 0 = true ∧ (statusWord (acceptWord w s)).getLsbD 1 = false ∧
      (statusWord (acceptWord w s)).getLsbD 2 = false ∧ (statusWord (acceptWord w s)).getLsbD 5 = irq (acceptWord w s) ∧
      ∀ n, n ∉ [0, 1, 2, 5] → (statusWord (acceptWord w s)).getLsbD n = (statusWord s).getLsbD n := by
  refine ⟨?_, ?_, ?_, ?_, fun n hn => ?_⟩
  case refine_5 =>
    simp only [List.mem_cons, List.not_mem_nil, or_false, not_or] at hn
    obtain ⟨h0, h1, h2, h5⟩ := hn
    simp [getLsbD_statusWord, hostviolShown_idle hb, brEmpty, h0, h1, h2, h5]
  all_goals
    rw [getLsbD_statusWord]
    simp

end Sys2Proof.Machine
end

section
open Sys2Proof Sys2Proof.Machine

/-- Settles O8: a well-formed access meets an element of its own kind, every other access is `violate`. -/
theorem malformedOrUnmappedAccessOnlySetsHostviol : Obligations.MalformedOrUnmappedAccessOnlySetsHostviol := by
  unfold Obligations.MalformedOrUnmappedAccessOnlySetsHostviol
  intro s a es hb hc h
  refine ⟨fun hw => ⟨_, step_access h, ?_⟩, fun hw => ⟨_, step_access h, ?_⟩⟩
  · exact hostAccess_wellFormed_marks (s := { s with inputs := es }) hb hc hw
  · rw [hostAccess_violates (s := { s with inputs := es }) hc hb hw]
    exact violate_only a _

/-- Settles O9: a BUSY block shows `hostviolAtAccept`, which no violation touches; the accept by its effect on each flag. -/
theorem busyBlockAnswersOnlyStatus : Obligations.BusyBlockAnswersOnlyStatus := by
  unfold Obligations.BusyBlockAnswersOnlyStatus
  refine ⟨fun s a es hb h => ?_, fun s w es hb hf h => ?_⟩
  · have hstep := (step_access h).trans (congrArg _ (hostAccess_busy (s := { s with inputs := es }) hb a))
    by_cases ha : a = .read32 0x04
    · rw [if_pos ha] at hstep
      exact ⟨fun _ => hstep, fun hne => absurd ha hne, _, hstep, hb, rfl⟩
    · rw [if_neg ha] at hstep
      have hbusy : (violate a { s with inputs := es }).busy = true := by
        rw [violate_only]
        exact hb
      exact ⟨fun heq => absurd heq ha, fun _ => ⟨_, hstep, violate_only a _⟩, _, hstep, hbusy,
        statusWord_violate (s := { s with inputs := es }) hb a⟩
  · obtain ⟨-, -, haccept⟩ := cmdWriteIsAcceptedOnlyInIdle s w es h
    exact ⟨_, haccept hb hf, rfl, statusWord_acceptWord (s := { s with inputs := es, answer := .none }) hb w⟩

/-- Settles O10: the answer does not depend on the pending events or on the answer before it. -/
theorem readsHaveNoSideEffect : Obligations.ReadsHaveNoSideEffect := by
  unfold Obligations.ReadsHaveNoSideEffect
  intro s a es o ha hb hc hw h
  obtain ⟨v, hv, hread⟩ : ∃ v : Answer, v ≠ .none ∧ ∀ es w, hostAccess a { s with inputs := es, answer := w } =
      { s with inputs := es, answer := v } := by
    obtain rfl | rfl := ha
    · obtain ⟨halign, hspace⟩ := hw
      obtain ⟨v, hread⟩ := hostAccess_read32_answered hb halign hspace
      exact ⟨.word v, by simp, hread⟩
    · obtain ⟨v, hread⟩ := hostAccess_read8_answered hb hc hw
      exact ⟨.byte v, by simp, hread⟩
  refine ⟨{ s with inputs := .access a :: es, answer := v }, { s with inputs := es, answer := v }, ?_, ?_, rfl, rfl, hv⟩
  · rw [step_access h]
    exact congrArg _ (hread _ s.answer)
  · rw [step_access (s := { s with inputs := .access a :: es, answer := v }) rfl]
    exact congrArg _ (hread es v)

/-- Settles O17: the offset selects the byte, the write stores it, and the read finds it. -/
theorem hostByteWriteStoresOneByte : Obligations.HostByteWriteStoresOneByte := by
  unfold Obligations.HostByteWriteStoresOneByte
  intro s a o v es hb hc h
  refine ⟨fun ha ho => ?_, fun ha ho => ?_⟩
  · have he : elementAt s.cfg o.toNat = .ibuf a := by rw [ho, elementAt_ibufByte ha]
    have hwrite := step_access h
    rw [hostAccess_write8_ibuf (s := { s with inputs := .access (.read8 o) :: es }) hb v he] at hwrite
    have hbyte := ibufByte_of_write (s := s)
      (t := { s with inputs := .access (.read8 o) :: es, answer := .none, ibuf := s.ibuf.write a v }) rfl rfl
    refine ⟨_, hwrite, rfl, fun b hba => (hbyte b).trans (if_neg hba), ?_⟩
    rw [step_read8_ibuf (a := a) (es := es), hbyte a, if_pos rfl]
    exacts [hb, he, rfl]
  · have he : elementAt s.cfg o.toNat = .obuf a := by rw [ho, elementAt_obufByte hc ha]
    have hwrite := step_access h
    rw [hostAccess_write8_obuf (s := { s with inputs := .access (.read8 o) :: es }) hb v he] at hwrite
    have hbyte := obufByte_of_write (s := s)
      (t := { s with inputs := .access (.read8 o) :: es, answer := .none, obuf := s.obuf.write a v }) rfl rfl
    refine ⟨_, hwrite, rfl, fun b hba => (hbyte b).trans (if_neg hba), ?_⟩
    rw [step_read8_obuf (a := a) (es := es), hbyte a, if_pos rfl]
    exacts [hb, he, rfl]
end

section
/-! The decoder and the encoder are inverse to one another (rules R60, R62, R65), and the sequencer's turn as a step of the machine
(rule R64). -/

namespace Sys2Proof

/-- The opcode map read in both directions (rule R62). -/
theorem ofOpcode_eq_some_iff {op : BitVec 8} {i : Instr} : ofOpcode op = some i ↔ op = opcode i := by
  constructor
  · intro h
    unfold ofOpcode at h
    split at h <;> cases h <;> exact BitVec.eq_of_toNat_eq ‹_›
  · rintro rfl
    cases i <;> rfl

/-- A word is legal exactly where bits 31:8 are 0 and bits 7:0 are in the opcode map (rules R60, R65). -/
theorem decode_eq_ok_iff {w : Word} {i : Instr} :
    decode w = .ok i ↔ w.extractLsb' 8 24 = 0 ∧ ofOpcode (w.extractLsb' 0 8) = some i := by
  unfold decode
  by_cases hz : w.extractLsb' 8 24 = 0
  · rw [if_neg (not_not.2 hz)]
    cases ofOpcode (w.extractLsb' 0 8) <;> simp [hz]
  · rw [if_pos hz]
    exact ⟨nofun, fun h => absurd h.1 hz⟩

/-- A word with bits 31:8 zero is its low byte (rule R60). -/
theorem setWidth_lowByte {w : Word} (hz : w.extractLsb' 8 24 = 0) : (w.extractLsb' 0 8).setWidth 32 = w := by
  have hhigh := congrArg BitVec.toNat hz
  have hw := w.isLt
  apply BitVec.eq_of_toNat_eq
  simp only [BitVec.extractLsb'_toNat, Nat.shiftRight_eq_div_pow, BitVec.toNat_setWidth, BitVec.ofNat_eq_ofNat,
    BitVec.toNat_ofNat] at hhigh ⊢
  omega

/-- The decoder reads back what the encoder writes (rules R60, R62). -/
theorem decode_encode (i : Instr) : decode (encode i) = .ok i := by
  refine decode_eq_ok_iff.2 ⟨by cases i <;> rfl, ofOpcode_eq_some_iff.2 ?_⟩
  cases i <;> rfl

/-- Only the encoding of a command decodes to it (rules R62, R65). -/
theorem eq_encode_of_decode {w : Word} {i : Instr} (h : decode w = .ok i) : w = encode i := by
  obtain ⟨hz, hop⟩ := decode_eq_ok_iff.1 h
  rw [encode, ← ofOpcode_eq_some_iff.1 hop, setWidth_lowByte hz]

namespace Machine

/-- The sequencer's turn as a step (rule R64). -/
theorem step_turn {s : State} {es : List Event} (h : turnNext s es) : step s = sequencerTurn { s with inputs := es } := by
  obtain h | ⟨h, rfl⟩ := h
  · rw [step, h]
  · rw [step, h]
    simp only [← h]

theorem sequencerTurn_idle {s : State} (hb : s.busy = false) : sequencerTurn s = .next s := by
  rw [sequencerTurn, hb, if_neg Bool.false_ne_true]

theorem sequencerTurn_legal {s : State} {i : Instr} (hb : s.busy = true) (hi : decode s.cmdReg = .ok i) :
    sequencerTurn s = exec i s := by
  rw [sequencerTurn, if_pos hb, complete, hi]

/-- A word that no command encodes to completes with IllegalCommand (rule R65). -/
theorem sequencerTurn_illegal {s : State} (hb : s.busy = true) (hw : ∀ i, s.cmdReg ≠ encode i) :
    sequencerTurn s = .next (completeIllegal s) := by
  rw [sequencerTurn, if_pos hb, complete]
  cases hd : decode s.cmdReg with
  | ok i => exact absurd (eq_encode_of_decode hd) (hw i)
  | error e => rfl

end Machine
end Sys2Proof
end

section
open Sys2Proof Sys2Proof.Machine

/-- Settles O1: the opcode map holds the opcode of every command, and the encoder writes nothing above it. -/
theorem decodeReadsWhatEncodeWrites : Obligations.DecodeReadsWhatEncodeWrites := by
  unfold Obligations.DecodeReadsWhatEncodeWrites
  exact decode_encode

/-- Settles O2: each word is evaluated by the decoder. -/
theorem tableWordsDecodeToTheirCommands : Obligations.TableWordsDecodeToTheirCommands := by
  unfold Obligations.TableWordsDecodeToTheirCommands
  exact ⟨rfl, rfl, rfl, rfl, rfl, rfl, rfl, rfl⟩

/-- Settles O3: a legal word is its low byte, and the opcode map is one to one. -/
theorem legalWordsAreExactlyTheFifteenEncodings : Obligations.LegalWordsAreExactlyTheFifteenEncodings := by
  unfold Obligations.LegalWordsAreExactlyTheFifteenEncodings
  intro w i
  exact ⟨eq_encode_of_decode, fun h => h ▸ decode_encode i⟩

/-- Settles O4: the step is the sequencer's turn, and the turn of a BUSY block runs the decoded command. -/
theorem turnRunsTheDecodedCommand : Obligations.TurnRunsTheDecodedCommand := by
  unfold Obligations.TurnRunsTheDecodedCommand
  intro s es i hb hturn hi
  rw [step_turn hturn, sequencerTurn_legal (s := { s with inputs := es }) hb hi]

/-- Settles O5: the step is the sequencer's turn, which leaves a block that is not BUSY as it is. -/
theorem turnOfAnIdleBlockDoesNothing : Obligations.TurnOfAnIdleBlockDoesNothing := by
  unfold Obligations.TurnOfAnIdleBlockDoesNothing
  intro s es hb hturn
  rw [step_turn hturn, sequencerTurn_idle (s := { s with inputs := es }) hb]

/-- Settles O6: a word that is no encoding does not decode, and `completeIllegal` takes the error IllegalCommand. -/
theorem illegalWordCompletesWithIllegalCommand : Obligations.IllegalWordCompletesWithIllegalCommand := by
  unfold Obligations.IllegalWordCompletesWithIllegalCommand
  intro s es hb hturn hw
  rw [step_turn hturn, sequencerTurn_illegal (s := { s with inputs := es }) hb hw]
  rfl
end

section
/-! What the BitWriter does to a session (rules R106, R108, R109, R110, R125): with room, `putbit` and its sequences append their
bits, and the three commands write the bits of their operands. -/

namespace Sys2Proof.Machine

/-! ### A session -/

/-- `t` is `s` after `bs` was appended to the session that began at `base` and has written `w`: the bytes that filled up are the
only ones stored (rules R106, R108). -/
structure Appended (s t : State) (base : Nat) (w bs : List Bool) : Prop where
  holds : writerHolds t base (w ++ bs)
  kept : ∀ a, ¬ (base + w.length / 8 ≤ a ∧ a < base + (w.length + bs.length) / 8) → t.obufByte a = s.obufByte a
  only : WriterOnly s t

theorem Appended.refl {s : State} {base : Nat} {w : List Bool} (h : writerHolds s base w) : Appended s s base w [] where
  holds := by rwa [List.append_nil]
  kept := fun _ _ => rfl
  only := WriterOnly.refl s

theorem Appended.trans {s t u : State} {base : Nat} {w bs cs : List Bool} (h1 : Appended s t base w bs)
    (h2 : Appended t u base (w ++ bs) cs) : Appended s u base w (bs ++ cs) where
  holds := by
    rw [← List.append_assoc]
    exact h2.holds
  kept := fun a ha => by
    have hkept := h2.kept a
    simp only [List.length_append] at hkept ha
    exact (hkept (by omega)).trans (h1.kept a (by omega))
  only := h1.only.trans h2.only

theorem Appended.cfg_eq {s t : State} {base : Nat} {w bs : List Bool} (h : Appended s t base w bs) : t.cfg = s.cfg := by
  rw [h.only]

/-! ### One bit (rule R106) -/

section PutBit

variable {s : State} {base : Nat} {w : List Bool} {b : Bool} (h : writerHolds s base w)
include h

/-- The unfinished byte with the next bit in it. -/
theorem getLsbD_accWithBit_session {i : Nat} (hi : i < 8) : (accWithBit s.bwAcc s.bwCnt b).getLsbD (7 - i) =
    (decide (i < w.length % 8 + 1) && (w ++ [b]).getD (8 * (w.length / 8) + i) false) := by
  obtain ⟨-, hcnt, -, hacc⟩ := h
  rw [getLsbD_accWithBit, hacc i hi, hcnt]
  obtain hlt | heq | hgt := Nat.lt_trichotomy i (w.length % 8)
  · have hne : 7 - i ≠ 7 - w.length % 8 := by omega
    have hlt' : i < w.length % 8 + 1 := by omega
    rw [List.getD_append _ _ _ _ (by omega)]
    simp [hlt, hlt', hne]
  · have hend : 8 * (w.length / 8) + w.length % 8 = w.length := by omega
    rw [heq, hend]
    simp
  · have hne : 7 - i ≠ 7 - w.length % 8 := by omega
    have hge : ¬ i < w.length % 8 + 1 := by omega
    simp [hge, hne, Nat.not_lt.2 (Nat.le_of_lt hgt)]

/-- The stored bytes of the session are those of the longer one. -/
theorem writerHolds.stored_append {j i : Nat} (hj : j < w.length / 8) (hi : i < 8) :
    (s.obufByte (base + j)).getLsbD (7 - i) = (w ++ [b]).getD (8 * j + i) false := by
  obtain ⟨-, -, hstored, -⟩ := h
  rw [hstored j hj i hi, List.getD_append _ _ _ _ (by omega)]

/-- `putbit` with the bit that fills the byte stores the byte and begins a new one. -/
theorem putbit_appends_full (hsize : s.cfg.obufSize ≤ 2 ^ 30) (hroom : s.bwPos.toNat < s.cfg.obufSize) (h7 : s.bwCnt = 7) :
    ∃ t, putbit b s = .val () t ∧ Appended s t base w [b] := by
  have hacc (i : Nat) (hi : i < 8) := getLsbD_accWithBit_session (b := b) h hi
  have hstored (j : Nat) (hj : j < w.length / 8) (i : Nat) (hi : i < 8) := h.stored_append (b := b) hj hi
  have hbyte := obufByte_of_write (s := s) (t := { s with
    obuf := s.obuf.write s.bwPos.toNat (accWithBit s.bwAcc 7 b), bwPos := s.bwPos + 1, bwAcc := 0, bwCnt := 0 }) rfl rfl
  obtain ⟨hpos, hcnt, -, -⟩ := h
  have hmod : w.length % 8 = 7 := hcnt.symm.trans (congrArg BitVec.toNat h7)
  have hlen : (w ++ [b]).length = w.length + 1 := List.length_append
  refine ⟨_, putbit_full hroom h7, ⟨⟨?_, ?_, fun j hj i hi => ?_, fun i hi => ?_⟩, fun a ha => ?_, rfl⟩⟩
  · rw [hlen]
    bv_omega
  · rw [hlen]
    show 0 = _
    omega
  · rw [hbyte, hpos]
    by_cases hj' : j = w.length / 8
    · rw [if_pos (by rw [hj']), ← h7, hacc i hi, hj', decide_eq_true (by omega), Bool.true_and]
    · rw [if_neg (by omega), hstored j (by omega) i hi]
  · rw [hlen, decide_eq_false (by omega), Bool.false_and]
    exact BitVec.getLsbD_zero
  · rw [List.length_singleton] at ha
    exact (hbyte a).trans (if_neg (by omega))

/-- `putbit` with a bit that does not fill the byte keeps OBUF. -/
theorem putbit_appends_partial (hroom : s.bwPos.toNat < s.cfg.obufSize) (h7 : s.bwCnt ≠ 7) :
    ∃ t, putbit b s = .val () t ∧ Appended s t base w [b] := by
  have hacc (i : Nat) (hi : i < 8) := getLsbD_accWithBit_session (b := b) h hi
  have hstored (j : Nat) (hj : j < w.length / 8) (i : Nat) (hi : i < 8) := h.stored_append (b := b) hj hi
  obtain ⟨hpos, hcnt, -, -⟩ := h
  have hne : w.length % 8 ≠ 7 := fun e => h7 (BitVec.eq_of_toNat_eq (hcnt.trans e))
  have hlen : (w ++ [b]).length = w.length + 1 := List.length_append
  have hdiv : (w.length + 1) / 8 = w.length / 8 := by omega
  have hmod : (w.length + 1) % 8 = w.length % 8 + 1 := by omega
  refine ⟨_, putbit_partial hroom h7, ⟨⟨?_, ?_, ?_, ?_⟩, fun _ _ => rfl, rfl⟩⟩ <;> rw [hlen]
  · exact hpos.trans (by rw [hdiv])
  · bv_omega
  · rw [hdiv]
    exact hstored
  · rw [hdiv, hmod]
    exact hacc

end PutBit

/-- With room, `putbit` appends its bit to the session (rules R106, R108). -/
theorem putbit_appends {s : State} {base : Nat} {w : List Bool} (b : Bool) (hc : s.cfg.wellFormed = true)
    (h : writerHolds s base w) (hroom : 8 * base + w.length + 1 ≤ 8 * s.cfg.obufSize) :
    ∃ t, putbit b s = .val () t ∧ Appended s t base w [b] := by
  obtain ⟨-, -, hsize⟩ := Config.sizes_of_wellFormed hc
  have hpos : s.bwPos.toNat < s.cfg.obufSize := by
    obtain ⟨hpos, -⟩ := h
    omega
  by_cases h7 : s.bwCnt = 7
  · exact putbit_appends_full h hsize hpos h7
  · exact putbit_appends_partial h hpos h7

/-! ### A sequence of bits and the three commands -/

/-- With room, `putbits` appends its bits to the session (rules R108, R110, R126). -/
theorem putbits_appends {s : State} {base : Nat} {w : List Bool} (bs : List Bool) (hc : s.cfg.wellFormed = true)
    (h : writerHolds s base w) (hroom : 8 * base + w.length + bs.length ≤ 8 * s.cfg.obufSize) :
    ∃ t, putbits bs s = .val () t ∧ Appended s t base w bs := by
  induction bs generalizing s w with
  | nil => exact ⟨s, rfl, .refl h⟩
  | cons b bs ih =>
    rw [List.length_cons] at hroom
    obtain ⟨t, hput, ht⟩ := putbit_appends b hc h (by omega)
    obtain ⟨u, hputs, hu⟩ := ih (s := t) (w := w ++ [b]) (by rw [ht.cfg_eq, hc]) ht.holds (by
      rw [ht.cfg_eq, List.length_append, List.length_singleton]
      omega)
    exact ⟨u, by rw [putbits, hput, Run.bind_val, hputs], ht.trans hu⟩

theorem bwPutsymSym_eq (s : State) : bwPutsymSym s = s.arg0.setWidth 8 :=
  (BitVec.setWidth_eq_extractLsb' (by decide)).symm

/-- The end of a command that wrote bits: BW_PUTSYM reports the length of the code it wrote, the other two nothing (rules R109,
R110, R125). -/
def reportLength (i : Instr) (sym : Byte) (t : State) : State :=
  { t with res0 := if i = .bwPutsym then BitVec.ofNat 32 (t.ct.len sym) else t.res0 }

theorem WriterOnly.reportLength_eq {s t : State} (h : WriterOnly s t) (i : Instr) :
    reportLength i (s.arg0.setWidth 8) t = { s with
      obuf := t.obuf, bwPos := t.bwPos, bwAcc := t.bwAcc, bwCnt := t.bwCnt
      res0 := if i = .bwPutsym then BitVec.ofNat 32 (bitsToWrite i s).length else s.res0 } := by
  have hres : (if i = .bwPutsym then BitVec.ofNat 32 (t.ct.len (s.arg0.setWidth 8)) else t.res0) =
      if i = .bwPutsym then BitVec.ofNat 32 (bitsToWrite i s).length else s.res0 := by
    rw [h]
    by_cases hi : i = .bwPutsym
    · subst hi
      rfl
    · rw [if_neg hi, if_neg hi]
  rw [reportLength, hres]
  exact congrArg
    (fun u : State => { u with res0 := if i = Instr.bwPutsym then BitVec.ofNat 32 (bitsToWrite i s).length else s.res0 }) h

/-- Past its checks a BitWriter command writes the bits of its operands, and reports (rules R61, R109, R110, R125). -/
theorem body_of_mayWrite {i : Instr} {s : State} (h : mayWrite i s) :
    body i s = (putbits (bitsToWrite i s) s).bind fun _ t => .val () (reportLength i (s.arg0.setWidth 8) t) := by
  obtain ⟨hopen, rfl | ⟨rfl, hcount⟩ | ⟨rfl, hvalid, hcode⟩⟩ := h
  · show bwPutbBody s = ((putbit (bwPutbBit s) s).bind fun _ t => .val () t).bind _
    rw [bwPutbBody, hopen, if_neg Bool.noConfusion]
    cases putbit (bwPutbBit s) s <;> rfl
  · show bwPutsBody s = (putbits (bwPutsBits s) s).bind _
    rw [bwPutsBody, hopen, if_neg Bool.noConfusion]
    refine (if_neg (not_not.2 hcount)).trans ?_
    cases putbits (bwPutsBits s) s <;> rfl
  · have hlen : s.ct.len (s.arg0.setWidth 8) ≠ 0 := fun e => hcode (List.eq_nil_of_length_eq_zero e)
    show bwPutsymBody s = _
    rw [bwPutsymBody, hopen, hvalid, if_neg Bool.noConfusion, if_neg Bool.noConfusion, bwPutsymSym_eq]
    exact if_neg (not_not.2 hlen)

end Sys2Proof.Machine
end

section
open Sys2Proof Sys2Proof.Machine

/-- Settles O44: each command is `putbits` of its bits, which appends them one by one. -/
theorem bitWriterCommandsAppendTheirBits : Obligations.BitWriterCommandsAppendTheirBits := by
  unfold Obligations.BitWriterCommandsAppendTheirBits
  intro i s base w hc hmay hw hroom
  obtain ⟨t, hput, ht⟩ := putbits_appends (bitsToWrite i s) hc hw hroom
  refine ⟨completeNormally (reportLength i (s.arg0.setWidth 8) t), ?_, ht.holds, ht.kept, ?_⟩
  · rw [exec_eq_finish, body_of_mayWrite hmay, hput]
    rfl
  · exact congrArg completeNormally (ht.only.reportLength_eq i)
end

section
/-! The two commands without a check: NOP leaves the state to its completion, and CLEAR resets the context before it (rules R75 to
R77). -/

namespace Sys2Proof.Machine

theorem exec_nop (s : State) : exec .nop s = .next (completeNormally s) := exec_eq_finish .nop s

theorem exec_clear (s : State) : exec .clear s = .next (completeNormally (ctxClear s)) := exec_eq_finish .clear s

end Sys2Proof.Machine
end

section
open Sys2Proof Sys2Proof.Machine

/-- Settles O30: NOP does nothing but complete. -/
theorem nopOnlyCompletes : Obligations.NopOnlyCompletes := by
  unfold Obligations.NopOnlyCompletes
  exact exec_nop

/-- Settles O31: CLEAR completes with the cleared context, whose three tables read as empty. -/
theorem clearResetsTheContext : Obligations.ClearResetsTheContext := by
  unfold Obligations.ClearResetsTheContext
  intro s
  have hnode : (completeNormally (ctxClear s)).node = NodeMemory.clear := rfl
  exact ⟨completeNormally (ctxClear s), exec_clear s, FreqTable.at_empty, recAt_clear hnode, CodeTable.at_empty, rfl⟩
end

section
/-! FREQ (rules R80 to R82): the table of the input counts its bytes, so its total is the input's length; and the check of IN_LEN that
FREQ shares with BR_INIT, ENCODE and DECODE. -/

namespace Sys2Proof.Machine

/-! ### The table of the input (rule R81) -/

/-- The entries of a table in symbol order (rule R21). -/
theorem toList_eq_map_at (ft : FreqTable) : ft.toList = allSyms.map ft.at := by
  refine List.ext_getElem (by simp [allSyms_length]) fun i hi _ => ?_
  have hi' : i < 256 := by simpa using hi
  simp [allSyms_getElem, FreqTable.at, Nat.mod_eq_of_lt hi']

theorem allSyms_nodup : allSyms.Nodup := allSyms_ascending.imp fun hlt heq => Nat.ne_of_lt hlt (congrArg BitVec.toNat heq)

/-- Every element of a list is an occurrence of exactly one of the distinct values it is drawn from. -/
theorem sum_count_of_nodup {vals bs : List Byte} (hnodup : vals.Nodup) (hmem : ∀ b ∈ bs, b ∈ vals) :
    (vals.map fun v => bs.count v).sum = bs.length := by
  rw [← List.sum_toFinset _ hnodup]
  simpa only [Multiset.coe_count, Multiset.coe_card] using
    Multiset.sum_count_eq_card (m := (bs : Multiset Byte)) fun b hb => List.mem_toFinset.2 (hmem b hb)

/-- A table whose entries are the numbers of occurrences in a list sums to the list's length. -/
theorem total_eq_length_of_counts {ft : FreqTable} {bs : List Byte} (h : ∀ sym, (ft.at sym).toNat = bs.count sym) :
    total ft = bs.length := by
  rw [total, toList_eq_map_at, List.map_map, ← sum_count_of_nodup allSyms_nodup fun b _ => mem_allSyms b]
  exact congrArg List.sum (List.map_congr_left fun sym _ => h sym)

theorem length_inputBytes (s : State) : s.inputBytes.length = s.inLen.toNat := by
  rw [State.inputBytes, List.length_map, List.length_range]

theorem count_inputBytes (s : State) (sym : Byte) :
    s.inputBytes.count sym = ((List.range s.inLen.toNat).filter fun i => s.ibufByte i == sym).length := by
  rw [State.inputBytes, List.count, List.countP_map, List.countP_eq_length_filter]
  rfl

/-- No counter overflows, because IN_LEN has 32 bits (rule R82). -/
theorem toNat_inputTable_at (s : State) (sym : Byte) : ((inputTable s).at sym).toNat = s.inputBytes.count sym := by
  have hcount : s.inputBytes.count sym ≤ s.inLen.toNat := length_inputBytes s ▸ List.count_le_length
  have hlen := s.inLen.isLt
  rw [inputTable, countBytes_at, FreqTable.at_empty, show (0 : Word).toNat = 0 from rfl, Nat.zero_add, BitVec.toNat_ofNat,
    Nat.mod_eq_of_lt (by omega)]

theorem total_inputTable (s : State) : total (inputTable s) = s.inLen.toNat :=
  (total_eq_length_of_counts (toNat_inputTable_at s)).trans (length_inputBytes s)

/-- Only the empty input has an empty table (rule R81). -/
theorem nsym_inputTable_eq_zero_iff (s : State) : nsym (inputTable s) = 0 ↔ s.inLen = 0 := by
  constructor
  · intro h
    exact BitVec.eq_of_toNat_eq ((total_inputTable s).symm.trans (total_eq_zero_of_nsym_eq_zero h))
  · intro h
    have hempty : inputTable s = FreqTable.empty := by
      rw [inputTable, State.inputBytes, h]
      rfl
    rw [hempty, nsym_empty]

/-! ### FREQ and the check of IN_LEN (rules R80, R113, R127, R137) -/

/-- FREQ with an input that fits IBUF (rule R80). -/
theorem exec_freq {s : State} (h : s.inLen.toNat ≤ s.cfg.ibufSize) :
    exec .freq s =
      .next (completeNormally { s.writeFt (inputTable s) with res0 := BitVec.ofNat 32 (nsym (inputTable s)) }) := by
  rw [exec_eq_finish]
  exact congrArg (finish .freq) (if_neg (not_not.2 h))

/-- The four commands that read the input check IN_LEN before anything else (rules R80, R113, R127, R137). -/
theorem body_of_longInput {i : Instr} {s : State} (hi : i = .freq ∨ i = .brInit ∨ i = .encode ∨ i = .decode)
    (h : s.cfg.ibufSize < s.inLen.toNat) : body i s = .raise .badArgument s.inLen s := by
  obtain rfl | rfl | rfl | rfl := hi
  all_goals exact if_pos (Nat.not_le.2 h)

theorem isWholeOperation_iff {i : Instr} : isWholeOperation i = true ↔ i = .encode ∨ i = .decode := by
  cases i <;> decide

end Sys2Proof.Machine
end

section
open Sys2Proof Sys2Proof.Machine

/-- Settles O32: FREQ writes the table of the input, whose entries are the numbers of occurrences. -/
theorem freqCountsTheInput : Obligations.FreqCountsTheInput := by
  unfold Obligations.FreqCountsTheInput
  intro s _ hlen
  refine ⟨_, exec_freq hlen, fun sym => ?_, total_inputTable s, nsym_inputTable_eq_zero_iff s, ?_, rfl⟩
  · exact (toNat_inputTable_at s sym).trans (count_inputBytes s sym)
  · have hnsym := nsym_le (inputTable s)
    exact Nat.mod_eq_of_lt (by omega)

/-- Settles O33: each of the four commands raises BadArgument first, and taking it clears `out_len` in the whole operations. -/
theorem tooLongInputIsBadArgument : Obligations.TooLongInputIsBadArgument := by
  unfold Obligations.TooLongInputIsBadArgument
  intro i s hi h
  rw [exec_eq_finish, body_of_longInput hi h]
  simp only [finish, takeError, isWholeOperation_iff, Err.code]
end

section
/-! BUILD completes with the tree of its table (rules R85, R91), and the codes CODEGEN derives after it are those of the table
(rules R93, R97). -/

namespace Sys2Proof.Machine

theorem length_treeRecords (ft : FreqTable) : (treeRecords ft).length = 2 * nsym ft - 1 := by
  obtain ⟨hf, hone⟩ := forest_treeRecords ft
  exact hf.length_eq hone

theorem treeInv_of_build {s t : State} (h : exec .build s = .next t) : t.TreeInv := by
  obtain rfl : completeNormally (buildTree s) = t := Host.Outcome.next.inj (exec_build s ▸ h)
  exact (treeInv_buildTree s).congr rfl rfl rfl rfl rfl

/-- The record window shows the records of the table's tree after BUILD (rules R22, R85). -/
theorem recAt_of_build {s t : State} (h : exec .build s = .next t) : t.recAt = recIn (treeRecords s.ft) := by
  obtain rfl : completeNormally (buildTree s) = t := Host.Outcome.next.inj (exec_build s ▸ h)
  exact funext (State.recAt_ofList rfl (length_treeRecords_le s.ft))

/-- CODEGEN's table is a function of the tree (rule R97 (c)). -/
theorem codegenBody_ct_congr {s s' t t' : State} (h : codegenBody s = .val () t) (h' : codegenBody s' = .val () t')
    (hv : s.treeValid = true) (hv' : s'.treeValid = true) (hnode : s'.node = s.node) (hroot : s'.root = s.root)
    (hkind : s'.treeKind = s.treeKind) : t'.ct = t.ct := by
  unfold codegenBody at h h'
  rw [if_neg (by rw [hv]; decide)] at h
  rw [if_neg (by rw [hv']; decide), hnode, hroot, hkind] at h'
  cases hk : s.treeKind with
  | none =>
    simp only [hk] at h h'
    cases h
    cases h'
    rfl
  | single =>
    cases hr : s.node.at? s.root with
    | none => simp only [hk, hr, reduceCtorEq] at h
    | some r =>
      simp only [hk, hr] at h h'
      cases h
      cases h'
      rfl
  | multi =>
    cases htr : traverse s.node traverseBound [(s.root, [])] CodeTable.empty with
    | finished ct =>
      simp only [hk, htr] at h h'
      cases h
      cases h'
      rfl
    | oneChild n ct => simp only [hk, htr, reduceCtorEq] at h
    | stopped f => simp only [hk, htr, reduceCtorEq] at h

/-- After BUILD, CODEGEN ends normally with the codes of the table (rules R93, R97). -/
theorem codegen_after_build {s t u : State} (ht : exec .build s = .next t) (hu : exec .codegen t = .next u) :
    u.CodeInv ∧ u.ct = codesOf s.ft := by
  obtain rfl : completeNormally (buildTree s) = t := Host.Outcome.next.inj (exec_build s ▸ ht)
  obtain ⟨v, hv, hC, -, -⟩ := codegenBody_of_treeInv (s := completeNormally (buildTree s)) rfl (treeInv_of_build ht)
  obtain ⟨v', hv', -, -, -⟩ := codegenBody_of_treeInv (s := buildTree (State.reset.writeFt s.ft)) rfl (treeInv_buildTree _)
  rw [exec_eq_finish, body, hv] at hu
  obtain rfl : completeNormally v = u := Host.Outcome.next.inj hu
  refine ⟨hC.congr rfl rfl rfl rfl rfl, ?_⟩
  rw [codesOf, hv']
  exact codegenBody_ct_congr (t' := v) hv' hv rfl rfl rfl rfl rfl

end Sys2Proof.Machine
end

section
open Sys2Proof Sys2Proof.Machine

/-- Settles O34: the merge loop keeps the forest of rule R30, so the finished records are its tree; BUILD writes nothing else. -/
theorem buildMakesTheTreeOfTheTable : Obligations.BuildMakesTheTreeOfTheTable := by
  unfold Obligations.BuildMakesTheTreeOfTheTable
  intro s
  have hbuild := exec_build s
  have hlen := length_treeRecords s.ft
  have hk := nsym_le s.ft
  have hn : (completeNormally (buildTree s)).nnodes.toNat = (treeRecords s.ft).length := Nat.mod_eq_of_lt (by omega)
  refine ⟨_, hbuild, treeInv_of_build hbuild, rfl, rfl, rfl, ?_, ?_, fun i hi => ?_, rfl⟩
  · show (leaves s.ft).length % 2 ^ 32 = nsym s.ft
    rw [length_leaves, Nat.mod_eq_of_lt (by omega)]
  · show (treeRecords s.ft).length % 2 ^ 32 = 2 * nsym s.ft - 1
    rw [hlen, Nat.mod_eq_of_lt (by omega)]
  · rw [recAt_of_build hbuild]
    exact List.getD_eq_default _ _ (hn ▸ hi)

/-- Settles O38: BUILD's tree is the one of the table, and so are the codes of CODEGEN. -/
theorem treeAndCodesDependOnTheTableOnly : Obligations.TreeAndCodesDependOnTheTableOnly := by
  unfold Obligations.TreeAndCodesDependOnTheTableOnly
  intro s s' t t' u u' hft ht ht' hu hu'
  have hct : u.ct = u'.ct := by
    rw [(codegen_after_build ht hu).2, (codegen_after_build ht' hu').2, hft]
  rw [exec_build] at ht ht'
  cases ht
  cases ht'
  simp [hft, hct]
end

section
/-! The order of the priority structure (rule R88): `popmin` takes the first node in it, and a pass of the loop joins the first
two (rule R89). -/

namespace Sys2Proof.Machine

/-- Node `i` is popped before node `j`: the pair (weight, index) is smaller (rule R88). -/
def before (ns : List NodeRec) (i j : Nat) : Prop :=
  (recIn ns i).weight.toNat < (recIn ns j).weight.toNat ∨ ((recIn ns i).weight.toNat = (recIn ns j).weight.toNat ∧ i < j)

theorem before.weight_le {ns : List NodeRec} {i j : Nat} (h : before ns i j) :
    (recIn ns i).weight.toNat ≤ (recIn ns j).weight.toNat := by
  obtain hlt | ⟨heq, -⟩ := h
  · exact hlt.le
  · exact heq.le

theorem before_cons_succ (r : NodeRec) (ns : List NodeRec) (i j : Nat) :
    before (r :: ns) (i + 1) (j + 1) ↔ before ns i j := by
  simp only [before, recIn, List.getD_cons_succ, Nat.add_lt_add_iff_right]

theorem before_clearInq (a : Nat) (ns : List NodeRec) (i j : Nat) : before (clearInq a ns) i j ↔ before ns i j := by
  simp only [before, recIn_clearInq]

/-- Node `a` is in the priority structure and every other node in it comes later (rule R88). -/
structure First (ns : List NodeRec) (a : Nat) : Prop where
  inq : (recIn ns a).inq = true
  least : ∀ j, (recIn ns j).inq = true → j ≠ a → before ns a j

theorem lt_length_of_inq {ns : List NodeRec} {a : Nat} (h : (recIn ns a).inq = true) : a < ns.length := by
  by_contra hge
  rw [recIn, List.getD_eq_default _ _ (Nat.le_of_not_lt hge)] at h
  cases h

/-- The head comes first where nothing behind it comes before it. -/
theorem First.head {r : NodeRec} {ns : List NodeRec} (hr : r.inq = true)
    (h : ∀ j, (recIn ns j).inq = true → r.weight.toNat ≤ (recIn ns j).weight.toNat) : First (r :: ns) 0 where
  inq := hr
  least := fun j hj hne => by
    obtain ⟨j, rfl⟩ := Nat.exists_eq_succ_of_ne_zero hne
    exact (Nat.lt_or_eq_of_le (h j hj)).imp id fun heq => ⟨heq, Nat.succ_pos j⟩

/-- The first node behind the head comes first where it is lighter than the head. -/
theorem First.tail {r : NodeRec} {ns : List NodeRec} {a : Nat} (h : First ns a)
    (hr : r.inq = true → (recIn ns a).weight.toNat < r.weight.toNat) : First (r :: ns) (a + 1) where
  inq := h.inq
  least := fun j hj hne => by
    cases j with
    | zero => exact .inl (hr hj)
    | succ j => exact (before_cons_succ r ns a j).2 (h.least j hj fun e => hne (congrArg _ e))

/-- Where the priority structure is not empty, `minInq` finds the first node. -/
theorem minInq_first {ns : List NodeRec} (h : 0 < inqCount ns) (i : Nat) :
    ∃ a, minInq ns i = some (i + a, (recIn ns a).weight) ∧ First ns a := by
  induction ns generalizing i with
  | nil => exact absurd h (Nat.lt_irrefl 0)
  | cons r ns ih =>
    rcases Nat.eq_zero_or_pos (inqCount ns) with hzero | hpos
    · have hr : r.inq = true := by
        by_contra hr
        rw [inqCount_cons, hzero, if_neg hr] at h
        exact Nat.lt_irrefl 0 h
      refine ⟨0, ?_, .head hr fun j hj => absurd (inqCount_pos hj) (by omega)⟩
      rw [minInq, minInq_none hzero, hr]
      rfl
    · obtain ⟨a, hmin, hfirst⟩ := ih hpos (i + 1)
      rw [minInq, hmin]
      by_cases hhead : (r.inq && decide (r.weight.toNat ≤ (recIn ns a).weight.toNat)) = true
      · obtain ⟨hr, hle⟩ := Bool.and_eq_true_iff.1 hhead
        refine ⟨0, if_pos hhead, .head hr fun j hj => (of_decide_eq_true hle).trans ?_⟩
        by_cases hja : j = a
        · rw [hja]
        · exact (hfirst.least j hj hja).weight_le
      · refine ⟨a + 1, ?_, hfirst.tail fun hr => ?_⟩
        · simp only [if_neg hhead]
          rw [Nat.add_assoc, Nat.add_comm 1 a]
          rfl
        · simpa [hr] using hhead

theorem popmin_first {ns : List NodeRec} (h : 0 < inqCount ns) :
    ∃ a, popmin ns = some (a, (recIn ns a).weight, clearInq a ns) ∧ First ns a := by
  obtain ⟨a, hmin, hfirst⟩ := minInq_first h 0
  refine ⟨a, ?_, hfirst⟩
  rw [popmin, hmin, Nat.zero_add]
  rfl

theorem popmin_none {ns : List NodeRec} (h : inqCount ns = 0) : popmin ns = none := by
  rw [popmin, minInq_none h]

/-- Nodes `a` and `b` are the first two in the priority structure. -/
structure FirstTwo (ns : List NodeRec) (a b : Nat) : Prop where
  first : First ns a
  inq : (recIn ns b).inq = true
  ne : b ≠ a
  least : ∀ j, (recIn ns j).inq = true → j ≠ a → j ≠ b → before ns b j

/-- The node popped after the first one is the second one. -/
theorem First.firstTwo {ns : List NodeRec} {a b : Nat} (ha : First ns a) (hb : First (clearInq a ns) b) : FirstTwo ns a b := by
  have hin {j : Nat} : (recIn (clearInq a ns) j).inq = true ↔ (recIn ns j).inq = true ∧ j ≠ a := by
    rw [recIn_clearInq, Bool.and_eq_true, decide_eq_true_eq]
  obtain ⟨hinq, hne⟩ := hin.1 hb.inq
  exact ⟨ha, hinq, hne, fun j hj hja hjb => (before_clearInq a ns b j).1 (hb.least j (hin.2 ⟨hj, hja⟩) hjb)⟩

/-- Where two nodes are in the structure, a pass of the loop pops the first two and joins them (rule R89). -/
theorem mergeOnce_firstTwo {ns : List NodeRec} (h : 1 < inqCount ns) :
    ∃ a b, FirstTwo ns a b ∧ mergeOnce ns = merged ns a b ∧ popmin ns = some (a, (recIn ns a).weight, clearInq a ns) ∧
      popmin (clearInq a ns) = some (b, (recIn ns b).weight, clearInq b (clearInq a ns)) := by
  obtain ⟨a, hpop, ha⟩ := popmin_first (Nat.lt_of_succ_lt h)
  obtain ⟨b, hpop', hb⟩ := popmin_first (ns := clearInq a ns) (by have := inqCount_clearInq ha.inq; omega)
  rw [recIn_clearInq] at hpop'
  refine ⟨a, b, ha.firstTwo hb, ?_, hpop, hpop'⟩
  rw [mergeOnce, hpop]
  simp only [hpop', merged]

/-- A pass leaves one node less in the structure (rule R87). -/
theorem inqCount_merged {ns : List NodeRec} {a b : Nat} (h : FirstTwo ns a b) : inqCount (merged ns a b) + 1 = inqCount ns := by
  have hsum := inqSum_merged h.ne h.first.inq h.inq (fun _ => 1) fun _ _ => rfl
  rw [← inqCount_eq_inqSum, ← inqCount_eq_inqSum] at hsum
  omega

end Sys2Proof.Machine
end

section
open Sys2Proof Sys2Proof.Machine

/-- Settles O35: a `popmin` that answers finds the structure not empty, and then takes its first node. -/
theorem popminTakesTheSmallestEarliestNode : Obligations.PopminTakesTheSmallestEarliestNode := by
  unfold Obligations.PopminTakesTheSmallestEarliestNode
  intro ns ns' a w h
  rcases Nat.eq_zero_or_pos (inqCount ns) with hzero | hpos
  · rw [popmin_none hzero] at h
    cases h
  · obtain ⟨b, hpop, hfirst⟩ := popmin_first hpos
    rw [hpop] at h
    cases h
    have hget {j : Nat} {q : NodeRec} (hq : ns[j]? = some q) : recIn ns j = q := by
      rw [recIn, List.getD_eq_getElem?_getD, hq, Option.getD_some]
    refine ⟨?_, fun j q hq hinq hne => ?_, fun j => ?_⟩
    · have hlt := lt_length_of_inq hfirst.inq
      exact ⟨recIn ns a, by rw [recIn_eq hlt, List.getElem?_eq_getElem hlt], hfirst.inq, rfl⟩
    · obtain rfl := hget hq
      exact hfirst.least j hinq hne
    · rw [clearInq, List.getElem?_modify]
      by_cases hj : j = a
      · simp [hj]
      · simp [hj, Ne.symm hj]

/-- Settles O36: two calls of `popmin` take the first two nodes, and the pass takes them out and puts their sum in. -/
theorem mergeJoinsTheTwoSmallestNodes : Obligations.MergeJoinsTheTwoSmallestNodes := by
  unfold Obligations.MergeJoinsTheTwoSmallestNodes
  intro ns h
  obtain ⟨a, b, htwo, hmerge, hpop, hpop'⟩ := mergeOnce_firstTwo h
  rw [hmerge]
  exact ⟨a, _, _, b, _, _, hpop, hpop', htwo.ne.symm, htwo.first.least b htwo.inq htwo.ne, inqCount_merged htwo, rfl⟩
end

section
/-! The loop from one pass to the next (rules R87, R90): what every joining of the first two nodes keeps holds of the finished
tree. The weights of the Internal nodes never decrease, because no one of them weighs more than two nodes
in the structure together. -/

namespace Sys2Proof.Machine

/-- What the joining of the first two nodes of a forest keeps, the loop keeps. -/
theorem mergeLoop_keeps {ft : FreqTable} {P : List NodeRec → Prop}
    (hstep : ∀ ns a b, Forest ft ns → FirstTwo ns a b → P ns → P (merged ns a b))
    (n : Nat) {ns : List NodeRec} (hf : Forest ft ns) (hP : P ns) : P (mergeLoop n ns) := by
  induction n generalizing ns with
  | zero => exact hP
  | succ n ih =>
    rw [mergeLoop]
    split
    · rename_i hcount
      obtain ⟨a, b, htwo, heq, -, -⟩ := mergeOnce_firstTwo hcount
      have ha := lt_length_of_inq htwo.first.inq
      have hb := lt_length_of_inq htwo.inq
      rw [heq]
      exact ih (hf.merged hcount ha hb htwo.ne htwo.first.inq htwo.inq) (hstep ns a b hf htwo hP)
    · exact hP

/-- The weight of node `i`, as a number (rule R22). -/
def weightAt (ns : List NodeRec) (i : Nat) : Nat := (recIn ns i).weight.toNat

section Merge

variable {ft : FreqTable} {ns : List NodeRec} {a b : Nat}

theorem weightAt_merged_old {i : Nat} (hi : i < ns.length) : weightAt (merged ns a b) i = weightAt ns i := by
  rw [weightAt, recIn_merged_old hi]
  rfl

/-- The new node weighs as much as the two it joins, without overflow (rule R89). -/
theorem Forest.weightAt_merged_new (hf : Forest ft ns) (h : FirstTwo ns a b) :
    weightAt (Machine.merged ns a b) ns.length = weightAt ns a + weightAt ns b := by
  have hle := hf.weights_le h.ne h.first.inq h.inq
  have htotal := total_lt ft
  rw [weightAt, recIn_merged_new]
  exact Nat.mod_eq_of_lt (by omega)

theorem inq_recIn_merged_old {i : Nat} (hi : i < ns.length) :
    (recIn (merged ns a b) i).inq = true ↔ (recIn ns i).inq = true ∧ i ≠ a ∧ i ≠ b := by
  rw [recIn_merged_old hi]
  simp only [Bool.and_eq_true, decide_eq_true_eq, and_assoc]

theorem FirstTwo.weight_first_le (h : FirstTwo ns a b) {i : Nat} (hi : (recIn ns i).inq = true) :
    weightAt ns a ≤ weightAt ns i := by
  by_cases hia : i = a
  · rw [hia]
  · exact (h.first.least i hi hia).weight_le

theorem FirstTwo.weight_second_le (h : FirstTwo ns a b) {i : Nat} (hi : (recIn ns i).inq = true) (hia : i ≠ a) :
    weightAt ns b ≤ weightAt ns i := by
  by_cases hib : i = b
  · rw [hib]
  · exact (h.least i hi hia hib).weight_le

end Merge

/-- The Internal nodes made so far ascend by weight, and none weighs more than two nodes in the structure together. -/
structure Ascending (k : Nat) (ns : List NodeRec) : Prop where
  ordered : ∀ i j, k ≤ i → i < j → j < ns.length → weightAt ns i ≤ weightAt ns j
  bounded : ∀ i x y, k ≤ i → i < ns.length → (recIn ns x).inq = true → (recIn ns y).inq = true → x ≠ y →
    weightAt ns i ≤ weightAt ns x + weightAt ns y

theorem ascending_leaves (ft : FreqTable) : Ascending (nsym ft) (leaves ft) where
  ordered := fun _ _ hi hij hj => absurd (length_leaves ft ▸ hj) (Nat.not_lt.2 (hi.trans hij.le))
  bounded := fun _ _ _ hi hlt => absurd (length_leaves ft ▸ hlt) (Nat.not_lt.2 hi)

/-- The new node is the heaviest Internal one, and two other nodes of the structure weigh at least as much (rule R90). -/
theorem Ascending.pass {ft : FreqTable} {ns : List NodeRec} {a b : Nat} (h : Ascending (nsym ft) ns) (hf : Forest ft ns)
    (htwo : FirstTwo ns a b) : Ascending (nsym ft) (merged ns a b) := by
  have hnew := hf.weightAt_merged_new htwo
  have hheaviest {i : Nat} (hi : nsym ft ≤ i) (hlt : i < ns.length + 1) :
      weightAt (merged ns a b) i ≤ weightAt (merged ns a b) ns.length := by
    rcases Nat.lt_succ_iff_lt_or_eq.1 hlt with hlt | rfl
    · rw [weightAt_merged_old hlt, hnew]
      exact h.bounded i a b hi hlt htwo.first.inq htwo.inq htwo.ne.symm
    · exact le_rfl
  have hpair {x y : Nat} (hx : (recIn (merged ns a b) x).inq = true)
      (hy : (recIn (merged ns a b) y).inq = true) (hne : x ≠ y) :
      weightAt (merged ns a b) ns.length ≤ weightAt (merged ns a b) x + weightAt (merged ns a b) y := by
    have hxlt := lt_length_of_inq hx
    have hylt := lt_length_of_inq hy
    rw [length_merged] at hxlt hylt
    rcases Nat.lt_succ_iff_lt_or_eq.1 hxlt with hxlt | rfl
    · rcases Nat.lt_succ_iff_lt_or_eq.1 hylt with hylt | rfl
      · obtain ⟨hx, hxa, -⟩ := (inq_recIn_merged_old hxlt).1 hx
        obtain ⟨hy, hya, -⟩ := (inq_recIn_merged_old hylt).1 hy
        rw [hnew, weightAt_merged_old hxlt, weightAt_merged_old hylt]
        exact Nat.add_le_add (htwo.weight_first_le hx) (htwo.weight_second_le hy hya)
      · exact Nat.le_add_left _ _
    · exact Nat.le_add_right _ _
  refine ⟨fun i j hi hij hj => ?_, fun i x y hi hlt hx hy hne => ?_⟩
  · rw [length_merged] at hj
    rcases Nat.lt_succ_iff_lt_or_eq.1 hj with hj | rfl
    · rw [weightAt_merged_old (hij.trans hj), weightAt_merged_old hj]
      exact h.ordered i j hi hij hj
    · exact hheaviest hi (hij.trans (Nat.lt_succ_self _))
  · rw [length_merged] at hlt
    exact (hheaviest hi hlt).trans (hpair hx hy hne)

theorem ascending_treeRecords (ft : FreqTable) : Ascending (nsym ft) (treeRecords ft) :=
  mergeLoop_keeps (fun _ _ _ hf htwo h => h.pass hf htwo) _ (forest_leaves ft) (ascending_leaves ft)

end Sys2Proof.Machine
end

section
open Sys2Proof Sys2Proof.Machine

/-- Settles O37: every pass keeps the Internal nodes ascending by weight. -/
theorem internalWeightsNeverDecrease : Obligations.InternalWeightsNeverDecrease := by
  unfold Obligations.InternalWeightsNeverDecrease
  intro s t h i j hi hij hj
  rw [recAt_of_build h]
  have hcount := (treeInv_of_build h).count
  obtain rfl : completeNormally (buildTree s) = t := Host.Outcome.next.inj (exec_build s ▸ h)
  rw [hcount] at hj
  exact (ascending_treeRecords s.ft).ordered i j hi hij (length_treeRecords s.ft ▸ hj)
end

section
/-! Lengths under Kraft's inequality, and the exchange argument of the optimality law (rule R93 (b)): without a greater sum of
weight × length the two lightest elements can be given one common length, and then they can be joined into one
element of a length less. -/

namespace Sys2Proof.Machine

/-- Kraft's inequality for the lengths `ℓ` of the elements of `S`. -/
def Kraft (S : Finset Nat) (ℓ : Nat → Nat) : Prop := ∑ i ∈ S, (1 / 2 : ℝ) ^ ℓ i ≤ 1

/-- The sum of weight × length over `S`. -/
def cost (S : Finset Nat) (w ℓ : Nat → Nat) : Nat := ∑ i ∈ S, w i * ℓ i

/-- The lengths `ℓ'` may stand for the lengths `ℓ`: they cost no more. -/
structure NoWorse (S : Finset Nat) (w ℓ ℓ' : Nat → Nat) : Prop where
  kraft : Kraft S ℓ → Kraft S ℓ'
  cost : cost S w ℓ' ≤ cost S w ℓ

section Exchange

variable {S : Finset Nat} {w ℓ : Nat → Nat} {a b : Nat}

theorem NoWorse.trans {ℓ' ℓ'' : Nat → Nat} (h : NoWorse S w ℓ ℓ') (h' : NoWorse S w ℓ' ℓ'') : NoWorse S w ℓ ℓ'' :=
  ⟨fun hk => h'.kraft (h.kraft hk), h'.cost.trans h.cost⟩

/-- A sum over `S` with two of its elements apart. -/
theorem sum_eq_two_add {M : Type} [AddCommMonoid M] (ha : a ∈ S) (hb : b ∈ S) (hne : b ≠ a) (f : Nat → M) :
    ∑ i ∈ S, f i = f a + (f b + ∑ i ∈ (S.erase a).erase b, f i) := by
  rw [Finset.add_sum_erase _ f (Finset.mem_erase.2 ⟨hne, hb⟩), Finset.add_sum_erase _ f ha]

/-- The longer of two lengths is better given to the lighter element. -/
theorem noWorse_swap (ha : a ∈ S) (hb : b ∈ S) (hw : w a ≤ w b) (hl : ℓ a ≤ ℓ b) :
    NoWorse S w ℓ (ℓ ∘ Equiv.swap a b) := by
  by_cases hne : b = a
  · rw [hne, Equiv.swap_self]
    exact ⟨id, le_rfl⟩
  · have hrest {M : Type} [AddCommMonoid M] (f : Nat → Nat → M) :
        ∑ i ∈ (S.erase a).erase b, f i ((ℓ ∘ Equiv.swap a b) i) = ∑ i ∈ (S.erase a).erase b, f i (ℓ i) := by
      refine Finset.sum_congr rfl fun i hi => ?_
      obtain ⟨hib, hi⟩ := Finset.mem_erase.1 hi
      rw [Function.comp_apply, Equiv.swap_apply_of_ne_of_ne (Finset.ne_of_mem_erase hi) hib]
    have hswap : (ℓ ∘ Equiv.swap a b) a = ℓ b ∧ (ℓ ∘ Equiv.swap a b) b = ℓ a := by simp
    refine ⟨fun hk => ?_, ?_⟩
    · unfold Kraft at hk ⊢
      rw [sum_eq_two_add ha hb hne] at hk ⊢
      rw [hrest fun _ n => (1 / 2 : ℝ) ^ n, hswap.1, hswap.2]
      linarith
    · unfold cost
      rw [sum_eq_two_add ha hb hne, sum_eq_two_add ha hb hne, hrest fun i n => w i * n, hswap.1, hswap.2,
        ← Nat.add_assoc, ← Nat.add_assoc]
      exact Nat.add_le_add_right (mul_add_mul_le_mul_add_mul hw hl) _

/-- Kraft sums of lengths up to `m` are multiples of `2 ^ (−m)`, so below 1 there is room for one more length `m`. -/
theorem sum_add_le_one {m : Nat} (hm : ∀ i ∈ S, ℓ i ≤ m) (hlt : ∑ i ∈ S, (1 / 2 : ℝ) ^ ℓ i < 1) :
    ∑ i ∈ S, (1 / 2 : ℝ) ^ ℓ i + (1 / 2) ^ m ≤ 1 := by
  have hpos : (0 : ℝ) < (1 / 2) ^ m := by positivity
  have hone : (2 : ℝ) ^ m * (1 / 2) ^ m = 1 := by rw [← mul_pow]; norm_num
  have hmul : ∑ i ∈ S, (1 / 2 : ℝ) ^ ℓ i = ((∑ i ∈ S, 2 ^ (m - ℓ i) : Nat) : ℝ) * (1 / 2) ^ m := by
    push_cast
    rw [Finset.sum_mul]
    refine Finset.sum_congr rfl fun i hi => ?_
    obtain ⟨d, rfl⟩ := Nat.exists_eq_add_of_le (hm i hi)
    rw [Nat.add_sub_cancel_left, pow_add, mul_left_comm, ← mul_pow]
    norm_num
  rw [hmul] at hlt ⊢
  have hnat : ∑ i ∈ S, 2 ^ (m - ℓ i) < 2 ^ m := by
    exact_mod_cast lt_of_mul_lt_mul_right (hlt.trans_eq hone.symm) hpos.le
  have hle : ((∑ i ∈ S, 2 ^ (m - ℓ i) : Nat) : ℝ) + 1 ≤ 2 ^ m := by exact_mod_cast hnat
  rw [← add_one_mul]
  exact (mul_le_mul_of_nonneg_right hle hpos.le).trans_eq hone

/-- A length above all others can be cut down to the next one. -/
theorem noWorse_shorten {m : Nat} (ha : a ∈ S) (hm : ∀ i ∈ S.erase a, ℓ i ≤ m) (hle : m ≤ ℓ a) :
    NoWorse S w ℓ (Function.update ℓ a m) := by
  have hrest {M : Type} [AddCommMonoid M] (f : Nat → Nat → M) :
      ∑ i ∈ S.erase a, f i (Function.update ℓ a m i) = ∑ i ∈ S.erase a, f i (ℓ i) :=
    Finset.sum_congr rfl fun i hi => by rw [Function.update_of_ne (Finset.ne_of_mem_erase hi)]
  refine ⟨fun hk => ?_, ?_⟩
  · unfold Kraft at hk ⊢
    rw [← Finset.sum_erase_add _ _ ha] at hk ⊢
    rw [hrest fun _ n => (1 / 2 : ℝ) ^ n, Function.update_self]
    have hpos : (0 : ℝ) < (1 / 2) ^ ℓ a := by positivity
    exact sum_add_le_one hm (by linarith)
  · unfold cost
    rw [← Finset.sum_erase_add _ _ ha, ← Finset.sum_erase_add _ _ ha, hrest fun i n => w i * n, Function.update_self]
    exact Nat.add_le_add_left (Nat.mul_le_mul_left _ hle) _

/-- A swap within `S` gives the greatest length in `S` to `a`. -/
theorem exists_swap_longest (ha : a ∈ S) (ℓ : Nat → Nat) :
    ∃ p ∈ S, ℓ a ≤ ℓ p ∧ ∀ i ∈ S, (ℓ ∘ Equiv.swap a p) i ≤ (ℓ ∘ Equiv.swap a p) a := by
  obtain ⟨p, hp, hmax⟩ := S.exists_max_image ℓ ⟨a, ha⟩
  refine ⟨p, hp, hmax a ha, fun i hi => ?_⟩
  rw [Function.comp_apply, Function.comp_apply, Equiv.swap_apply_left]
  refine hmax _ ?_
  rw [Equiv.swap_apply_def]
  split_ifs
  · exact hp
  · exact ha
  · exact hi

/-- The two lightest elements can have the same length. -/
theorem exists_siblings (ha : a ∈ S) (hb : b ∈ S) (hne : b ≠ a) (hwa : ∀ i ∈ S, w a ≤ w i)
    (hwb : ∀ i ∈ S.erase a, w b ≤ w i) (ℓ : Nat → Nat) : ∃ ℓ', NoWorse S w ℓ ℓ' ∧ ℓ' a = ℓ' b := by
  have hb' : b ∈ S.erase a := Finset.mem_erase.2 ⟨hne, hb⟩
  obtain ⟨p, hp, hap, hmax⟩ := exists_swap_longest ha ℓ
  have h1 := noWorse_swap ha hp (hwa p hp) hap
  generalize ℓ ∘ Equiv.swap a p = ℓ₁ at hmax h1
  obtain ⟨q, hq, hbq, hmax'⟩ := exists_swap_longest hb' ℓ₁
  obtain ⟨hqa, hqS⟩ := Finset.mem_erase.1 hq
  have h2 := noWorse_swap hb hqS (hwb q hq) hbq
  have hle : (ℓ₁ ∘ Equiv.swap b q) b ≤ (ℓ₁ ∘ Equiv.swap b q) a := by
    rw [Function.comp_apply, Function.comp_apply, Equiv.swap_apply_left, Equiv.swap_apply_of_ne_of_ne hne.symm hqa.symm]
    exact hmax q hqS
  refine ⟨_, (h1.trans h2).trans (noWorse_shorten ha hmax' hle), ?_⟩
  rw [Function.update_self, Function.update_of_ne hne]

/-- Under Kraft's inequality the length that two elements share is not 0. -/
theorem Kraft.sibling_pos (h : Kraft S ℓ) (ha : a ∈ S) (hb : b ∈ S) (hne : b ≠ a) (heq : ℓ a = ℓ b) : 0 < ℓ a := by
  have hrest : (0 : ℝ) ≤ ∑ i ∈ (S.erase a).erase b, (1 / 2 : ℝ) ^ ℓ i := by positivity
  unfold Kraft at h
  rw [sum_eq_two_add ha hb hne, ← heq] at h
  by_contra h0
  rw [Nat.eq_zero_of_not_pos h0, pow_zero] at h
  linarith

/-- The two lightest elements can be joined: what the joined element weighs is saved. -/
theorem exists_joined {w' : Nat → Nat} {n : Nat} (ha : a ∈ S) (hb : b ∈ S) (hne : b ≠ a) (hwa : ∀ i ∈ S, w a ≤ w i)
    (hwb : ∀ i ∈ S.erase a, w b ≤ w i) (hn : n ∉ S) (hold : ∀ i ∈ S, w' i = w i) (hnew : w' n = w a + w b)
    (hk : Kraft S ℓ) :
    ∃ ℓ', Kraft (insert n ((S.erase a).erase b)) ℓ' ∧
      w' n + cost (insert n ((S.erase a).erase b)) w' ℓ' ≤ cost S w ℓ := by
  obtain ⟨ℓ₁, hnw, heq⟩ := exists_siblings ha hb hne hwa hwb ℓ
  have hk₁ := hnw.kraft hk
  obtain ⟨d, hd⟩ := Nat.exists_eq_add_of_lt (hk₁.sibling_pos ha hb hne heq)
  rw [Nat.zero_add] at hd
  have hsub {i : Nat} (hi : i ∈ (S.erase a).erase b) : i ∈ S := Finset.mem_of_mem_erase (Finset.mem_of_mem_erase hi)
  have hn' : n ∉ (S.erase a).erase b := fun h => hn (hsub h)
  have hupd {i : Nat} (hi : i ∈ (S.erase a).erase b) : Function.update ℓ₁ n d i = ℓ₁ i :=
    Function.update_of_ne (ne_of_mem_of_not_mem hi hn') _ _
  refine ⟨Function.update ℓ₁ n d, ?_, ?_⟩
  · unfold Kraft at hk₁ ⊢
    rw [sum_eq_two_add ha hb hne, ← heq, hd, pow_succ] at hk₁
    rw [Finset.sum_insert hn', Function.update_self, Finset.sum_congr rfl fun i hi => by rw [hupd hi]]
    linarith
  · refine le_of_eq_of_le ?_ hnw.cost
    unfold cost
    rw [sum_eq_two_add ha hb hne, ← heq, hd, Finset.sum_insert hn', Function.update_self, hnew,
      Finset.sum_congr rfl fun i hi => by rw [hupd hi, hold i (hsub hi)]]
    ring

end Exchange

/-- Codes of which none begins with another one are uniquely decodable. -/
theorem uniquelyDecodable_of_prefixFree {C : Set Code} (hne : [] ∉ C) (h : ∀ c ∈ C, ∀ d ∈ C, c <+: d → c = d) :
    InformationTheory.UniquelyDecodable C := by
  intro L
  induction L with
  | nil =>
    intro M _ hM heq
    cases M with
    | nil => rfl
    | cons d M =>
      have hd : d = [] := (List.append_eq_nil_iff.1 heq.symm).1
      exact absurd (hd ▸ hM d List.mem_cons_self) hne
  | cons c L ih =>
    intro M hL hM heq
    cases M with
    | nil =>
      have hc : c = [] := (List.append_eq_nil_iff.1 heq).1
      exact absurd (hc ▸ hL c List.mem_cons_self) hne
    | cons d M =>
      have hc := hL c List.mem_cons_self
      have hd := hM d List.mem_cons_self
      rw [List.flatten_cons, List.flatten_cons] at heq
      have hcd : c = d := by
        rcases List.prefix_or_prefix_of_prefix ⟨_, heq⟩ ⟨_, rfl⟩ with hpre | hpre
        · exact h c hc d hd hpre
        · exact (h d hd c hc hpre).symm
      subst hcd
      rw [ih M (fun x hx => hL x (List.mem_cons_of_mem _ hx)) (fun x hx => hM x (List.mem_cons_of_mem _ hx))
        (List.append_cancel_left heq)]

/-- Two or more codes of which none begins with another one meet Kraft's inequality. -/
theorem kraft_of_prefixFree {S : Finset Nat} {c : Nat → Code} (hS : S.Nontrivial)
    (h : ∀ i ∈ S, ∀ j ∈ S, i ≠ j → ¬ (c i <+: c j)) : Kraft S fun i => (c i).length := by
  have hinj {i j : Nat} (hi : i ∈ S) (hj : j ∈ S) (hpre : c i <+: c j) : i = j := by
    by_contra hij
    exact h i hi j hj hij hpre
  have hdec : InformationTheory.UniquelyDecodable ((S.image c : Finset Code) : Set Code) := by
    refine uniquelyDecodable_of_prefixFree (fun hnil => ?_) fun x hx y hy hpre => ?_
    · obtain ⟨i, hi, hci⟩ := Finset.mem_image.1 hnil
      obtain ⟨j, hj, hji⟩ := hS.exists_ne i
      exact hji (hinj hi hj (hci ▸ List.nil_prefix)).symm
    · obtain ⟨i, hi, rfl⟩ := Finset.mem_image.1 hx
      obtain ⟨j, hj, rfl⟩ := Finset.mem_image.1 hy
      rw [hinj hi hj hpre]
  have hsum := InformationTheory.kraft_mcmillan_inequality hdec
  have hinjOn : Set.InjOn c S := fun i hi j hj (heq : c i = c j) => hinj hi hj (heq ▸ List.prefix_rfl)
  rw [Finset.sum_image hinjOn] at hsum
  simpa [Kraft] using hsum

end Sys2Proof.Machine
end

section
/-! The optimality of the codes (rule R93 (b)): the code lengths of a tree cost the weights of its Internal nodes, and no lengths
under Kraft's inequality cost less than the Internal nodes that the merge loop makes. -/

namespace Sys2Proof.Machine

/-! ### The Leaves of a tree -/

section Tree

variable {s : State} (hT : s.TreeInv)
include hT

/-- The weight of a Leaf is its symbol's count (rule R85). -/
theorem State.TreeInv.leaf_weight {i : Nat} (hi : i < nsym s.ft) :
    (s.recAt i).weight.toNat = (s.ft.at (s.recAt i).sym).toNat := by
  have hlt : i < (pairs s.ft).length := hi
  obtain ⟨hat, -⟩ := (mem_pairs s.ft (pairs s.ft)[i].1 _).1 (List.getElem_mem hlt)
  rw [hT.leafAt i _ (List.getElem?_eq_getElem hlt), hat]
  exact BitVec.toNat_setWidth_of_le (by decide)

/-- The weighted length of an assignment, taken over the Leaves. -/
theorem State.TreeInv.weightedLength_eq (c : Byte → Code) :
    weightedLength s.ft c = ∑ i ∈ Finset.range (nsym s.ft), (s.recAt i).weight.toNat * (c (s.recAt i).sym).length := by
  rw [weightedLength, ← List.sum_toFinset _ allSyms_nodup]
  refine (Finset.sum_of_injOn (fun i => (s.recAt i).sym) ?_ ?_ ?_ ?_).symm
  · exact fun i hi j hj h => hT.leaf_unique (Finset.mem_range.1 hi) (Finset.mem_range.1 hj) h
  · exact fun i _ => List.mem_toFinset.2 (mem_allSyms _)
  · intro sym _ hsym
    by_contra hne
    have hat : s.ft.at sym ≠ 0 := fun h0 => hne (by rw [h0]; exact Nat.zero_mul _)
    obtain ⟨i, hi, rfl⟩ := hT.exists_leaf hat
    exact hsym ⟨i, Finset.mem_coe.2 (Finset.mem_range.2 hi), rfl⟩
  · intro i hi
    rw [hT.leaf_weight (Finset.mem_range.1 hi)]

/-- Codes of two or more symbols, none of which begins with another one, meet Kraft's inequality over the Leaves. -/
theorem State.TreeInv.kraft (hk : 2 ≤ nsym s.ft) {c : Byte → Code} (hc : prefixFreeOn s.ft c) :
    Kraft (Finset.range (nsym s.ft)) fun i => (c (s.recAt i).sym).length := by
  refine kraft_of_prefixFree (c := fun i => c (s.recAt i).sym) ?_ fun i hi j hj hij => ?_
  · exact Finset.one_lt_card_iff_nontrivial.1 (by rwa [Finset.card_range])
  · rw [Finset.mem_range] at hi hj
    exact hc _ _ (hT.sym_retained hi) (hT.sym_retained hj) fun h => hij (hT.leaf_unique hi hj h)

/-! ### What the codes of a tree cost -/

/-- The depth of each node is the length of its path. -/
theorem State.TreeInv.exists_depths (hpos : 0 < nsym s.ft) :
    ∃ D : Nat → Nat, ∀ n path, s.node.indexAt s.root path = some n → D n.toNat = path.length := by
  have hmax := nsym_le s.ft
  have htree := hT.root_inTree hpos
  obtain ⟨W, hW⟩ := hT.exists_weights hpos
  refine ⟨fun i => 255 - Nat.log 2 (W i), fun n path h => ?_⟩
  have hle : path.length ≤ 255 := by
    obtain ⟨-, -, hlen⟩ := hT.indexAt_some htree h
    unfold State.inTree at htree
    by_cases hne : path = []
    · rw [hne]
      exact Nat.zero_le _
    · have := hlen hne
      omega
  simp only
  rw [hW n path h, Nat.log_pow (by decide), Nat.sub_sub_self hle]

/-- A child stands one deeper than its parent. -/
theorem State.TreeInv.depth_child {D : Nat → Nat}
    (hD : ∀ n path, s.node.indexAt s.root path = some n → D n.toNat = path.length) {i : Nat} (hlo : nsym s.ft ≤ i)
    (hhi : i < 2 * nsym s.ft - 1) (b : Bool) : D (s.child i b).toNat = D i + 1 := by
  have hmax := nsym_le s.ft
  have hi : (BitVec.ofNat 9 i).toNat = i := Nat.mod_eq_of_lt (by omega)
  have hit : s.inTree (BitVec.ofNat 9 i) := by unfold State.inTree; omega
  obtain ⟨path, hpath⟩ := hT.exists_path hit
  have hchild : s.node.indexAt s.root (path ++ [b]) = some (s.child i b) := by
    rw [NodeMemory.indexAt_append, hpath, Option.bind_some, hT.indexAt_internal hit (by omega), hi]
    rfl
  have hdi := hD _ _ hpath
  rw [hi] at hdi
  rw [hD _ _ hchild, hdi, List.length_append, List.length_singleton]

/-- The Leaves' sum of weight × depth is the sum of the Internal weights. -/
theorem State.TreeInv.sum_weight_mul_depth (hpos : 0 < nsym s.ft) {D : Nat → Nat}
    (hD : ∀ n path, s.node.indexAt s.root path = some n → D n.toNat = path.length) :
    ∑ i ∈ Finset.range (nsym s.ft), (s.recAt i).weight.toNat * D i =
      ∑ i ∈ Finset.Ico (nsym s.ft) (2 * nsym s.ft - 1), (s.recAt i).weight.toNat := by
  have hroot : D (2 * nsym s.ft - 2) = 0 := by
    have hr := hT.root
    rw [if_neg (Nat.ne_of_gt hpos)] at hr
    rw [← hr]
    exact hD s.root [] rfl
  have hchildren := hT.sum_children fun i => (s.recAt i).weight.toNat * D i
  have hnode {i : Nat} (hi : i ∈ Finset.Ico (nsym s.ft) (2 * nsym s.ft - 1)) :
      (s.recAt (s.child i true).toNat).weight.toNat * D (s.child i true).toNat +
        (s.recAt (s.child i false).toNat).weight.toNat * D (s.child i false).toNat =
      (s.recAt i).weight.toNat * D i + (s.recAt i).weight.toNat := by
    obtain ⟨hlo, hhi⟩ := Finset.mem_Ico.1 hi
    obtain ⟨-, -, -, -, -, hw, -⟩ := hT.internalAt i hlo hhi
    rw [hT.depth_child hD hlo hhi, hT.depth_child hD hlo hhi, ← Nat.add_mul, hw, Nat.mul_succ,
      Nat.add_comm (s.recAt (s.child i true).toNat).weight.toNat]
    rfl
  rw [Finset.sum_congr rfl fun i hi => hnode hi, Finset.sum_add_distrib] at hchildren
  have hsplit := Finset.sum_range_add_sum_Ico (fun i => (s.recAt i).weight.toNat * D i)
    (show nsym s.ft ≤ 2 * nsym s.ft - 1 by omega)
  rw [show 2 * nsym s.ft - 1 = 2 * nsym s.ft - 2 + 1 by omega, Finset.sum_range_succ, hroot, Nat.mul_zero,
    ← show 2 * nsym s.ft - 1 = 2 * nsym s.ft - 2 + 1 by omega] at hsplit
  omega

/-- The codes of a tree cost the weights of its Internal nodes. -/
theorem State.CodeInv.weightedLength_eq (hC : s.CodeInv) (hkind : s.treeKind = .multi) :
    weightedLength s.ft s.ct.at = ∑ i ∈ Finset.Ico (nsym s.ft) (2 * nsym s.ft - 1), (s.recAt i).weight.toNat := by
  have hk := hT.nsym_of_multi hkind
  have hpos : 0 < nsym s.ft := by omega
  obtain ⟨D, hD⟩ := hT.exists_depths hpos
  rw [hT.weightedLength_eq, ← hT.sum_weight_mul_depth hpos hD]
  refine Finset.sum_congr rfl fun i hi => ?_
  have hi := Finset.mem_range.1 hi
  obtain ⟨-, hlead⟩ := hC.multi hkind _ (hT.sym_retained hi)
  obtain ⟨n, hn, hleaf, hsym⟩ := (hT.leadsTo_iff hpos).1 hlead
  rw [← hD n _ hn, hT.leaf_unique hleaf hi hsym]

end Tree

/-! ### What the merge loop costs -/

/-- The nodes in the priority structure. -/
def inqSet (ns : List NodeRec) : Finset Nat := (Finset.range ns.length).filter fun i => (recIn ns i).inq = true

theorem mem_inqSet {ns : List NodeRec} {i : Nat} : i ∈ inqSet ns ↔ (recIn ns i).inq = true := by
  rw [inqSet, Finset.mem_filter, Finset.mem_range]
  exact and_iff_right_of_imp lt_length_of_inq

theorem inqSet_leaves (ft : FreqTable) : inqSet (leaves ft) = Finset.range (nsym ft) := by
  rw [inqSet, length_leaves]
  exact Finset.filter_true_of_mem fun i hi => inq_recIn_leaves (length_leaves ft ▸ Finset.mem_range.1 hi)

theorem inqSet_merged (ns : List NodeRec) (a b : Nat) :
    inqSet (merged ns a b) = insert ns.length (((inqSet ns).erase a).erase b) := by
  ext i
  rw [Finset.mem_insert, Finset.mem_erase, Finset.mem_erase, mem_inqSet, mem_inqSet]
  rcases Nat.lt_trichotomy i ns.length with hlt | rfl | hgt
  · rw [inq_recIn_merged_old hlt]
    have hne := Nat.ne_of_lt hlt
    tauto
  · exact iff_of_true (by rw [recIn_merged_new]; rfl) (.inl rfl)
  · refine iff_of_false (fun h => ?_) (not_or.2 ⟨Nat.ne_of_gt hgt, fun h => ?_⟩)
    · have := lt_length_of_inq h
      rw [length_merged] at this
      omega
    · have := lt_length_of_inq h.2.2
      omega

/-- The sum of the weights of the Internal nodes made so far. -/
def internalCost (k : Nat) (ns : List NodeRec) : Nat := ∑ i ∈ Finset.Ico k ns.length, weightAt ns i

theorem internalCost_merged {k : Nat} {ns : List NodeRec} (hk : k ≤ ns.length) (a b : Nat) :
    internalCost k (merged ns a b) = internalCost k ns + weightAt (merged ns a b) ns.length := by
  rw [internalCost, length_merged, Finset.sum_Ico_succ_top hk]
  exact congrArg (· + _) (Finset.sum_congr rfl fun i hi => weightAt_merged_old (Finset.mem_Ico.1 hi).2)

/-- Within the cost `C` the Internal nodes made so far can be paid, and the nodes in the structure given lengths that meet Kraft's
inequality. -/
def Affordable (k C : Nat) (ns : List NodeRec) : Prop :=
  ∃ ℓ, Kraft (inqSet ns) ℓ ∧ internalCost k ns + cost (inqSet ns) (weightAt ns) ℓ ≤ C

/-- What the new node weighs is saved on the lengths. -/
theorem Affordable.pass {ft : FreqTable} {ns : List NodeRec} {C a b : Nat} (h : Affordable (nsym ft) C ns)
    (hf : Forest ft ns) (htwo : FirstTwo ns a b) : Affordable (nsym ft) C (merged ns a b) := by
  obtain ⟨ℓ, hkraft, hcost⟩ := h
  obtain ⟨ℓ', hkraft', hcost'⟩ := exists_joined (w := weightAt ns) (w' := weightAt (merged ns a b)) (n := ns.length)
    (mem_inqSet.2 htwo.first.inq) (mem_inqSet.2 htwo.inq) htwo.ne
    (fun i hi => htwo.weight_first_le (mem_inqSet.1 hi))
    (fun i hi => htwo.weight_second_le (mem_inqSet.1 (Finset.mem_of_mem_erase hi)) (Finset.ne_of_mem_erase hi))
    (fun h => Nat.lt_irrefl _ (lt_length_of_inq (mem_inqSet.1 h)))
    (fun i hi => weightAt_merged_old (lt_length_of_inq (mem_inqSet.1 hi))) (hf.weightAt_merged_new htwo) hkraft
  refine ⟨ℓ', ?_, ?_⟩
  · rw [inqSet_merged]
    exact hkraft'
  · rw [internalCost_merged hf.leavesFirst, inqSet_merged]
    omega

/-- No lengths of the Leaves under Kraft's inequality cost less than the Internal nodes of the finished tree. -/
theorem internalCost_treeRecords_le {ft : FreqTable} {ℓ : Nat → Nat} (h : Kraft (Finset.range (nsym ft)) ℓ) :
    internalCost (nsym ft) (treeRecords ft) ≤ cost (Finset.range (nsym ft)) (weightAt (leaves ft)) ℓ := by
  have hstart : Affordable (nsym ft) (cost (Finset.range (nsym ft)) (weightAt (leaves ft)) ℓ) (leaves ft) := by
    refine ⟨ℓ, ?_, ?_⟩
    · rwa [inqSet_leaves]
    · rw [inqSet_leaves, internalCost, length_leaves, Finset.Ico_self, Finset.sum_empty, Nat.zero_add]
  obtain ⟨ℓ', -, hcost⟩ := mergeLoop_keeps (fun _ _ _ hf htwo h => Affordable.pass h hf htwo) (leaves ft).length
    (forest_leaves ft) hstart
  exact (Nat.le_add_right _ _).trans hcost

/-- No assignment of codes of which none begins with another one costs less than the Internal nodes of the finished tree. -/
theorem State.TreeInv.internalCost_le {s : State} (hT : s.TreeInv) (hk : 2 ≤ nsym s.ft) {c : Byte → Code}
    (hc : prefixFreeOn s.ft c) : internalCost (nsym s.ft) (treeRecords s.ft) ≤ weightedLength s.ft c := by
  rw [hT.weightedLength_eq]
  refine (internalCost_treeRecords_le (hT.kraft hk hc)).trans_eq (Finset.sum_congr rfl fun i hi => ?_)
  have hpair := List.getElem?_eq_getElem (l := pairs s.ft) (Finset.mem_range.1 hi)
  have hweight : weightAt (leaves s.ft) i = (s.recAt i).weight.toNat := by
    rw [weightAt, recIn_leaves hpair, hT.leafAt i _ hpair]
    rfl
  exact congrArg (· * _) hweight

/-- The codes of CODEGEN after BUILD cost the Internal nodes of the finished tree. -/
theorem weightedLength_after_build {s t u : State} (hk : 2 ≤ nsym s.ft) (ht : exec .build s = .next t)
    (hu : exec .codegen t = .next u) :
    weightedLength s.ft u.ct.at = internalCost (nsym s.ft) (treeRecords s.ft) := by
  have hTt := treeInv_of_build ht
  have hrec := recAt_of_build ht
  obtain ⟨hC, -⟩ := codegen_after_build ht hu
  obtain ⟨hft, hnode, hn, hroot, hkind, -⟩ := codegen_keeps_tree hu
  have hT := hTt.congr hft hnode hn hroot hkind
  obtain rfl : completeNormally (buildTree s) = t := Host.Outcome.next.inj (exec_build s ▸ ht)
  have hft' : u.ft = s.ft := hft
  have hrec' : u.recAt = recIn (treeRecords s.ft) := by
    rw [← hrec]
    unfold State.recAt
    rw [hnode]
  have hmulti : u.treeKind = .multi := by
    rw [hT.kind, hft', if_neg (by omega), if_neg (by omega)]
  have hcost := hC.weightedLength_eq hT hmulti
  rw [hft', hrec'] at hcost
  rw [hcost, internalCost, length_treeRecords]
  rfl

end Sys2Proof.Machine
end

section
open Sys2Proof Sys2Proof.Machine

/-- Settles O42: the codes cost the Internal weights of BUILD's tree, and by Kraft's inequality no assignment of the kind the law
compares with costs less. -/
theorem codesAreOptimal : Obligations.CodesAreOptimal := by
  unfold Obligations.CodesAreOptimal
  intro s t u c hk ht hu hc
  exact (weightedLength_after_build hk ht hu).trans_le ((treeInv_buildTree s).internalCost_le hk hc)
end

section
/-! The lengths in RES0 and RES1 after CODEGEN (rule R95), and where CODEGEN refuses or meets the fatal error (rules R95, R100,
R154). -/

namespace Sys2Proof.Machine

/-! ### The code lengths in use -/

theorem CodeTable.mem_toList_iff {ct : CodeTable} {c : Code} : c ∈ ct.toList ↔ ∃ sym, ct.at sym = c := by
  rw [Vector.mem_toList_iff]
  constructor
  · intro h
    obtain ⟨i, hi, rfl⟩ := Vector.getElem_of_mem h
    refine ⟨BitVec.ofNat 8 i, ?_⟩
    simp only [CodeTable.at, BitVec.toNat_ofNat, Nat.mod_eq_of_lt hi]
  · rintro ⟨sym, rfl⟩
    exact Vector.getElem_mem _

theorem mem_codeLengths {ct : CodeTable} {n : Nat} : n ∈ codeLengths ct ↔ n ≠ 0 ∧ ∃ sym, ct.len sym = n := by
  simp only [codeLengths, List.mem_filter, List.mem_map, CodeTable.mem_toList_iff, exists_exists_eq_and, bne_iff_ne]
  exact and_comm

theorem len_mem_codeLengths {ct : CodeTable} {sym : Byte} (h : ct.len sym ≠ 0) : ct.len sym ∈ codeLengths ct :=
  mem_codeLengths.2 ⟨h, sym, rfl⟩

theorem codeLengths_eq_nil {ct : CodeTable} (h : ∀ sym, ct.at sym = []) : codeLengths ct = [] := by
  refine List.eq_nil_iff_forall_not_mem.2 fun n hn => ?_
  obtain ⟨hne, sym, rfl⟩ := mem_codeLengths.1 hn
  exact hne (congrArg List.length (h sym))

theorem longestCode_eq_max? (ct : CodeTable) : longestCode ct = (codeLengths ct).max?.getD 0 := by
  rw [longestCode, List.foldl_max, Nat.zero_max]

theorem shortestCode_eq_min? (ct : CodeTable) : shortestCode ct = (codeLengths ct).min?.getD 0 := by
  unfold shortestCode
  cases codeLengths ct <;> rfl

theorem len_le_longestCode (ct : CodeTable) (sym : Byte) : ct.len sym ≤ longestCode ct := by
  by_cases h : ct.len sym = 0
  · rw [h]
    exact Nat.zero_le _
  · rw [longestCode_eq_max?]
    exact List.le_max?_getD_of_mem (len_mem_codeLengths h)

theorem shortestCode_le_len {ct : CodeTable} {sym : Byte} (h : ct.len sym ≠ 0) : shortestCode ct ≤ ct.len sym := by
  rw [shortestCode_eq_min?]
  exact List.min?_getD_le_of_mem (len_mem_codeLengths h)

/-- Where some symbol has a code, the longest and the shortest length are lengths in use. -/
theorem extremes_mem_codeLengths {ct : CodeTable} {sym : Byte} (h : ct.len sym ≠ 0) :
    longestCode ct ∈ codeLengths ct ∧ shortestCode ct ∈ codeLengths ct := by
  have hne : codeLengths ct ≠ [] := List.ne_nil_of_mem (len_mem_codeLengths h)
  obtain ⟨m, hm⟩ := Option.ne_none_iff_exists'.1 (mt List.max?_eq_none_iff.1 hne)
  obtain ⟨n, hn⟩ := Option.ne_none_iff_exists'.1 (mt List.min?_eq_none_iff.1 hne)
  rw [longestCode_eq_max?, shortestCode_eq_min?, hm, hn]
  exact ⟨List.max?_mem hm, List.min?_mem hn⟩

theorem extremes_eq_zero {ct : CodeTable} (h : ∀ sym, ct.at sym = []) : longestCode ct = 0 ∧ shortestCode ct = 0 := by
  rw [longestCode_eq_max?, shortestCode_eq_min?, codeLengths_eq_nil h]
  exact ⟨rfl, rfl⟩

/-- Lengths of at most 255 bits fit in RES0 and RES1 (rule R5). -/
theorem extremes_le {ct : CodeTable} (h : ∀ sym, ct.len sym ≤ 255) : longestCode ct ≤ 255 ∧ shortestCode ct ≤ 255 := by
  by_cases hall : ∀ sym, ct.at sym = []
  · obtain ⟨hlong, hshort⟩ := extremes_eq_zero hall
    omega
  · obtain ⟨sym, hsym⟩ := not_forall.1 hall
    have hmem := extremes_mem_codeLengths (mt List.eq_nil_of_length_eq_zero hsym)
    obtain ⟨-, p, hp⟩ := mem_codeLengths.1 hmem.1
    obtain ⟨-, q, hq⟩ := mem_codeLengths.1 hmem.2
    exact ⟨hp ▸ h p, hq ▸ h q⟩

/-! ### What CODEGEN reports -/

/-- A normal end of CODEGEN's pseudocode is the end of rule R95, with the table it leaves. -/
theorem codegenBody_eq_finishCodes {s t : State} (h : codegenBody s = .val () t) : t = finishCodes t.ct s := by
  unfold codegenBody at h
  split at h
  · cases h
  · dsimp only at h
    split at h
    · cases h
      rfl
    · split at h <;> cases h
      rfl
    · split at h <;> cases h
      rfl

/-- CODEGEN reports the longest and the shortest length of the table it leaves (rule R95). -/
theorem codegenBody_results {s t : State} (h : codegenBody s = .val () t) (hlen : ∀ sym, t.ct.len sym ≤ 255) :
    t.res0.toNat = longestCode t.ct ∧ t.res1.toNat = shortestCode t.ct := by
  obtain ⟨hlong, hshort⟩ := extremes_le hlen
  rw [codegenBody_eq_finishCodes h]
  exact ⟨Nat.mod_eq_of_lt (by omega), Nat.mod_eq_of_lt (by omega)⟩

/-- A retained symbol has a code (rule R31). -/
theorem State.CodeInv.len_ne_zero {s : State} (hC : s.CodeInv) (hT : s.TreeInv) {sym : Byte} (h : s.ft.at sym ≠ 0) :
    s.ct.len sym ≠ 0 := by
  cases hkind : s.treeKind with
  | none => exact absurd (at_eq_zero_of_nsym_eq_zero (hT.nsym_of_none hkind) sym) h
  | single =>
    rw [CodeTable.len, hC.single hkind sym h]
    decide
  | multi =>
    obtain ⟨hne, -⟩ := hC.multi hkind sym h
    exact mt List.eq_nil_of_length_eq_zero hne

theorem exists_retained {ft : FreqTable} (h : nsym ft ≠ 0) : ∃ sym, ft.at sym ≠ 0 := by
  obtain ⟨⟨sym, f⟩, hmem⟩ := List.exists_mem_of_length_pos (Nat.pos_of_ne_zero h)
  obtain ⟨hat, hf⟩ := (mem_pairs ft sym f).1 hmem
  exact ⟨sym, hat.trans_ne hf⟩

/-! ### Where CODEGEN does not complete normally -/

theorem codegenBody_noTree {s : State} (h : s.treeValid = false) : codegenBody s = .raise .badSequence 0x12 s := by
  rw [codegenBody, if_pos h]

/-- The traversal stops at a first record with a missing child, before it writes a code (rules R95, R100). -/
theorem traverse_missingChild {m : NodeMemory} {fuel : Nat} {n : NodeIdx} {r : NodeRec} {p : Code}
    {stack : List (NodeIdx × Code)} {ct : CodeTable} (hfuel : 0 < fuel) (hn : m.at? n = some r) (hkind : r.kind = .internal)
    (hchild : r.left = NIL ∨ r.right = NIL) : traverse m fuel ((n, p) :: stack) ct = .oneChild n ct := by
  obtain ⟨fuel, rfl⟩ := Nat.exists_eq_add_one.2 hfuel
  rw [traverse, hn]
  simp only [hkind, if_pos hchild]

theorem codegenBody_missingChild {s : State} (hv : s.treeValid = true) (hmulti : s.treeKind = .multi) (hroot : s.root ≠ NIL)
    (hkind : (s.recAt s.root.toNat).kind = .internal)
    (hchild : (s.recAt s.root.toNat).left = NIL ∨ (s.recAt s.root.toNat).right = NIL) :
    codegenBody s = .fatal (s.root.setWidth 32) { s with ct := CodeTable.empty, ctValid := false } := by
  have hbound : 0 < traverseBound := two_pow_le_traverseBound (n := 0) (Nat.zero_le 512)
  have hlt : s.root.toNat < 511 := by bv_omega
  rw [codegenBody, if_neg (by rw [hv]; decide)]
  simp only [hmulti, traverse_missingChild hbound (NodeMemory.at?_eq hlt) hkind hchild]

/-! ### The fatal error -/

/-- From the invariant no command raises the fatal error (rules R100, R154). -/
theorem exec_fatal_eq {i : Instr} {s t : State} (h : s.Inv) (he : exec i s = .next t) : t.fatal = s.fatal := by
  have hends := Run.ends_and (body_keeps_inv i h) (body_sameFrame i s)
  rw [exec_eq_finish] at he
  obtain ⟨u, hu, rfl⟩ | ⟨e, info, u, hu, rfl⟩ | ⟨info, u, hu, rfl⟩ := finish_next he <;> rw [hu] at hends
  · exact hends.2.get State.fatal
  · exact hends.2.get State.fatal
  · exact hends.elim

theorem sequencerTurn_fatal_eq {s t : State} (h : s.Inv) (ht : sequencerTurn s = .next t) : t.fatal = s.fatal := by
  cases hb : s.busy with
  | false =>
    rw [sequencerTurn_idle hb] at ht
    cases ht
    rfl
  | true =>
    by_cases hlegal : ∃ i, s.cmdReg = encode i
    · obtain ⟨i, hi⟩ := hlegal
      rw [sequencerTurn_legal hb (hi ▸ decode_encode i)] at ht
      exact exec_fatal_eq h ht
    · rw [sequencerTurn_illegal hb (not_exists.1 hlegal)] at ht
      cases ht
      rfl

end Sys2Proof.Machine
end

section
open Sys2Proof Sys2Proof.Machine

/-- Settles O39: the codes are those of `codegenBody_of_treeInv`, and RES0 and RES1 the extremes of their lengths. -/
theorem codegenAssignsThePathCodes : Obligations.CodegenAssignsThePathCodes := by
  unfold Obligations.CodegenAssignsThePathCodes
  intro s hv hT
  obtain ⟨t, hrun, hC, hlen, hframe⟩ := codegenBody_of_treeInv hv hT
  obtain ⟨hres0, hres1⟩ := codegenBody_results hrun hlen
  have hexec : exec .codegen s = .next (completeNormally t) := by
    rw [exec_eq_finish, body, hrun]
    rfl
  obtain ⟨hft, hnode, hn, hroot, hkind, -⟩ := codegen_keeps_tree hexec
  rw [completeNormally_ft] at hft
  refine ⟨completeNormally t, hexec, hC.congr rfl rfl rfl rfl rfl, hlen, fun sym => ?_, fun sym hne => ?_, ?_, ?_⟩
  · exact (len_le_longestCode t.ct sym).trans_eq hres0.symm
  · exact hres1.trans_le (shortestCode_le_len hne)
  · split
    · rename_i hnone
      obtain ⟨hlong, hshort⟩ := extremes_eq_zero fun sym =>
        hC.notRetained sym (at_eq_zero_of_nsym_eq_zero (hft ▸ hnone) sym)
      exact ⟨BitVec.eq_of_toNat_eq (hres0.trans hlong), BitVec.eq_of_toNat_eq (hres1.trans hshort)⟩
    · rename_i hsome
      obtain ⟨sym, hsym⟩ := exists_retained hsome
      obtain ⟨hmax, hmin⟩ := extremes_mem_codeLengths
        (hC.len_ne_zero (hT.congr hft hnode hn hroot hkind) (hft ▸ hsym))
      obtain ⟨-, p, hp⟩ := mem_codeLengths.1 hmax
      obtain ⟨hne, q, hq⟩ := mem_codeLengths.1 hmin
      exact ⟨⟨p, hp.trans hres0.symm⟩, q, hq.trans_ne hne, hq.trans hres1.symm⟩
  · exact congrArg completeNormally hframe

/-- Settles O23: a command ends without the fatal error by `body_keeps_inv`; host accesses keep `fatal`, and reset clears it. -/
theorem noStepRaisesTheFatalError : Obligations.NoStepRaisesTheFatalError := by
  unfold Obligations.NoStepRaisesTheFatalError
  intro s t h hf ht
  obtain ⟨es, -, hs⟩ | ⟨a, es, -, hs⟩ | ⟨es, -, hs⟩ := step_cases s
  · exact (sequencerTurn_fatal_eq (h.withInputs es) (hs.symm.trans ht)).trans hf
  · obtain ⟨hkeep, -⟩ := (hostAccess_effect a { s with inputs := es }).marks
    cases hs.symm.trans ht
    exact hkeep.trans hf
  · cases hs.symm.trans ht
    rfl

/-- Settles O40: the two stops of `codegenBody`, of which the second leaves the empty table. -/
theorem codegenRefusesNoTreeAndAMissingChild : Obligations.CodegenRefusesNoTreeAndAMissingChild := by
  unfold Obligations.CodegenRefusesNoTreeAndAMissingChild
  intro s
  refine ⟨fun hv => ?_, fun hv hmulti hroot hkind hchild => ?_⟩
  · rw [exec_eq_finish, body, codegenBody_noTree hv]
    rfl
  · refine ⟨takeFatal (s.root.setWidth 32) { s with ct := CodeTable.empty, ctValid := false }, ?_, CodeTable.at_empty, rfl⟩
    rw [exec_eq_finish, body, codegenBody_missingChild hv hmulti hroot hkind hchild]
    rfl
end

section
/-! What ends a BitWriter command early: OBUF has no room for its next bit (rules R106, R109, R110, R125), or a check of its
pseudocode fails (rules R109, R110, R111, R125). -/

namespace Sys2Proof.Machine

/-! ### How a command ends (rules R152, R153) -/

theorem exec_of_body_val {i : Instr} {s t : State} (h : body i s = .val () t) : exec i s = .next (completeNormally t) := by
  rw [exec_eq_finish, h]
  rfl

theorem exec_of_body_raise {i : Instr} {s t : State} {e : Err} {info : Word} (h : body i s = .raise e info t) :
    exec i s = .next (takeError (isWholeOperation i) e info t) := by
  rw [exec_eq_finish, h]
  rfl

/-! ### No room (rule R106) -/

/-- A session that fills OBUF to its end stands at a byte boundary at OBUF_SIZE (rule R108). -/
theorem writerHolds.cursor_of_filled {s : State} {base : Nat} {w : List Bool} (h : writerHolds s base w)
    (hfilled : 8 * base + w.length = 8 * s.cfg.obufSize) : s.bwPos.toNat = s.cfg.obufSize ∧ s.bwCnt = 0 := by
  obtain ⟨hpos, hcnt, -, -⟩ := h
  have hbyte : s.bwCnt.toNat = 0 := by omega
  exact ⟨by omega, BitVec.eq_of_toNat_eq hbyte⟩

/-- Without room, `putbits` appends the bits that fit and raises OutputOverflow at the next one (rules R106, R110, R126). -/
theorem putbits_overflows {s : State} {base : Nat} {w bs : List Bool} (hc : s.cfg.wellFormed = true)
    (h : writerHolds s base w) (hle : 8 * base + w.length ≤ 8 * s.cfg.obufSize)
    (hover : 8 * s.cfg.obufSize < 8 * base + w.length + bs.length) :
    ∃ t, putbits bs s = .raise .outputOverflow (BitVec.ofNat 32 s.cfg.obufSize) t ∧
      Appended s t base w (bs.take (8 * s.cfg.obufSize - 8 * base - w.length)) := by
  generalize hroom : 8 * s.cfg.obufSize - 8 * base - w.length = room
  have hlen : (bs.take room).length = room := List.length_take_of_le (by omega)
  obtain ⟨t, hput, ht⟩ := putbits_appends (bs.take room) hc h (by omega)
  obtain ⟨hpos, hcnt⟩ := ht.holds.cursor_of_filled (by
    rw [ht.cfg_eq, List.length_append, hlen]
    omega)
  rw [ht.cfg_eq] at hpos
  have hfull : t.cfg.obufSize ≤ t.bwPos.toNat := by rw [hpos, ht.cfg_eq]
  have hrest : putbits (bs.drop room) t = .raise .outputOverflow (BitVec.ofNat 32 s.cfg.obufSize) t := by
    rw [List.drop_eq_getElem_cons (by omega), putbits, putbit_overflow hfull hcnt, Run.bind_raise, ← hpos,
      BitVec.ofNat_toNat, BitVec.setWidth_eq]
  refine ⟨t, ?_, ht⟩
  rw [← List.take_append_drop room bs, putbits_append, hput, Run.bind_val, hrest]

theorem isWholeOperation_of_mayWrite {i : Instr} {s : State} (h : mayWrite i s) : isWholeOperation i = false := by
  obtain ⟨-, rfl | ⟨rfl, -⟩ | ⟨rfl, -⟩⟩ := h <;> rfl

/-! ### The refusals (rules R109, R110, R111, R125) -/

/-- Without a session the four commands refuse before anything else. -/
theorem body_of_closedWriter {i : Instr} {s : State} (hi : i ∈ [Instr.bwPutb, .bwPuts, .bwPutsym, .bwFinal])
    (h : s.bwOpen = false) : body i s = .raise .badSequence (encode i) s := by
  simp only [List.mem_cons, List.not_mem_nil, or_false] at hi
  obtain rfl | rfl | rfl | rfl := hi
  all_goals exact if_pos h

theorem isWholeOperation_of_writer {i : Instr} (hi : i ∈ [Instr.bwPutb, .bwPuts, .bwPutsym, .bwFinal]) :
    isWholeOperation i = false := by
  revert hi
  cases i <;> decide

theorem bwPutsBody_tooMany {s : State} (hopen : s.bwOpen = true) (h : 32 < s.arg1.toNat) :
    bwPutsBody s = .raise .badArgument s.arg1 s := by
  rw [bwPutsBody, hopen, if_neg Bool.noConfusion]
  exact if_pos (Nat.not_le.2 h)

theorem bwPutsymBody_noCodes {s : State} (hopen : s.bwOpen = true) (h : s.ctValid = false) :
    bwPutsymBody s = .raise .badSequence 0x23 s := by
  rw [bwPutsymBody, hopen, if_neg Bool.noConfusion, if_pos h]

theorem bwPutsymBody_noCode {s : State} (hopen : s.bwOpen = true) (hvalid : s.ctValid = true)
    (h : s.ct.at (s.arg0.setWidth 8) = []) :
    bwPutsymBody s = .raise .badArgument ((s.arg0.setWidth 8).setWidth 32) s := by
  have hlen : s.ct.len (s.arg0.setWidth 8) = 0 := congrArg List.length h
  rw [bwPutsymBody, hopen, hvalid, if_neg Bool.noConfusion, if_neg Bool.noConfusion, bwPutsymSym_eq]
  exact if_pos (not_not.2 hlen)

end Sys2Proof.Machine
end

section
open Sys2Proof Sys2Proof.Machine

/-- Settles O45: `putbits` writes the bits that fit and raises at the next one, at the end of OBUF. -/
theorem bitWriterOverflowKeepsTheBitsThatFit : Obligations.BitWriterOverflowKeepsTheBitsThatFit := by
  unfold Obligations.BitWriterOverflowKeepsTheBitsThatFit
  intro i s base w hc hmay hw hle hover
  obtain ⟨t, hput, ht⟩ := putbits_overflows hc hw hle hover
  have hbody : body i s = .raise .outputOverflow (BitVec.ofNat 32 s.cfg.obufSize) t := by
    rw [body_of_mayWrite hmay, hput, Run.bind_raise]
  have hexec := exec_of_body_raise hbody
  rw [isWholeOperation_of_mayWrite hmay] at hexec
  refine ⟨_, hexec, ht.holds, fun a ha => ht.kept a ?_, ?_⟩
  · rw [List.length_take_of_le (by omega)]
    omega
  · exact congrArg (takeError false .outputOverflow (BitVec.ofNat 32 s.cfg.obufSize)) ht.only

/-- Settles O46: each refusal is a raise of the command's pseudocode in the state it began in. -/
theorem bitWriterRefusals : Obligations.BitWriterRefusals := by
  unfold Obligations.BitWriterRefusals
  intro s
  refine ⟨fun hclosed i hi => ?_, fun hopen hcount => ?_, fun hopen hvalid => ?_, fun hopen hvalid hcode => ?_⟩
  · rw [exec_of_body_raise (body_of_closedWriter hi hclosed), isWholeOperation_of_writer hi]
    rfl
  · exact exec_of_body_raise (i := .bwPuts) (bwPutsBody_tooMany hopen hcount)
  · exact exec_of_body_raise (i := .bwPutsym) (bwPutsymBody_noCodes hopen hvalid)
  · exact exec_of_body_raise (i := .bwPutsym) (bwPutsymBody_noCode hopen hvalid hcode)
end

section
/-! The two ends of a BitWriter session: BW_INIT opens it empty (rule R107), and the finalisation stores the unfinished byte, so that
OBUF holds `pack(w)` (rules R111, R112). -/

namespace Sys2Proof.Machine

/-! ### Opening (rule R107) -/

theorem writerHolds_nil {s : State} {base : Nat} (hpos : s.bwPos.toNat = base) (hcnt : s.bwCnt = 0) (hacc : s.bwAcc = 0) :
    writerHolds s base [] := by
  refine ⟨hpos, by rw [hcnt]; rfl, fun j hj => absurd hj (Nat.not_lt_zero j), fun i _ => ?_⟩
  rw [hacc]
  exact BitVec.getLsbD_zero

theorem bwInitBody_inside {s : State} (h : s.arg0.toNat ≤ s.cfg.obufSize) :
    bwInitBody s = .val () { s with bwPos := s.arg0, bwAcc := 0, bwCnt := 0, bwOpen := true, outLen := 0 } :=
  if_neg (not_not.2 h)

theorem bwInitBody_outside {s : State} (h : s.cfg.obufSize < s.arg0.toNat) : bwInitBody s = .raise .badArgument s.arg0 s :=
  if_pos (Nat.not_le.2 h)

/-! ### Finalising (rules R111, R112) -/

/-- Finalising with a partial byte, which is in OBUF from then on (rule R111). -/
theorem finalise_partial {s : State} (room : s.bwPos.toNat < s.cfg.obufSize) (h : s.bwCnt ≠ 0) :
    finalise s = .val (8 - s.bwCnt.toNat) { s with
      obuf := s.obuf.write s.bwPos.toNat s.bwAcc, bwPos := s.bwPos + 1, bwAcc := 0, bwCnt := 0
      res0 := BitVec.ofNat 32 (8 - s.bwCnt.toNat), res1 := s.bwPos + 1, outLen := s.bwPos + 1, bwOpen := false } := by
  rw [finalise, if_neg h, if_pos room]

/-- `pack(w)` fills whole bytes: the bits and the pad bits. -/
theorem eight_mul_ceil8 (n : Nat) : 8 * ceil8 n = n + padOf n := by
  unfold ceil8 padOf
  omega

/-- `t` is `s` after the session that began at `base` and has written `w` was finalised (rules R111, R112). -/
structure Packed (s t : State) (base : Nat) (w : List Bool) : Prop where
  holds : holdsBits t.obufByte base w
  pad : t.res0 = BitVec.ofNat 32 (padOf w.length)
  outLen : t.outLen.toNat = base + ceil8 w.length
  kept : ∀ a, ¬ (base + w.length / 8 ≤ a ∧ a < base + ceil8 w.length) → t.obufByte a = s.obufByte a
  only : t = { s with
    obuf := t.obuf, bwOpen := false, bwPos := t.outLen, bwAcc := 0, bwCnt := 0, res0 := t.res0, res1 := t.outLen
    outLen := t.outLen }

section Finalise

variable {s : State} {base : Nat} {w : List Bool} (h : writerHolds s base w)
include h

/-- At a byte boundary the partial byte is empty (rule R108). -/
theorem writerHolds.bwAcc_eq_zero (haligned : w.length % 8 = 0) : s.bwAcc = 0 := by
  obtain ⟨-, -, -, hacc⟩ := h
  refine BitVec.eq_of_getLsbD_eq fun i hi => ?_
  have hbit := hacc (7 - i) (by omega)
  rw [haligned, decide_eq_false (Nat.not_lt_zero _), Bool.false_and, show 7 - (7 - i) = i by omega] at hbit
  rw [hbit]
  exact BitVec.getLsbD_zero.symm

/-- At a byte boundary the finalisation stores nothing. -/
theorem finalise_packs_aligned (haligned : w.length % 8 = 0) :
    ∃ t, finalise s = .val (padOf w.length) t ∧ Packed s t base w := by
  have hacc := h.bwAcc_eq_zero haligned
  obtain ⟨hpos, hcnt, hstored, -⟩ := h
  have hcnt0 : s.bwCnt = 0 := BitVec.eq_of_toNat_eq (hcnt.trans haligned)
  have hpad : padOf w.length = 0 := by
    unfold padOf
    omega
  have hceil : ceil8 w.length = w.length / 8 := by
    unfold ceil8
    omega
  rw [hpad]
  refine ⟨_, finalise_empty hcnt0, ⟨fun j hj i hi => ?_, ?_, ?_, fun _ _ => rfl, ?_⟩⟩
  · exact hstored j (hceil ▸ hj) i hi
  · rw [hpad]
    rfl
  · rw [hceil]
    exact hpos
  · rw [← hacc, ← hcnt0]

/-- Inside a byte the finalisation stores it, its free bits 0. -/
theorem finalise_packs_partial (hsize : s.cfg.obufSize ≤ 2 ^ 30) (hroom : 8 * base + w.length ≤ 8 * s.cfg.obufSize)
    (hpartial : w.length % 8 ≠ 0) : ∃ t, finalise s = .val (padOf w.length) t ∧ Packed s t base w := by
  obtain ⟨hpos, hcnt, hstored, hacc⟩ := h
  have hcnt0 : s.bwCnt ≠ 0 := fun e => hpartial (hcnt.symm.trans (congrArg BitVec.toNat e))
  have hpad : 8 - s.bwCnt.toNat = padOf w.length := by
    unfold padOf
    omega
  have hceil : ceil8 w.length = w.length / 8 + 1 := by
    unfold ceil8
    omega
  have hlt : s.bwPos.toNat < s.cfg.obufSize := by omega
  have hbyte := obufByte_of_write (s := s) (t := { s with
    obuf := s.obuf.write s.bwPos.toNat s.bwAcc, bwPos := s.bwPos + 1, bwAcc := 0, bwCnt := 0
    res0 := BitVec.ofNat 32 (8 - s.bwCnt.toNat), res1 := s.bwPos + 1, outLen := s.bwPos + 1, bwOpen := false }) rfl rfl
  rw [← hpad]
  refine ⟨_, finalise_partial hlt hcnt0, ⟨fun j hj i hi => ?_, ?_, ?_, fun a ha => ?_, rfl⟩⟩
  · rw [hbyte, hpos]
    by_cases hlast : j = w.length / 8
    · rw [hlast, if_pos rfl, hacc i hi]
      by_cases hbit : i < w.length % 8
      · rw [decide_eq_true hbit, Bool.true_and]
      · rw [decide_eq_false hbit, Bool.false_and, List.getD_eq_default _ _ (by omega)]
    · rw [if_neg (by omega), hstored j (by omega) i hi]
  · rw [hpad]
  · rw [hceil]
    bv_omega
  · exact (hbyte a).trans (if_neg (by omega))

end Finalise

/-- The finalisation leaves `pack(w)` in OBUF and answers its padding count (rules R111, R112). -/
theorem finalise_packs {s : State} {base : Nat} {w : List Bool} (hc : s.cfg.wellFormed = true) (h : writerHolds s base w)
    (hroom : 8 * base + w.length ≤ 8 * s.cfg.obufSize) :
    ∃ t, finalise s = .val (padOf w.length) t ∧ Packed s t base w := by
  obtain ⟨-, -, hsize⟩ := Config.sizes_of_wellFormed hc
  by_cases haligned : w.length % 8 = 0
  · exact finalise_packs_aligned h haligned
  · exact finalise_packs_partial h hsize hroom haligned

end Sys2Proof.Machine
end

section
open Sys2Proof Sys2Proof.Machine

/-- Settles O43: past its one check BW_INIT opens the session, which has written nothing. -/
theorem bwInitOpensASession : Obligations.BwInitOpensASession := by
  unfold Obligations.BwInitOpensASession
  intro s
  refine ⟨fun h => ?_, fun h => exec_of_body_raise (i := .bwInit) (bwInitBody_outside h)⟩
  exact ⟨_, exec_of_body_val (i := .bwInit) (bwInitBody_inside h), writerHolds_nil rfl rfl rfl, rfl⟩

/-- Settles O47: an open session is finalised. -/
theorem bwFinalPacksTheSession : Obligations.BwFinalPacksTheSession := by
  unfold Obligations.BwFinalPacksTheSession
  intro s base w hc hopen hw hroom
  obtain ⟨t, hfinal, ht⟩ := finalise_packs hc hw hroom
  have hbody : body .bwFinal s = .val () t := by
    rw [body, bwFinalBody, hopen, if_neg Bool.noConfusion, hfinal, Run.bind_val]
  refine ⟨_, exec_of_body_val hbody, ht.holds, ?_, ht.outLen, ht.kept, congrArg completeNormally ht.only⟩
  rw [completeNormally_res0, ht.pad]
  exact Nat.mod_eq_of_lt (by unfold padOf; omega)
end

section
/-! The BitReader: what BR_INIT wraps (rule R113), the bit BR_GETB returns (rules R115, R116), and the bits a row of BR_GETB returns
(rule R118). -/

namespace Sys2Proof.Machine

/-! ### Wrapping IBUF (rule R113) -/

/-- The state after BR_INIT wrapped IBUF (rules R113, R152). -/
def afterBrInit (s : State) : State :=
  completeNormally { s with
    brBase := s.arg0, brValid := BitVec.ofNat 34 (8 * (s.inLen.toNat - s.arg0.toNat) - s.arg1.toNat), brPos := 0
    brOpen := true }

section Wrap

variable {s : State} (hin : s.inLen.toNat ≤ s.cfg.ibufSize)
include hin

theorem brInitBody_outside (h : s.inLen.toNat < s.arg0.toNat) : brInitBody s = .raise .badArgument s.arg0 s := by
  rw [brInitBody, if_neg (not_not.2 hin)]
  exact if_pos (Nat.not_le.2 h)

/-- The two checks of the padding count raise the same error. -/
theorem brInitBody_badPad (hbase : s.arg0.toNat ≤ s.inLen.toNat)
    (hpad : 7 < s.arg1.toNat ∨ 8 * (s.inLen.toNat - s.arg0.toNat) < s.arg1.toNat) :
    brInitBody s = .raise .corruptStream s.arg1 s := by
  have hoffset : brInitOffset s ≤ s.inLen.toNat := hbase
  rw [brInitBody, if_neg (not_not.2 hin), if_neg (not_not.2 hoffset)]
  by_cases h7 : brInitPad s ≤ 7
  · rw [if_neg (not_not.2 h7)]
    exact if_pos (Nat.not_le.2 (hpad.resolve_left (Nat.not_lt.2 h7)))
  · exact if_pos h7

/-- Past its checks BR_INIT wraps the bytes from ARG0 on. -/
theorem exec_brInit (hbase : s.arg0.toNat ≤ s.inLen.toNat) (h7 : s.arg1.toNat ≤ 7)
    (hpad : s.arg1.toNat ≤ 8 * (s.inLen.toNat - s.arg0.toNat)) : exec .brInit s = .next (afterBrInit s) := by
  have hoffset : brInitOffset s ≤ s.inLen.toNat := hbase
  have hcount : brInitPad s ≤ 7 := h7
  refine exec_of_body_val (i := .brInit) ?_
  rw [body, brInitBody, if_neg (not_not.2 hin), if_neg (not_not.2 hoffset), if_neg (not_not.2 hcount)]
  exact if_neg (not_not.2 hpad)

end Wrap

/-- The number of valid bits fits its 34 bits (rules R6, R27). -/
theorem afterBrInit_brValid {s : State} (hc : s.cfg.wellFormed = true) (hin : s.inLen.toNat ≤ s.cfg.ibufSize) :
    (afterBrInit s).brValid.toNat = 8 * (s.inLen.toNat - s.arg0.toNat) - s.arg1.toNat := by
  obtain ⟨⟨-, hsize⟩, -⟩ := Config.sizes_of_wellFormed hc
  exact Nat.mod_eq_of_lt (by omega)

/-! ### The next bit (rules R115, R116) -/

/-- The state after BR_GETB returned the next bit (rules R115, R152). -/
def afterGetb (s : State) : State :=
  completeNormally { s with brPos := s.brPos + 1, res0 := if readerBit s s.brPos.toNat then 1 else 0 }

/-- While a valid bit is left, and the valid bits lie in IBUF, BR_GETB returns the next bit. -/
theorem exec_brGetb {s : State} (hopen : s.brOpen = true) (hleft : s.brPos.toNat < s.brValid.toNat)
    (hinside : 8 * s.brBase.toNat + s.brValid.toNat ≤ 8 * s.cfg.ibufSize) : exec .brGetb s = .next (afterGetb s) := by
  have hoffset : brOffset s < s.cfg.ibufSize := by
    unfold brOffset
    omega
  have hbody : body .brGetb s = .val () { s with
      brPos := s.brPos + 1, res0 := if readerBit s s.brPos.toNat then 1 else 0 } := by
    rw [body, brGetbBody, if_neg (by rw [hopen]; decide), if_neg (not_not.2 hleft), getbit_val hoffset]
    rfl
  exact exec_of_body_val hbody

theorem afterGetb_brPos {s : State} (hleft : s.brPos.toNat < s.brValid.toNat) :
    (afterGetb s).brPos.toNat = s.brPos.toNat + 1 := by
  show (s.brPos + 1).toNat = _
  bv_omega

theorem afterGetb_res0 (s : State) : (afterGetb s).res0.toNat = (readerBit s s.brPos.toNat).toNat := by
  show (if readerBit s s.brPos.toNat then (1 : Word) else 0).toNat = _
  cases readerBit s s.brPos.toNat <;> rfl

theorem afterGetb_res0_beq_one (s : State) : ((afterGetb s).res0 == 1) = readerBit s s.brPos.toNat := by
  show ((if readerBit s s.brPos.toNat then (1 : Word) else 0) == 1) = _
  cases readerBit s s.brPos.toNat <;> rfl

/-! ### A row of bits (rule R118) -/

/-- The next bits are the next one and those that follow it. -/
theorem upcoming_succ {s : State} (n : Nat) (hleft : s.brPos.toNat < s.brValid.toNat) :
    upcoming s (n + 1) = readerBit s s.brPos.toNat :: upcoming (afterGetb s) n := by
  rw [upcoming, List.range_succ_eq_map, List.map_cons, List.map_map, upcoming, afterGetb_brPos hleft]
  refine congrArg (List.cons _) (List.map_congr_left fun i _ => ?_)
  show readerBit s (s.brPos.toNat + (i + 1)) = readerBit s (s.brPos.toNat + 1 + i)
  rw [Nat.add_assoc, Nat.add_comm 1 i]

/-- After a command that completed normally, with `n` valid bits left: as many BR_GETB return the upcoming bits, and change the
position and RES0 only. -/
theorem getbRun_upcoming {s : State} {n : Nat} (hcompleted : completeNormally s = s) (hopen : s.brOpen = true)
    (hvalid : s.brPos.toNat + n = s.brValid.toNat)
    (hinside : 8 * s.brBase.toNat + s.brValid.toNat ≤ 8 * s.cfg.ibufSize) :
    ∃ u, getbRun n s = some (upcoming s n, u) ∧ u = { s with brPos := s.brValid, res0 := u.res0 } := by
  induction n generalizing s with
  | zero =>
    exact ⟨s, rfl, congrArg (fun p : BitCount => { s with brPos := p }) (BitVec.eq_of_toNat_eq hvalid)⟩
  | succ n ih =>
    have hleft : s.brPos.toNat < s.brValid.toNat := by omega
    obtain ⟨u, hrun, hu⟩ := ih (s := afterGetb s) rfl hopen (by
      rw [afterGetb_brPos hleft, Nat.add_right_comm]
      exact hvalid) hinside
    refine ⟨u, ?_, hu.trans ?_⟩
    · rw [getbRun, exec_brGetb hopen hleft hinside, upcoming_succ n hleft, ← afterGetb_res0_beq_one]
      exact congrArg (Option.map _) hrun
    · exact congrArg (fun t : State => { t with brPos := s.brValid, res0 := u.res0 }) hcompleted

/-- Where IBUF holds `pack(w)` from the session's base on, the upcoming bits are those of `w` (rules R112, R116). -/
theorem upcoming_of_holdsBits {s : State} {w : List Bool} (hpos : s.brPos = 0)
    (h : holdsBits s.ibufByte s.brBase.toNat w) : upcoming s w.length = w := by
  refine List.ext_getElem (by rw [upcoming, List.length_map, List.length_range]) fun p _ hp => ?_
  have hbyte : p / 8 < ceil8 w.length := by
    unfold ceil8
    omega
  have hbit := h (p / 8) hbyte (p % 8) (Nat.mod_lt p (by decide))
  rw [Nat.div_add_mod, List.getD_eq_getElem _ _ hp] at hbit
  simp only [upcoming, List.getElem_map, List.getElem_range, hpos]
  rw [show (0 : BitCount).toNat + p = p from Nat.zero_add p]
  exact hbit

end Sys2Proof.Machine
end

section
open Sys2Proof Sys2Proof.Machine

/-- Settles O48: the checks of BR_INIT in their order, and what it wraps past them. -/
theorem brInitWrapsTheBuffer : Obligations.BrInitWrapsTheBuffer := by
  unfold Obligations.BrInitWrapsTheBuffer
  intro s hc hin
  refine ⟨fun h => ?_, fun hbase hpad => ?_, fun hbase h7 hpad => ?_⟩
  · exact exec_of_body_raise (i := .brInit) (brInitBody_outside hin h)
  · exact exec_of_body_raise (i := .brInit) (brInitBody_badPad hin hbase hpad)
  · exact ⟨afterBrInit s, exec_brInit hin hbase h7 hpad, afterBrInit_brValid hc hin, rfl⟩

/-- Settles O49: the valid bits lie in IBUF, so BR_GETB reads the byte of the next one. -/
theorem brGetbReturnsTheNextBit : Obligations.BrGetbReturnsTheNextBit := by
  unfold Obligations.BrGetbReturnsTheNextBit
  intro s _ hopen hleft hinside
  exact ⟨_, exec_brGetb hopen hleft hinside, afterGetb_res0 s, afterGetb_brPos hleft, rfl⟩

/-- Settles O51: BR_INIT leaves `|w|` valid bits, which are the bits of `w`, and a row of BR_GETB returns them all. -/
theorem bitReaderReturnsThePackedBits : Obligations.BitReaderReturnsThePackedBits := by
  unfold Obligations.BitReaderReturnsThePackedBits
  intro s w hc hin hlen hpad hw
  have hbytes := eight_mul_ceil8 w.length
  have hpad7 : padOf w.length ≤ 7 := by
    unfold padOf
    omega
  have hcount : (afterBrInit s).brValid.toNat = w.length := by
    rw [afterBrInit_brValid hc hin]
    omega
  have hbits : upcoming (afterBrInit s) w.length = w := upcoming_of_holdsBits rfl hw
  obtain ⟨u, hrun, hu⟩ := getbRun_upcoming (s := afterBrInit s) (n := w.length) rfl rfl
    ((Nat.zero_add _).trans hcount.symm) (by
      show 8 * s.arg0.toNat + (afterBrInit s).brValid.toNat ≤ 8 * s.cfg.ibufSize
      omega)
  rw [hbits] at hrun
  refine ⟨afterBrInit s, u, exec_brInit hin (by omega) (by omega) (by omega), hcount, hrun, ?_, hu⟩
  rw [hu]
  exact beq_self_eq_true (afterBrInit s).brValid
end

section
/-! ENCODE up to its two checks of size (rules R127, R128): the analysis of the input gives its table, the tree and the codes of
that table, and either check ends the command there. -/

namespace Sys2Proof.Machine

/-- After BUILD's pseudocode the one of CODEGEN ends with the codes of the table (rules R93, R95, R97). -/
theorem codegenBody_buildTree (s : State) :
    codegenBody (buildTree s) = .val () (finishCodes (codesOf s.ft) (buildTree s)) ∧
      (finishCodes (codesOf s.ft) (buildTree s)).CodeInv := by
  obtain ⟨t, ht, hC, -, -⟩ := codegenBody_of_treeInv (s := buildTree s) rfl (treeInv_buildTree s)
  obtain ⟨r, hr, -, -, -⟩ := codegenBody_of_treeInv (s := buildTree (State.reset.writeFt s.ft)) rfl (treeInv_buildTree _)
  have hct : t.ct = codesOf s.ft := by
    rw [codesOf, hr]
    exact codegenBody_ct_congr hr ht rfl rfl rfl rfl rfl
  have hfinish : t = finishCodes (codesOf s.ft) (buildTree s) := hct ▸ codegenBody_eq_finishCodes ht
  exact hfinish ▸ ⟨ht, hC⟩

/-- The state in which ENCODE makes its two checks: the context holds the table of the input, its tree and its codes (rule R127). -/
def coded (s : State) : State := finishCodes (codesOf (inputTable s)) (analyseInput s)

theorem codegenBody_analyseInput (s : State) : codegenBody (analyseInput s) = .val () (coded s) :=
  (codegenBody_buildTree ((ctxClear s).writeFt (inputTable s))).1

theorem codeInv_coded (s : State) : (coded s).CodeInv :=
  (codegenBody_buildTree ((ctxClear s).writeFt (inputTable s))).2

theorem treeInv_coded (s : State) : (coded s).TreeInv :=
  (treeInv_buildTree ((ctxClear s).writeFt (inputTable s))).congr rfl rfl rfl rfl rfl

/-- The analysis leaves both buffers alone (rule R127). -/
theorem inputBytes_coded (s : State) : (coded s).inputBytes = s.inputBytes := by
  unfold State.inputBytes State.ibufByte
  rfl

theorem obufByte_coded (s : State) (a : Nat) : (coded s).obufByte a = s.obufByte a := by
  unfold State.obufByte
  rfl

/-- ENCODE with an input that fits IBUF: the two checks, then the container (rule R127). -/
theorem encodeBody_eq {s : State} (hin : s.inLen.toNat ≤ s.cfg.ibufSize) : encodeBody s =
    if ¬ nsym (inputTable s) ≤ 255 then .raise .alphabetTooLarge (BitVec.ofNat 32 (nsym (inputTable s))) (coded s)
    else if ¬ containerSize (inputTable s) (codesOf (inputTable s)) ≤ s.cfg.obufSize then
      .raise .outputOverflow (BitVec.ofNat 32 (containerSize (inputTable s) (codesOf (inputTable s)))) (coded s)
    else encodeContainer (coded s) := by
  rw [encodeBody, if_neg (not_not.2 hin), codegenBody_analyseInput, Run.bind_val]
  rfl

/-- An error after the analysis leaves what `encodeFails` says (rules R128, R153). -/
theorem encodeFails_of_raise {s : State} {e : Err} {info : Nat}
    (h : encodeBody s = .raise e (BitVec.ofNat 32 info) (coded s)) : encodeFails s e info :=
  ⟨_, exec_of_body_raise (i := .encode) h, (treeInv_coded s).congr rfl rfl rfl rfl rfl,
    (codeInv_coded s).congr rfl rfl rfl rfl rfl, rfl⟩

end Sys2Proof.Machine
end

section
open Sys2Proof Sys2Proof.Machine

/-- Settles O55: either check raises in the state `coded`. -/
theorem encodeReportsWhatDoesNotFit : Obligations.EncodeReportsWhatDoesNotFit := by
  unfold Obligations.EncodeReportsWhatDoesNotFit
  intro s _ hin
  refine ⟨fun hall => encodeFails_of_raise ?_, fun hk hlarge => encodeFails_of_raise ?_⟩
  · rw [encodeBody_eq hin, if_pos (by omega), hall]
  · rw [encodeBody_eq hin, if_neg (not_not.2 hk), if_pos (Nat.not_le.2 hlarge)]
end

section
/-! ENCODE from its header on (rules R127, R129, R132): the header, the code bits of the input as one BitWriter session, the padding
count. -/

namespace Sys2Proof.Machine

/-! ### How many bits the payload has (rules R69, R70) -/

/-- The entries of a code table in symbol order (rule R25). -/
theorem CodeTable.toList_eq_map_at (ct : CodeTable) : ct.toList = allSyms.map ct.at := by
  refine List.ext_getElem (by simp [allSyms_length]) fun i hi _ => ?_
  have hi' : i < 256 := by simpa using hi
  simp [allSyms_getElem, CodeTable.at, Nat.mod_eq_of_lt hi']

theorem totalCodeBits_eq_weightedLength (ft : FreqTable) (ct : CodeTable) : totalCodeBits ft ct = weightedLength ft ct.at := by
  rw [totalCodeBits, weightedLength, toList_eq_map_at, CodeTable.toList_eq_map_at, List.zipWith_map, List.zipWith_self]

theorem length_codeBits (ct : CodeTable) (msg : List Byte) : (codeBits ct msg).length = (msg.map ct.len).sum :=
  List.length_flatMap

/-- The table that counts a message gives the number of its code bits. -/
theorem totalCodeBits_eq_length {ft : FreqTable} {msg : List Byte} (h : ∀ sym, (ft.at sym).toNat = msg.count sym)
    (ct : CodeTable) : totalCodeBits ft ct = (codeBits ct msg).length := by
  have hsub : msg.toFinset ⊆ allSyms.toFinset := fun sym _ => List.mem_toFinset.2 (mem_allSyms sym)
  rw [totalCodeBits_eq_weightedLength, weightedLength, ← List.sum_toFinset _ allSyms_nodup, length_codeBits,
    Finset.sum_list_map_count]
  refine (Finset.sum_congr rfl fun sym _ => congrArg (· * ct.len sym) (h sym)).trans
    (Finset.sum_subset hsub fun sym _ hmem => ?_).symm
  rw [List.count_eq_zero_of_not_mem (mt List.mem_toFinset.2 hmem), Nat.zero_mul]

/-! ### The header (rules R43, R68) -/

theorem Config.freqByteOrder_of_wellFormed {c : Config} (hc : c.wellFormed = true) : c.freqByteOrder = .big := by
  simp only [Config.wellFormed, Config.byteOrderOk, Bool.and_eq_true, beq_iff_eq] at hc
  exact hc.2

/-- Element `r` of block `j` where every block has `n` elements. -/
theorem getElem?_flatMap_of_length {α β : Type} {f : α → List β} {n : Nat} (hf : ∀ x, (f x).length = n) {l : List α}
    {j r : Nat} {x : α} (hx : l[j]? = some x) (hr : r < n) : (l.flatMap f)[n * j + r]? = (f x)[r]? := by
  induction l generalizing j with
  | nil => cases hx
  | cons y l ih =>
    rw [List.flatMap_cons]
    cases j with
    | zero =>
      obtain rfl : y = x := Option.some.inj hx
      rw [Nat.mul_zero, Nat.zero_add, List.getElem?_append_left (by rwa [hf])]
    | succ j =>
      have hskip : n * (j + 1) + r = n + (n * j + r) := by ring
      rw [List.getElem?_append_right (by rw [hf, hskip]; exact Nat.le_add_right _ _), hf, hskip, Nat.add_sub_cancel_left]
      exact ih hx

/-- The bytes of a header before its padding count. -/
def headerBytes (o : ByteOrder) (ft : FreqTable) : List Byte := BitVec.ofNat 8 (nsym ft) :: headerPairs o ft

theorem length_headerBytes (o : ByteOrder) (ft : FreqTable) : (headerBytes o ft).length = 1 + 5 * nsym ft := by
  rw [headerBytes, List.length_cons, length_headerPairs, Nat.add_comm]

theorem getElem?_headerBytes {ft : FreqTable} {j r : Nat} {e : Byte × Word} (he : (pairs ft)[j]? = some e) (hr : r < 5) :
    (headerBytes .big ft)[1 + 5 * j + r]? = (e.1 :: freqBytes .big e.2)[r]? := by
  rw [headerBytes, Nat.add_assoc, Nat.add_comm, List.getElem?_cons_succ]
  exact getElem?_flatMap_of_length (n := 5) (fun _ => rfl) he hr

/-- Bytes that begin with those of a header, the padding count after them, hold the header. -/
theorem isHeader_of_headerBytes {f : Nat → Byte} {ft : FreqTable} {pad : Nat} (hk : nsym ft ≤ 255)
    (h : ∀ a v, (headerBytes .big ft)[a]? = some v → f a = v) (hpad : (f (1 + 5 * nsym ft)).toNat = pad) : isHeader f ft pad := by
  refine ⟨?_, fun j e he => ?_, hpad⟩
  · rw [h 0 _ rfl, BitVec.toNat_ofNat]
    omega
  · have hat (r : Nat) (hr : r < 5) (v : Byte) (hv : (e.1 :: freqBytes .big e.2)[r]? = some v) : f (r + 1 + 5 * j) = v :=
      h _ v (by rw [← hv, ← getElem?_headerBytes he hr]; congr 1; omega)
    exact ⟨hat 0 (by decide) _ rfl, hat 1 (by decide) _ rfl, hat 2 (by decide) _ rfl, hat 3 (by decide) _ rfl,
      hat 4 (by decide) _ rfl⟩

theorem obufByte_of_writeBytes_zero {s t : State} {vs : List Byte} (h : t.obuf = s.obuf.writeBytes 0 vs)
    (hr : t.resets = s.resets) (a : Nat) : t.obufByte a = (vs[a]?).getD (s.obufByte a) := by
  rw [State.obufByte, State.obufByte, h, hr, Memory.lookup_writeBytes, Nat.zero_add, Nat.sub_zero]
  by_cases ha : a < vs.length <;> simp [ha]

/-! ### The payload (rules R70, R112, R126) -/

/-- Sequencing looks at its continuation only in the states the first part can end in. -/
theorem Run.bind_congr_of_all {α β : Type} {P : State → Prop} {r : Run α} {k k' : α → State → Run β} (hr : r.all P)
    (h : ∀ a s, P s → k a s = k' a s) : r.bind k = r.bind k' := by
  cases r with
  | val a s => exact h a s hr
  | raise e info s => rfl
  | fatal info s => rfl
  | stop f => rfl

/-- Writing the code of each symbol in turn is writing the code bits of the message. -/
theorem putSymbols_eq_putbits (msg : List Byte) (s : State) : putSymbols msg s = putbits (codeBits s.ct msg) s := by
  induction msg generalizing s with
  | nil => rfl
  | cons b msg ih =>
    rw [putSymbols, codeBits, List.flatMap_cons, putbits_append]
    refine Run.bind_congr_of_all (putbits_writerOnly (s.ct.at b) s) fun _ t ht => ?_
    have hct : t.ct = s.ct := by rw [ht]
    rw [ih, hct, codeBits]

/-- `u` is `s` after a whole session from `base` on, which wrote `w` and was finalised (rules R111, R112). -/
structure Written (s u : State) (base : Nat) (w : List Bool) : Prop where
  holds : holdsBits u.obufByte base w
  outLen : u.outLen.toNat = base + ceil8 w.length
  kept : ∀ a, ¬ (base ≤ a ∧ a < base + ceil8 w.length) → u.obufByte a = s.obufByte a
  only : u = { s with
    obuf := u.obuf, bwOpen := false, bwPos := u.outLen, bwAcc := 0, bwCnt := 0, res0 := u.res0, res1 := u.outLen
    outLen := u.outLen }

/-- With room, a session that has written nothing writes any bits and is finalised. -/
theorem putbits_finalise_written {s : State} {base : Nat} (w : List Bool) (hc : s.cfg.wellFormed = true)
    (h : writerHolds s base []) (hroom : 8 * base + w.length ≤ 8 * s.cfg.obufSize) :
    ∃ t u, putbits w s = .val () t ∧ finalise t = .val (padOf w.length) u ∧ Written s u base w := by
  obtain ⟨t, hput, ht⟩ := putbits_appends w hc h (by simpa using hroom)
  have hcfg := ht.cfg_eq
  obtain ⟨u, hfinal, hu⟩ := finalise_packs (hcfg ▸ hc) ht.holds (by simpa [hcfg] using hroom)
  rw [List.nil_append] at hfinal hu
  have hkept := ht.kept
  rw [List.length_nil, Nat.zero_div, Nat.add_zero, Nat.zero_add] at hkept
  have hle : w.length / 8 ≤ ceil8 w.length := by
    unfold ceil8
    omega
  refine ⟨t, u, hput, hfinal, hu.holds, hu.outLen, fun a ha => ?_, ?_⟩
  · exact (hu.kept a (by omega)).trans (hkept a (by omega))
  · have hut := hu.only
    rw [ht.only] at hut
    exact hut

theorem padOf_le (n : Nat) : padOf n ≤ 7 := by
  unfold padOf
  omega

/-! ### The container (rules R127, R129) -/

/-- ENCODE with the header in OBUF, before its first code bit (rule R127). -/
def openContainer (s : State) : State :=
  { s with
    obuf := s.obuf.writeBytes 0 (headerBytes s.cfg.freqByteOrder s.ft)
    bwPos := BitVec.ofNat 32 (1 + 5 * nsym s.ft + 1)
    bwAcc := 0
    bwCnt := 0
    bwOpen := true }

/-- The end of ENCODE's pseudocode: the padding count goes behind `k` pairs, and the results are reported (rule R127). -/
def closeContainer (k pad : Nat) (s : State) : State :=
  { s with
    obuf := s.obuf.write (1 + 5 * k) (BitVec.ofNat 8 pad)
    res0 := BitVec.ofNat 32 pad
    res1 := BitVec.ofNat 32 k }

/-- `s` with a container of `n` bytes and padding count `pad` in OBUF, which is `m` then (rule R132). -/
def afterContainer (s : State) (pad : Nat) (m : Memory) (n : Word) : State :=
  { s with
    obuf := m, bwOpen := false, bwPos := n, bwAcc := 0, bwCnt := 0, res0 := BitVec.ofNat 32 pad
    res1 := BitVec.ofNat 32 (nsym s.ft), outLen := n }

theorem State.TreeInv.afterContainer {s : State} (h : s.TreeInv) (pad : Nat) (m : Memory) (n : Word) :
    (completeNormally (afterContainer s pad m n)).TreeInv :=
  h.congr rfl rfl rfl rfl rfl

theorem State.CodeInv.afterContainer {s : State} (h : s.CodeInv) (pad : Nat) (m : Memory) (n : Word) :
    (completeNormally (afterContainer s pad m n)).CodeInv :=
  h.congr rfl rfl rfl rfl rfl

theorem encodeContainer_eq (s : State) :
    encodeContainer s = (putbits (codeBits s.ct s.inputBytes) (openContainer s)).bind fun _ t =>
      (finalise t).bind fun pad u => .val () (closeContainer (nsym s.ft) pad u) := by
  have hput : putSymbols s.inputBytes (openContainer s) = putbits (codeBits s.ct s.inputBytes) (openContainer s) :=
    putSymbols_eq_putbits s.inputBytes (openContainer s)
  rw [← hput]
  rfl

theorem obufByte_openContainer {s : State} (hc : s.cfg.wellFormed = true) (a : Nat) :
    (openContainer s).obufByte a = ((headerBytes .big s.ft)[a]?).getD (s.obufByte a) := by
  refine obufByte_of_writeBytes_zero (s := s) (t := openContainer s) ?_ rfl a
  rw [← Config.freqByteOrder_of_wellFormed hc]
  rfl

theorem obufByte_closeContainer (k pad : Nat) (s : State) (a : Nat) :
    (closeContainer k pad s).obufByte a = if a = 1 + 5 * k then BitVec.ofNat 8 pad else s.obufByte a :=
  obufByte_of_write (t := closeContainer k pad s) rfl rfl a

/-- The session of the code bits begins behind the header and has room for them. -/
theorem encodeContainer_written {s : State} (hc : s.cfg.wellFormed = true)
    (hcount : ∀ sym, (s.ft.at sym).toNat = s.inputBytes.count sym) (hfits : containerSize s.ft s.ct ≤ s.cfg.obufSize) :
    ∃ u, encodeContainer s = .val () (closeContainer (nsym s.ft) (padOf (codeBits s.ct s.inputBytes).length) u) ∧
      Written (openContainer s) u (2 + 5 * nsym s.ft) (codeBits s.ct s.inputBytes) := by
  have hk := nsym_le s.ft
  have hroom : 8 * (2 + 5 * nsym s.ft) + (codeBits s.ct s.inputBytes).length ≤ 8 * s.cfg.obufSize := by
    have hbytes := eight_mul_ceil8 (codeBits s.ct s.inputBytes).length
    rw [containerSize, totalCodeBits_eq_length hcount] at hfits
    omega
  have hempty : writerHolds (openContainer s) (2 + 5 * nsym s.ft) [] := by
    refine writerHolds_nil ?_ rfl rfl
    show (1 + 5 * nsym s.ft + 1) % 2 ^ 32 = _
    omega
  obtain ⟨t, u, hput, hfinal, hu⟩ := putbits_finalise_written (s := openContainer s) _ hc hempty hroom
  exact ⟨u, by rw [encodeContainer_eq, hput, Run.bind_val, hfinal, Run.bind_val], hu⟩

section Closed

variable {s u : State} (hu : Written (openContainer s) u (2 + 5 * nsym s.ft) (codeBits s.ct s.inputBytes))
include hu

theorem Written.closeContainer_eq : ∃ m, closeContainer (nsym s.ft) (padOf (codeBits s.ct s.inputBytes).length) u =
    afterContainer s (padOf (codeBits s.ct s.inputBytes).length) m u.outLen :=
  ⟨_, congrArg (closeContainer (nsym s.ft) (padOf (codeBits s.ct s.inputBytes).length)) hu.only⟩

/-- Header, padding count and payload do not overlap, so OBUF holds all three. -/
theorem Written.isContainer (hc : s.cfg.wellFormed = true) (hk : nsym s.ft ≤ 255) :
    isContainer (closeContainer (nsym s.ft) (padOf (codeBits s.ct s.inputBytes).length) u).obufByte u.outLen.toNat s.ft s.ct
      s.inputBytes := by
  refine ⟨isHeader_of_headerBytes hk (fun a v hv => ?_) ?_, fun j hj i hi => ?_, hu.outLen⟩
  · have ha : a < 1 + 5 * nsym s.ft := length_headerBytes .big s.ft ▸ (List.getElem?_eq_some_iff.1 hv).1
    rw [obufByte_closeContainer, if_neg (by omega), hu.kept a (by omega), obufByte_openContainer hc, hv, Option.getD_some]
  · have hpad := padOf_le (codeBits s.ct s.inputBytes).length
    rw [obufByte_closeContainer, if_pos rfl]
    exact Nat.mod_eq_of_lt (by omega)
  · rw [obufByte_closeContainer, if_neg (by omega)]
    exact hu.holds j hj i hi

/-- The container ends at `out_len`. -/
theorem Written.kept_beyond (hc : s.cfg.wellFormed = true) (pad : Nat) {a : Nat} (ha : u.outLen.toNat ≤ a) :
    (closeContainer (nsym s.ft) pad u).obufByte a = s.obufByte a := by
  have hlen := hu.outLen
  have hnone : (headerBytes .big s.ft)[a]? = none := List.getElem?_eq_none (by rw [length_headerBytes]; omega)
  rw [obufByte_closeContainer, if_neg (by omega), hu.kept a (by omega), obufByte_openContainer hc, hnone, Option.getD_none]

end Closed

/-- From a table that counts the input, ENCODE writes the container of the input and nothing behind it (rules R129, R132). -/
theorem encodeContainer_completes {s : State} {msg : List Byte} (hc : s.cfg.wellFormed = true) (hmsg : s.inputBytes = msg)
    (hcount : ∀ sym, (s.ft.at sym).toNat = msg.count sym) (hk : nsym s.ft ≤ 255)
    (hfits : containerSize s.ft s.ct ≤ s.cfg.obufSize) :
    ∃ m n, encodeContainer s = .val () (afterContainer s (padOf (codeBits s.ct msg).length) m n) ∧
      isContainer (afterContainer s (padOf (codeBits s.ct msg).length) m n).obufByte n.toNat s.ft s.ct msg ∧
      ∀ a, n.toNat ≤ a → (afterContainer s (padOf (codeBits s.ct msg).length) m n).obufByte a = s.obufByte a := by
  subst hmsg
  obtain ⟨u, hrun, hu⟩ := encodeContainer_written hc hcount hfits
  obtain ⟨m, hend⟩ := hu.closeContainer_eq
  refine ⟨m, u.outLen, ?_⟩
  rw [← hend]
  exact ⟨hrun, hu.isContainer hc hk, fun a ha => hu.kept_beyond hc _ ha⟩

end Sys2Proof.Machine
end

section
open Sys2Proof Sys2Proof.Machine

/-- Settles O54: after the analysis of the input, its container is the header and one BitWriter session of its code bits. -/
theorem encodeWritesTheContainer : Obligations.EncodeWritesTheContainer := by
  unfold Obligations.EncodeWritesTheContainer
  intro s hc hin hk hfits
  have hpad := padOf_le (codeBits (coded s).ct s.inputBytes).length
  obtain ⟨m, n, hrun, hcontainer, hkept⟩ :=
    encodeContainer_completes (s := coded s) hc (inputBytes_coded s) (toNat_inputTable_at s) hk hfits
  have hchecked : body .encode s = encodeContainer (coded s) := by
    rw [body, encodeBody_eq hin, if_neg (not_not.2 hk), if_neg (not_not.2 hfits)]
  refine ⟨_, exec_of_body_val (hchecked.trans hrun), rfl, rfl, rfl, rfl, (treeInv_coded s).afterContainer _ m n,
    (codeInv_coded s).afterContainer _ m n, hcontainer, toNat_inputTable_at s, ?_, ?_, fun a ha => ?_, ?_⟩
  · exact Nat.mod_eq_of_lt (by omega)
  · exact Nat.mod_eq_of_lt (Nat.lt_of_le_of_lt hk (by decide))
  · exact (hkept a ha).trans (obufByte_coded s a)
  · unfold completeNormally afterContainer
    rfl
end

section
/-! The tree walk (rule R135): along bits that lead to a Leaf it ends with the Leaf's symbol, and along valid bits that end before
one with CorruptStream; either way it takes the bits it went along. BR_GETSYM is a walk behind three checks, BR_GETB a bit behind
two (rules R115, R136). -/

namespace Sys2Proof.Machine

/-! ### The valid bits ahead (rules R114, R116) -/

/-- `s` with `n` more bits read. -/
def advance (n : Nat) (s : State) : State := { s with brPos := s.brPos + BitVec.ofNat 34 n }

theorem advance_zero (s : State) : advance 0 s = s := by
  simp only [advance, BitVec.add_zero]

theorem advance_advance (m n : Nat) (s : State) : advance n (advance m s) = advance (m + n) s := by
  simp only [advance, BitVec.add_assoc, BitVec.ofNat_add]

/-- The next valid bits are `bits`, and every valid bit lies in IBUF. -/
structure Ahead (s : State) (bits : List Bool) : Prop where
  valid : s.brPos.toNat + bits.length ≤ s.brValid.toNat
  inside : 8 * s.brBase.toNat + s.brValid.toNat ≤ 8 * s.cfg.ibufSize
  bits_eq : upcoming s bits.length = bits

theorem length_upcoming (s : State) (n : Nat) : (upcoming s n).length = n := by
  rw [upcoming, List.length_map, List.length_range]

theorem take_upcoming {k n : Nat} (h : k ≤ n) (s : State) : (upcoming s n).take k = upcoming s k := by
  rw [upcoming, ← List.map_take, List.take_range, Nat.min_eq_left h, upcoming]

theorem ahead_upcoming {s : State} {n : Nat} (hvalid : s.brPos.toNat + n ≤ s.brValid.toNat)
    (hinside : 8 * s.brBase.toNat + s.brValid.toNat ≤ 8 * s.cfg.ibufSize) : Ahead s (upcoming s n) where
  valid := by rwa [length_upcoming]
  inside := hinside
  bits_eq := by rw [length_upcoming]

theorem Ahead.brPos_advance {s : State} {bits : List Bool} (h : Ahead s bits) :
    (advance bits.length s).brPos.toNat = s.brPos.toNat + bits.length := by
  have hvalid := h.valid
  have hmax := s.brValid.isLt
  show (s.brPos + BitVec.ofNat 34 bits.length).toNat = _
  rw [BitVec.toNat_add, BitVec.toNat_ofNat]
  omega

/-- The next bit is the one that `getbit` returns, and the others are ahead then. -/
theorem Ahead.cons {s : State} {b : Bool} {bits : List Bool} (h : Ahead s (b :: bits)) :
    getbit s = .val b (advance 1 s) ∧ Ahead (advance 1 s) bits := by
  have hvalid := h.valid
  have hinside := h.inside
  rw [List.length_cons] at hvalid
  have hleft : s.brPos.toNat < s.brValid.toNat := by omega
  have hoffset : brOffset s < s.cfg.ibufSize := by
    unfold brOffset
    omega
  obtain ⟨hb, hbits⟩ := List.cons.inj ((upcoming_succ bits.length hleft).symm.trans h.bits_eq)
  refine ⟨(getbit_val hoffset).trans ?_, ⟨?_, hinside, hbits⟩⟩
  · rw [← hb]
    rfl
  · refine (congrArg (· + bits.length) (afterGetb_brPos hleft)).trans_le ?_
    show _ ≤ s.brValid.toNat
    omega

theorem Ahead.append {s : State} {p q : List Bool} (h : Ahead s (p ++ q)) : Ahead s p ∧ Ahead (advance p.length s) q := by
  induction p generalizing s with
  | nil =>
    rw [List.length_nil, advance_zero]
    refine ⟨⟨?_, h.inside, rfl⟩, h⟩
    exact (Nat.le_add_right _ _).trans h.valid
  | cons b p ih =>
    obtain ⟨-, hrest⟩ := h.cons
    obtain ⟨-, hq⟩ := ih hrest
    rw [advance_advance, Nat.add_comm] at hq
    refine ⟨⟨?_, h.inside, ?_⟩, hq⟩
    · have hvalid := h.valid
      rw [List.length_append] at hvalid
      omega
    · have hlen : (b :: p).length ≤ (b :: p ++ q).length := by
        rw [List.length_append]
        exact Nat.le_add_right _ _
      rw [← take_upcoming hlen, h.bits_eq, List.take_left]

/-! ### One step of the walk (rules R96, R135) -/

theorem NodeMemory.leadsTo_nil {m : NodeMemory} {n : NodeIdx} {sym : Byte} :
    m.leadsTo n [] sym = true ↔ ∃ r, m.at? n = some r ∧ r.kind = .leaf ∧ r.sym = sym := by
  rw [NodeMemory.leadsTo, NodeMemory.follow]
  cases m.at? n <;> simp

theorem NodeMemory.leadsTo_cons {m : NodeMemory} {n : NodeIdx} {b : Bool} {bs : Code} {sym : Byte} :
    m.leadsTo n (b :: bs) sym = true ↔
      ∃ r, m.at? n = some r ∧ r.kind = .internal ∧ m.leadsTo (if b then r.right else r.left) bs sym = true := by
  rw [NodeMemory.leadsTo, NodeMemory.follow]
  cases m.at? n with
  | none => simp
  | some r => cases hk : r.kind <;> simp [hk, NodeMemory.leadsTo]

/-- No path leads on from the missing child (rule R24). -/
theorem NodeMemory.ne_nil_of_leadsTo {m : NodeMemory} {n : NodeIdx} {path : Code} {sym : Byte}
    (h : m.leadsTo n path sym = true) : n ≠ NIL := by
  rintro rfl
  have hnone : m.at? NIL = none := Vector.getElem?_eq_none (by decide)
  cases path with
  | nil =>
    obtain ⟨r, hr, -⟩ := NodeMemory.leadsTo_nil.1 h
    rw [hnone] at hr
    cases hr
  | cons b bs =>
    obtain ⟨r, hr, -⟩ := NodeMemory.leadsTo_cons.1 h
    rw [hnone] at hr
    cases hr

section Step

variable {s : State} {n : NodeIdx} {r : NodeRec} (info : Word) (hr : s.node.at? n = some r)
include hr

theorem walkFrom_leaf (fuel : Nat) (hk : r.kind = .leaf) : walkFrom info fuel n s = .val r.sym s := by
  cases fuel <;> rw [walkFrom, hr] <;> simp only [hk]

theorem walkFrom_noBit (hk : r.kind = .internal) : walkFrom info 0 n s = .raise .corruptStream info s := by
  rw [walkFrom, hr]
  simp only [hk]

/-- The walk goes from an Internal node along the next bit to a child that is there. -/
theorem walkFrom_bit {fuel : Nat} {b : Bool} {bits : List Bool} (hk : r.kind = .internal) (h : Ahead s (b :: bits))
    (hchild : (if b then r.right else r.left) ≠ NIL) :
    walkFrom info (fuel + 1) n s = walkFrom info fuel (if b then r.right else r.left) (advance 1 s) := by
  rw [walkFrom, hr]
  simp only [hk, h.cons.1, Run.bind_val, if_neg hchild]

end Step

/-! ### The walk to a Leaf and the walk that ends before one (rules R135, R142) -/

/-- Along the path to a Leaf the walk ends with the Leaf's symbol. -/
theorem walkFrom_leadsTo (info : Word) {s : State} {n : NodeIdx} {path : Code} {sym : Byte} {fuel : Nat} (h : Ahead s path)
    (hpath : s.node.leadsTo n path sym = true) (hfuel : path.length ≤ fuel) :
    walkFrom info fuel n s = .val sym (advance path.length s) := by
  induction path generalizing s n fuel with
  | nil =>
    obtain ⟨r, hr, hk, rfl⟩ := NodeMemory.leadsTo_nil.1 hpath
    rw [List.length_nil, advance_zero, walkFrom_leaf info hr fuel hk]
  | cons b bs ih =>
    obtain ⟨r, hr, hk, hrest⟩ := NodeMemory.leadsTo_cons.1 hpath
    obtain ⟨fuel, rfl⟩ := Nat.exists_eq_add_one.2 (Nat.zero_lt_of_lt hfuel)
    rw [walkFrom_bit info hr hk h (NodeMemory.ne_nil_of_leadsTo hrest),
      ih h.cons.2 hrest (Nat.le_of_succ_le_succ hfuel), advance_advance, Nat.add_comm]
    rfl

/-- A node of the tree that is no Leaf is Internal (rule R22). -/
theorem State.inTree.kind_of_noLeaf {s : State} {n : NodeIdx} (hn : s.inTree n) (h : s.node.leadsToLeaf n [] = false) :
    (s.recAt n.toNat).kind = .internal := by
  rw [NodeMemory.leadsToLeaf, NodeMemory.follow, hn.at?_eq] at h
  cases hk : (s.recAt n.toNat).kind with
  | leaf => simp [hk] at h
  | internal => rfl

theorem State.inTree.leadsToLeaf_cons {s : State} {n : NodeIdx} (hn : s.inTree n)
    (hk : (s.recAt n.toNat).kind = .internal) (b : Bool) (bs : Code) :
    s.node.leadsToLeaf n (b :: bs) = s.node.leadsToLeaf (s.child n.toNat b) bs := by
  rw [NodeMemory.leadsToLeaf, NodeMemory.follow, hn.at?_eq]
  simp only [hk]
  rfl

/-- In a valid tree the walk along bits that reach no Leaf takes them all and raises CorruptStream. -/
theorem walkFrom_runsOut (info : Word) {s : State} {n : NodeIdx} {bits : List Bool} (hT : s.TreeInv) (hn : s.inTree n)
    (h : Ahead s bits) (hno : ∀ k, k ≤ bits.length → s.node.leadsToLeaf n (bits.take k) = false) :
    walkFrom info bits.length n s = .raise .corruptStream info (advance bits.length s) := by
  induction bits generalizing s n with
  | nil => rw [List.length_nil, advance_zero, walkFrom_noBit info hn.at?_eq (hn.kind_of_noLeaf (hno 0 (Nat.zero_le _)))]
  | cons b bs ih =>
    have hk := hn.kind_of_noLeaf (hno 0 (Nat.zero_le _))
    have hlo : nsym s.ft ≤ n.toNat := by
      by_contra hlt
      rw [hT.leaf_kind (Nat.lt_of_not_le hlt)] at hk
      cases hk
    have hchild := hT.child_inTree hn hlo b
    have hwalk := ih (s := advance 1 s) (hT.congr rfl rfl rfl rfl rfl) hchild h.cons.2 fun k hkl => by
      rw [← hno (k + 1) (Nat.succ_le_succ hkl), List.take_succ_cons, hn.leadsToLeaf_cons hk]
      rfl
    rw [advance_advance, Nat.add_comm] at hwalk
    exact (walkFrom_bit info hn.at?_eq hk h hchild.ne_nil).trans hwalk

theorem Ahead.length_le_bitsLeft {s : State} {bits : List Bool} (h : Ahead s bits) : bits.length ≤ bitsLeft s := by
  have hvalid := h.valid
  unfold bitsLeft
  bv_omega

theorem walk_leadsTo (info : Word) {s : State} {path : Code} {sym : Byte} (h : Ahead s path)
    (hpath : s.node.leadsTo s.root path sym = true) : walk info s = .val sym (advance path.length s) :=
  walkFrom_leadsTo info h hpath h.length_le_bitsLeft

/-- The walk along all the valid bits that are left. -/
theorem walk_runsOut (info : Word) {s : State} {bits : List Bool} (hT : s.TreeInv) (hpos : 0 < nsym s.ft) (h : Ahead s bits)
    (hall : s.brPos.toNat + bits.length = s.brValid.toNat)
    (hno : ∀ k, k ≤ bits.length → s.node.leadsToLeaf s.root (bits.take k) = false) :
    walk info s = .raise .corruptStream info { s with brPos := s.brValid } := by
  have hleft : bitsLeft s = bits.length := by
    unfold bitsLeft
    bv_omega
  have hend : advance bits.length s = { s with brPos := s.brValid } :=
    congrArg (fun p : BitCount => { s with brPos := p }) (BitVec.eq_of_toNat_eq (h.brPos_advance.trans hall))
  rw [walk, hleft, walkFrom_runsOut info hT (hT.root_inTree hpos) h hno, hend]

/-! ### BR_GETB and BR_GETSYM (rules R115, R135, R136) -/

/-- Without a session both commands refuse before anything else. -/
theorem body_of_closedReader {i : Instr} {s : State} (hi : i ∈ [Instr.brGetb, .brGetsym]) (h : s.brOpen = false) :
    body i s = .raise .badSequence (encode i) s := by
  simp only [List.mem_cons, List.not_mem_nil, or_false] at hi
  obtain rfl | rfl := hi
  all_goals exact if_pos h

theorem isWholeOperation_of_reader {i : Instr} (hi : i ∈ [Instr.brGetb, .brGetsym]) : isWholeOperation i = false := by
  revert hi
  cases i <;> decide

theorem brGetbBody_noBit {s : State} (hopen : s.brOpen = true) (h : s.brValid.toNat ≤ s.brPos.toNat) :
    brGetbBody s = .raise .endOfStream (s.brPos.setWidth 32) s := by
  rw [brGetbBody, if_neg (by rw [hopen]; decide), if_pos (Nat.not_lt.2 h)]

/-- Without a tree to walk in BR_GETSYM refuses (rule R136). -/
theorem brGetsymBody_noTree {s : State} (hopen : s.brOpen = true) (h : s.treeValid = false ∨ s.treeKind ≠ .multi) :
    brGetsymBody s = .raise .badSequence 0x32 s := by
  rw [brGetsymBody, if_neg (by rw [hopen]; decide)]
  by_cases hv : s.treeValid = false
  · rw [if_pos hv]
  · rw [if_neg hv, if_pos (h.resolve_left hv)]

/-- Past its checks BR_GETSYM walks, and reports the symbol and the number of bits it took (rule R135). -/
theorem brGetsymBody_walks {s : State} (hopen : s.brOpen = true) (hv : s.treeValid = true) (hmulti : s.treeKind = .multi) :
    brGetsymBody s = (walk (s.brPos.setWidth 32) s).bind fun sym t =>
      .val () { t with res0 := sym.setWidth 32, res1 := (t.brPos - s.brPos).setWidth 32 } := by
  rw [brGetsymBody, if_neg (by rw [hopen]; decide), if_neg (by rw [hv]; decide), if_neg (not_not.2 hmulti)]

end Sys2Proof.Machine
end

section
open Sys2Proof Sys2Proof.Machine

/-- Settles O50: each refusal is a raise of the command's pseudocode in the state it began in. -/
theorem bitReaderRefusals : Obligations.BitReaderRefusals := by
  unfold Obligations.BitReaderRefusals
  intro s
  refine ⟨fun hclosed i hi => ?_, fun hopen hnone => ?_, fun hopen htree => ?_⟩
  · rw [exec_of_body_raise (body_of_closedReader hi hclosed), isWholeOperation_of_reader hi]
    rfl
  · exact exec_of_body_raise (i := .brGetb) (brGetbBody_noBit hopen hnone)
  · exact exec_of_body_raise (i := .brGetsym) (brGetsymBody_noTree hopen htree)

/-- Settles O52: past the checks the walk takes the path, and the position has moved by its length. -/
theorem brGetsymWalksToTheLeaf : Obligations.BrGetsymWalksToTheLeaf := by
  unfold Obligations.BrGetsymWalksToTheLeaf
  intro s path sym _ hopen hv hmulti hinside hvalid hbits hpath
  have hahead : Ahead s path := ⟨hvalid, hinside, hbits⟩
  have hmoved : ((advance path.length s).brPos - s.brPos).setWidth 32 = BitVec.ofNat 32 path.length := by
    have hpos := hahead.brPos_advance
    have hmax := s.brValid.isLt
    bv_omega
  have hbody : body .brGetsym s = .val () { advance path.length s with
      res0 := sym.setWidth 32, res1 := BitVec.ofNat 32 path.length } := by
    rw [body, brGetsymBody_walks hopen hv hmulti, walk_leadsTo _ hahead hpath, Run.bind_val, hmoved]
  exact ⟨_, exec_of_body_val hbody, hahead.brPos_advance, rfl⟩

/-- Settles O53: the bits that are left are those the walk takes before it raises. -/
theorem brGetsymReportsAnUnfinishedCode : Obligations.BrGetsymReportsAnUnfinishedCode := by
  unfold Obligations.BrGetsymReportsAnUnfinishedCode
  intro s h hopen hv hmulti hno
  have hT := h.treeOk hv
  have hk := hT.nsym_of_multi hmulti
  obtain ⟨n, hall⟩ := Nat.exists_eq_add_of_le h.brPosOk
  have hwalk := walk_runsOut (s.brPos.setWidth 32) hT (by omega) (ahead_upcoming hall.ge h.brValidOk)
    (by rw [length_upcoming, hall]) fun k hle => by
      rw [length_upcoming] at hle
      rw [take_upcoming hle]
      exact hno k (by omega)
  have hbody : body .brGetsym s = .raise .corruptStream (s.brPos.setWidth 32) { s with brPos := s.brValid } := by
    rw [body, brGetsymBody_walks hopen hv hmulti, hwalk, Run.bind_raise]
  exact exec_of_body_raise hbody
end

section
/-! DECODE up to its walk (rules R137 to R140, R146): the header's pairs fill the table they list, and the checks of rule R146 end
the command one after the other. -/

namespace Sys2Proof.Machine

/-! ### The table of a list of pairs (rule R21) -/

/-- The table with the given entries, written in turn. -/
def tableOf (es : List (Byte × Word)) : FreqTable := es.foldl (fun ft e => ft.put e.1 e.2) FreqTable.empty

/-- The symbols ascend (rule R68). -/
def symsAscend (es : List (Byte × Word)) : Prop := es.Pairwise fun a b => a.1.toNat < b.1.toNat

theorem tableOf_append_singleton (es : List (Byte × Word)) (e : Byte × Word) :
    tableOf (es ++ [e]) = (tableOf es).put e.1 e.2 := List.foldl_concat _ _ _ _

theorem at_tableOf_of_notMem {es : List (Byte × Word)} {sym : Byte} (h : ∀ e ∈ es, e.1 ≠ sym) : (tableOf es).at sym = 0 := by
  induction es using List.reverseRecOn with
  | nil => exact FreqTable.at_empty sym
  | append_singleton es e ih =>
    rw [tableOf_append_singleton, FreqTable.at_put, if_neg (h e (by simp)).symm]
    exact ih fun x hx => h x (List.mem_append_left _ hx)

theorem at_tableOf_of_mem {es : List (Byte × Word)} (hes : symsAscend es) {e : Byte × Word} (h : e ∈ es) :
    (tableOf es).at e.1 = e.2 := by
  induction es using List.reverseRecOn with
  | nil => cases h
  | append_singleton es x ih =>
    obtain ⟨hinit, -, hlast⟩ := List.pairwise_append.1 hes
    rw [tableOf_append_singleton, FreqTable.at_put]
    rcases List.mem_append.1 h with hmem | hmem
    · have hlt : e.1.toNat < x.1.toNat := hlast e hmem x (List.mem_singleton_self x)
      rw [if_neg fun heq => Nat.ne_of_lt hlt (congrArg BitVec.toNat heq)]
      exact ih hinit hmem
    · rw [List.mem_singleton.1 hmem, if_pos rfl]

/-- A table is the table of its pairs. -/
theorem tableOf_pairs (ft : FreqTable) : tableOf (pairs ft) = ft := by
  refine FreqTable.ext_at fun sym => ?_
  by_cases h : ft.at sym = 0
  · rw [h]
    refine at_tableOf_of_notMem fun e he heq => ?_
    obtain ⟨hat, hne⟩ := (mem_pairs ft e.1 e.2).1 he
    exact hne (hat.symm.trans (heq ▸ h))
  · exact at_tableOf_of_mem (pairs_ascending ft) ((mem_pairs ft sym _).2 ⟨rfl, h⟩)

theorem symsAscend.nodup {es : List (Byte × Word)} (h : symsAscend es) : es.Nodup :=
  List.Pairwise.imp (S := (· ≠ ·)) (fun hlt heq => Nat.ne_of_lt hlt (congrArg (fun e => e.1.toNat) heq)) h

/-- Ascending entries that are not 0 are the pairs of their table. -/
theorem pairs_tableOf {es : List (Byte × Word)} (hes : symsAscend es) (hne : ∀ e ∈ es, e.2 ≠ 0) :
    pairs (tableOf es) = es := by
  have hasc : symsAscend (pairs (tableOf es)) := pairs_ascending _
  have hmem (e : Byte × Word) : e ∈ pairs (tableOf es) ↔ e ∈ es := by
    refine (mem_pairs _ e.1 e.2).trans ⟨fun ⟨hat, h0⟩ => ?_, fun he => ⟨at_tableOf_of_mem hes he, hne e he⟩⟩
    by_contra hout
    refine h0 (hat.symm.trans (at_tableOf_of_notMem fun x hx heq => hout ?_))
    have hx2 : x.2 = e.2 := (at_tableOf_of_mem hes hx).symm.trans (heq ▸ hat)
    exact (Prod.ext heq hx2 : x = e) ▸ hx
  refine ((List.perm_ext_iff_of_nodup hasc.nodup hes.nodup).2 hmem).eq_of_pairwise ?_ hasc hes
  exact fun a b _ _ hab hba => absurd hab (Nat.lt_asymm hba)

/-! ### The entries of a header (rules R43, R68) -/

/-- Entry `j` of the header in `f`. -/
def headerEntry (f : Nat → Byte) (j : Nat) : Byte × Word :=
  (f (1 + 5 * j), freqOfBytes .big (f (2 + 5 * j)) (f (3 + 5 * j)) (f (4 + 5 * j)) (f (5 + 5 * j)))

/-- The first `n` entries of the header in `f`. -/
def headerEntries (f : Nat → Byte) (n : Nat) : List (Byte × Word) := (List.range n).map (headerEntry f)

/-- Appending a byte moves the number up by 8 bits. -/
theorem toNat_append_byte {n : Nat} (x : BitVec n) (b : Byte) : (x ++ b).toNat = x.toNat * 2 ^ 8 + b.toNat := by
  rw [BitVec.toNat_append, ← Nat.shiftLeft_add_eq_or_of_lt b.isLt, Nat.shiftLeft_eq]

theorem toNat_freqOfBytes_big (b0 b1 b2 b3 : Byte) :
    (freqOfBytes .big b0 b1 b2 b3).toNat = b0.toNat * 2 ^ 24 + b1.toNat * 2 ^ 16 + b2.toNat * 2 ^ 8 + b3.toNat := by
  show (b0 ++ b1 ++ b2 ++ b3).toNat = _
  rw [toNat_append_byte, toNat_append_byte, toNat_append_byte]
  ring

/-- The four bytes of a count give it back (rule R43). -/
theorem freqOfBytes_extract (w : Word) :
    freqOfBytes .big (w.extractLsb' 24 8) (w.extractLsb' 16 8) (w.extractLsb' 8 8) (w.extractLsb' 0 8) = w := by
  have hw := w.isLt
  apply BitVec.eq_of_toNat_eq
  simp only [toNat_freqOfBytes_big, BitVec.extractLsb'_toNat, Nat.shiftRight_eq_div_pow]
  omega

theorem toNat_headerEntry (s : State) (j : Nat) : (headerEntry s.ibufByte j).2.toNat = pairFreq s j :=
  toNat_freqOfBytes_big _ _ _ _

theorem headerEntry_eq_zero_iff {s : State} {j : Nat} : (headerEntry s.ibufByte j).2 = 0 ↔ pairFreq s j = 0 := by
  rw [← toNat_headerEntry, ← BitVec.toNat_inj]
  rfl

theorem headerEntries_succ (f : Nat → Byte) (n : Nat) : headerEntries f (n + 1) = headerEntries f n ++ [headerEntry f n] := by
  rw [headerEntries, List.range_succ, List.map_append, List.map_singleton, headerEntries]

/-- The symbols of pairs that pass their check ascend. -/
theorem symsAscend_headerEntries {s : State} {n : Nat} (h : ∀ j, j < n → pairOk s j) :
    symsAscend (headerEntries s.ibufByte n) := by
  have hlt {i j : Nat} (hij : i < j) (hj : j < n) : pairSym s i < pairSym s j := by
    induction j with
    | zero => exact absurd hij (Nat.not_lt_zero i)
    | succ j ih =>
      obtain ⟨hasc, -⟩ := h (j + 1) hj
      have hstep : pairSym s j < pairSym s (j + 1) := hasc.resolve_left (Nat.succ_ne_zero j)
      rcases Nat.lt_succ_iff_lt_or_eq.1 hij with hij | rfl
      · exact (ih hij (Nat.lt_of_succ_lt hj)).trans hstep
      · exact hstep
  refine List.pairwise_map.2 (List.pairwise_lt_range.imp_of_mem fun _ hj hij => ?_)
  exact hlt hij (List.mem_range.1 hj)

/-- The table the header lists. -/
def headerTable (s : State) : FreqTable := tableOf (headerEntries s.ibufByte (s.ibufByte 0).toNat)

/-- The total of the table is the sum of the header's frequencies (rule R138). -/
theorem total_headerTable {s : State} (h : pairsOk s) : total (headerTable s) = headerTotal s := by
  obtain ⟨-, -, -, hpairs⟩ := h
  have hne : ∀ e ∈ headerEntries s.ibufByte (s.ibufByte 0).toNat, e.2 ≠ 0 := by
    intro e he
    obtain ⟨j, hj, rfl⟩ := List.mem_map.1 he
    exact mt headerEntry_eq_zero_iff.1 (hpairs j (List.mem_range.1 hj)).2
  rw [← sum_pairs, headerTable, pairs_tableOf (symsAscend_headerEntries hpairs) hne, headerEntries, List.map_map, headerTotal]
  exact congrArg List.sum (List.map_congr_left fun j _ => toNat_headerEntry s j)

/-! ### Reading the header (rules R137, R146 rows 1 to 4) -/

/-- The symbol of the pair before pair `j` of the header in `f`, if there is one. -/
def symBefore (f : Nat → Byte) : Nat → Option Byte
  | 0 => none
  | j + 1 => some (headerEntry f j).1

theorem ascends_symBefore {s : State} {j : Nat} :
    ascends (symBefore s.ibufByte j) (headerEntry s.ibufByte j).1 = true ↔ j = 0 ∨ pairSym s (j - 1) < pairSym s j := by
  cases j with
  | zero => exact iff_of_true rfl (.inl rfl)
  | succ j => exact decide_eq_true_iff.trans (or_iff_right (Nat.succ_ne_zero j)).symm

/-- DECODE when it has read N and `j` pairs: the context cleared but for RES1 and the entries so far (rule R137). -/
def afterPairs (s : State) (j : Nat) : State :=
  { ctxClear s with
    ft := tableOf (headerEntries s.ibufByte j)
    res1 := BitVec.ofNat 32 (s.ibufByte 0).toNat }

section Header

variable {s : State} (hc : s.cfg.wellFormed = true)
include hc

/-- The two checks of a pair, and its entry. -/
theorem readPairs_afterPairs (todo j : Nat) : readPairs (todo + 1) j (symBefore s.ibufByte j) (afterPairs s j) =
    if ¬ (ascends (symBefore s.ibufByte j) (headerEntry s.ibufByte j).1 = true) then
      .raise .corruptHeader (BitVec.ofNat 32 (1 + 5 * j)) (afterPairs s j)
    else if ¬ (headerEntry s.ibufByte j).2 ≠ 0 then .raise .corruptHeader (BitVec.ofNat 32 (2 + 5 * j)) (afterPairs s j)
    else readPairs todo (j + 1) (symBefore s.ibufByte (j + 1)) (afterPairs s (j + 1)) := by
  have horder : (afterPairs s j).cfg.freqByteOrder = .big := Config.freqByteOrder_of_wellFormed hc
  have hnext : afterPairs s (j + 1) =
      (afterPairs s j).writeFt ((afterPairs s j).ft.put (headerEntry s.ibufByte j).1 (headerEntry s.ibufByte j).2) := by
    rw [afterPairs, headerEntries_succ, tableOf_append_singleton]
    rfl
  rw [hnext, readPairs, horder]
  rfl

/-- Pairs that pass their checks are read one after the other. -/
theorem readPairs_passing (todo : Nat) {j : Nat} (h : ∀ i, i < j → pairOk s i) :
    readPairs (j + todo) 0 none (afterPairs s 0) = readPairs todo j (symBefore s.ibufByte j) (afterPairs s j) := by
  induction j generalizing todo with
  | zero => rw [Nat.zero_add]; rfl
  | succ j ih =>
    obtain ⟨hasc, hne⟩ := h j (Nat.lt_succ_self j)
    rw [Nat.add_right_comm, Nat.add_assoc, ih (todo + 1) fun i hi => h i (Nat.lt_succ_of_lt hi), readPairs_afterPairs hc,
      if_neg (not_not.2 (ascends_symBefore.2 hasc)), if_neg (not_not.2 (mt headerEntry_eq_zero_iff.1 hne))]

omit hc in
/-- DECODE with a header that fits the input (rule R146 rows 1 to 3). -/
theorem decodeBody_eq_readPairs (hin : s.inLen.toNat ≤ s.cfg.ibufSize) (hpos : 1 ≤ s.inLen.toNat)
    (hhead : 2 + 5 * (s.ibufByte 0).toNat ≤ s.inLen.toNat) : decodeBody s =
      (readPairs (s.ibufByte 0).toNat 0 none (afterPairs s 0)).bind (decodePayload (s.ibufByte 0).toNat) := by
  rw [decodeBody, if_neg (not_not.2 hin)]
  exact (if_neg (not_not.2 hpos)).trans (if_neg (not_not.2 hhead))

/-- The state in which DECODE makes the checks of rule R146 rows 6 to 9: the header read. -/
def afterHeader (s : State) : State :=
  { ctxClear s with
    ft := headerTable s
    res0 := BitVec.ofNat 32 (headerPad s)
    res1 := BitVec.ofNat 32 (s.ibufByte 0).toNat }

/-- DECODE with a header whose pairs pass: the checks of rule R146 rows 5 to 9, and the three cases on N (rule R137). -/
theorem decodeBody_eq (h : pairsOk s) : decodeBody s =
    if ¬ headerTotal s < 2 ^ 32 then
      .raise .corruptHeader (BitVec.ofNat 32 (1 + 5 * (s.ibufByte 0).toNat)) (afterPairs s (s.ibufByte 0).toNat)
    else if ¬ headerPad s ≤ 7 then
      .raise .corruptStream (BitVec.ofNat 32 (1 + 5 * (s.ibufByte 0).toNat)) (afterHeader s)
    else if ¬ ((s.ibufByte 0).toNat = 0 ↔ payloadLen s = 0) then
      .raise .emptyAlphabetMismatch (BitVec.ofNat 32 (payloadLen s)) (afterHeader s)
    else if (s.ibufByte 0).toNat = 0 ∧ headerPad s ≠ 0 then .raise .corruptStream 1 (afterHeader s)
    else if ¬ headerTotal s ≤ s.cfg.obufSize then
      .raise .outputOverflow (BitVec.ofNat 32 (headerTotal s)) (afterHeader s)
    else if (s.ibufByte 0).toNat = 0 then .val () { afterHeader s with outLen := 0 }
    else if (s.ibufByte 0).toNat = 1 then
      .val () { afterHeader s with
        obuf := s.obuf.writeBytes 0
          (List.replicate (headerTotal s) ((symBefore s.ibufByte (s.ibufByte 0).toNat).getD 0))
        outLen := BitVec.ofNat 32 (headerTotal s) }
    else decodeWalk (s.ibufByte 0).toNat (headerPad s) (payloadLen s) (headerTotal s) (afterHeader s) := by
  have htotal := total_headerTable h
  obtain ⟨hin, hpos, hhead, hpairs⟩ := h
  have hread := readPairs_passing hc 0 hpairs
  rw [Nat.add_zero] at hread
  rw [decodeBody_eq_readPairs hin hpos hhead, hread, readPairs, Run.bind_val, decodePayload, ← htotal]
  rfl

/-- DECODE reads a pair where all pairs before it pass. -/
theorem decodeBody_at_pair (hin : s.inLen.toNat ≤ s.cfg.ibufSize) (hpos : 1 ≤ s.inLen.toNat)
    (hhead : 2 + 5 * (s.ibufByte 0).toNat ≤ s.inLen.toNat) {j : Nat} (hj : j < (s.ibufByte 0).toNat)
    (h : ∀ i, i < j → pairOk s i) : ∃ todo, decodeBody s =
      (readPairs (todo + 1) j (symBefore s.ibufByte j) (afterPairs s j)).bind (decodePayload (s.ibufByte 0).toNat) := by
  obtain ⟨todo, htodo⟩ := Nat.exists_eq_add_of_lt hj
  refine ⟨todo, ?_⟩
  rw [decodeBody_eq_readPairs hin hpos hhead, ← readPairs_passing hc (todo + 1) h, ← Nat.add_assoc, ← htodo]

end Header

/-! ### The first failing check (rules R143, R146, R153) -/

/-- An error of DECODE before its walk leaves no output and OBUF as it was. -/
theorem decodeFails_of_raise {s t : State} {e : Err} {info : Nat} (h : decodeBody s = .raise e (BitVec.ofNat 32 info) t)
    (hobuf : t.obufByte = s.obufByte) : decodeFails s e info :=
  ⟨_, exec_of_body_raise (i := .decode) h, rfl, rfl, rfl, rfl, rfl, rfl, congrFun hobuf⟩

theorem obufByte_afterPairs (s : State) (j : Nat) : (afterPairs s j).obufByte = s.obufByte := rfl

theorem obufByte_afterHeader (s : State) : (afterHeader s).obufByte = s.obufByte := rfl

theorem inLen_eq_ofNat (s : State) : s.inLen = BitVec.ofNat 32 s.inLen.toNat := by
  rw [BitVec.ofNat_toNat, BitVec.setWidth_eq]

theorem decodeBody_tooLong {s : State} (h : s.cfg.ibufSize < s.inLen.toNat) :
    decodeBody s = .raise .badArgument (BitVec.ofNat 32 s.inLen.toNat) s := by
  rw [← inLen_eq_ofNat]
  exact body_of_longInput (i := .decode) (by decide) h

theorem decodeBody_empty {s : State} (hin : s.inLen.toNat ≤ s.cfg.ibufSize) (h : s.inLen = 0) :
    decodeBody s = .raise .corruptHeader (BitVec.ofNat 32 0) (ctxClear s) := by
  have hpos : ¬ 1 ≤ (ctxClear s).inLen.toNat := by
    rw [ctxClear_inLen, h]
    decide
  rw [decodeBody, if_neg (not_not.2 hin)]
  exact (if_pos hpos).trans (by rw [ctxClear_inLen, h]; rfl)

theorem decodeBody_shortHeader {s : State} (hin : s.inLen.toNat ≤ s.cfg.ibufSize) (hpos : 1 ≤ s.inLen.toNat)
    (h : s.inLen.toNat < 2 + 5 * (s.ibufByte 0).toNat) :
    decodeBody s = .raise .corruptHeader (BitVec.ofNat 32 s.inLen.toNat) (afterPairs s 0) := by
  rw [← inLen_eq_ofNat, decodeBody, if_neg (not_not.2 hin)]
  exact (if_neg (not_not.2 hpos)).trans (if_pos (Nat.not_le.2 h))

theorem toNat_eq_zero_iff {b : Byte} : b.toNat = 0 ↔ b = 0 := by
  rw [← BitVec.toNat_inj]
  rfl

theorem headerTotal_eq_zero {s : State} (h : s.ibufByte 0 = 0) : headerTotal s = 0 := by
  rw [headerTotal, h]
  rfl

/-! ### A normal end with output (rules R145, R152) -/

/-- `s` with `bytes` as the output (rule R137). -/
def withOutput (bytes : List Byte) (s : State) : State :=
  { s with obuf := s.obuf.writeBytes 0 bytes, outLen := BitVec.ofNat 32 bytes.length }

/-- A normal end of DECODE with output: OBUF holds it, and nothing else changes on completion. -/
theorem exec_decode_withOutput {s u : State} {bytes : List Byte} (h : decodeBody s = .val () (withOutput bytes u))
    (hu : u.obufByte = s.obufByte) (hlen : bytes.length < 2 ^ 32) :
    ∃ t, exec .decode s = .next t ∧ t.outLen.toNat = bytes.length ∧
      (∀ a, t.obufByte a = (bytes[a]?).getD (s.obufByte a)) ∧
      t = { u with busy := false, done := true, obuf := t.obuf, outLen := t.outLen } := by
  refine ⟨_, exec_of_body_val (i := .decode) h, Nat.mod_eq_of_lt hlen, fun a => ?_, rfl⟩
  rw [← hu]
  exact obufByte_of_writeBytes_zero (s := u) (t := completeNormally (withOutput bytes u)) rfl rfl a

/-! ### No entry and one entry (rules R139, R140) -/

theorem headerTable_noEntry {s : State} (h : s.ibufByte 0 = 0) : headerTable s = FreqTable.empty := by
  rw [headerTable, h]
  rfl

theorem decodeBody_noEntry {s : State} (hc : s.cfg.wellFormed = true) (hpairs : pairsOk s) (h : s.ibufByte 0 = 0)
    (hlen : payloadLen s = 0) (hpad : headerPad s = 0) : decodeBody s = .val () { afterHeader s with outLen := 0 } := by
  have hcount := toNat_eq_zero_iff.2 h
  rw [decodeBody_eq hc hpairs, headerTotal_eq_zero h, hpad, if_neg (by decide), if_neg (by decide),
    if_neg (not_not.2 (iff_of_true hcount hlen)), if_neg (fun h => h.2 rfl), if_neg (not_not.2 (Nat.zero_le _)), if_pos hcount]

theorem pairFreq_lt (s : State) (j : Nat) : pairFreq s j < 2 ^ 32 := toNat_headerEntry s j ▸ BitVec.isLt _

theorem headerTable_oneEntry {s : State} (h : (s.ibufByte 0).toNat = 1) (sym : Byte) :
    ((headerTable s).at sym).toNat = if sym = s.ibufByte 1 then pairFreq s 0 else 0 := by
  have htable : headerTable s = FreqTable.empty.put (s.ibufByte 1) (headerEntry s.ibufByte 0).2 := by
    rw [headerTable, h]
    rfl
  rw [htable, FreqTable.at_put, FreqTable.at_empty, apply_ite BitVec.toNat, toNat_headerEntry]
  rfl

theorem headerTotal_oneEntry {s : State} (h : (s.ibufByte 0).toNat = 1) : headerTotal s = pairFreq s 0 := by
  rw [headerTotal, h]
  exact Nat.add_zero _

/-- The output is the entry's symbol as often as the entry says (rule R140). -/
theorem decodeBody_oneEntry {s : State} (hc : s.cfg.wellFormed = true) (hpairs : pairsOk s) (h : (s.ibufByte 0).toNat = 1)
    (hpad : headerPad s ≤ 7) (hlen : payloadLen s ≠ 0) (hfits : pairFreq s 0 ≤ s.cfg.obufSize) :
    decodeBody s = .val () (withOutput (List.replicate (pairFreq s 0) (s.ibufByte 1)) (afterHeader s)) := by
  rw [decodeBody_eq hc hpairs, headerTotal_oneEntry h, if_neg (not_not.2 (pairFreq_lt s 0)), if_neg (not_not.2 hpad), h,
    if_neg (not_not.2 (iff_of_false Nat.one_ne_zero hlen)), if_neg (fun h => Nat.one_ne_zero h.1),
    if_neg (not_not.2 hfits), if_neg Nat.one_ne_zero, if_pos rfl, withOutput, List.length_replicate]
  rfl

end Sys2Proof.Machine
end

section
open Sys2Proof Sys2Proof.Machine

/-- Settles O56: rows 1 to 3 before the pairs, row 4 at its pair, the other rows in the chain of `decodeBody_eq`. -/
theorem decodeReportsTheFirstFailingCheck : Obligations.DecodeReportsTheFirstFailingCheck := by
  unfold Obligations.DecodeReportsTheFirstFailingCheck
  intro s hc
  refine ⟨fun hlong => ?_, fun hempty => ?_, fun hin hpos hshort => ?_, fun j hin hpos hhead hj hpass => ⟨fun hj0 hsym => ?_,
    fun hsym hfreq => ?_⟩, fun hpairs htotal => ?_, fun hpairs htotal hpad => ?_, fun hpairs htotal hpad hmismatch => ?_,
    fun hpairs hpad hnone hlen hpad0 => ?_, fun hpairs htotal hpad hsome hlen hover => ?_⟩
  · exact decodeFails_of_raise (decodeBody_tooLong hlong) rfl
  · exact decodeFails_of_raise (decodeBody_empty (by rw [hempty]; exact Nat.zero_le _) hempty) rfl
  · exact decodeFails_of_raise (decodeBody_shortHeader hin hpos hshort) (obufByte_afterPairs s 0)
  · obtain ⟨todo, hread⟩ := decodeBody_at_pair hc hin hpos hhead hj hpass
    have hasc : ¬ (j = 0 ∨ pairSym s (j - 1) < pairSym s j) := not_or.2 ⟨hj0, Nat.not_lt.2 hsym⟩
    rw [readPairs_afterPairs hc, if_pos (mt ascends_symBefore.1 hasc)] at hread
    exact decodeFails_of_raise hread (obufByte_afterPairs s j)
  · obtain ⟨todo, hread⟩ := decodeBody_at_pair hc hin hpos hhead hj hpass
    rw [readPairs_afterPairs hc, if_neg (not_not.2 (ascends_symBefore.2 hsym)),
      if_pos (not_not.2 (headerEntry_eq_zero_iff.2 hfreq))] at hread
    exact decodeFails_of_raise hread (obufByte_afterPairs s j)
  · refine decodeFails_of_raise ?_ (obufByte_afterPairs s (s.ibufByte 0).toNat)
    rw [decodeBody_eq hc hpairs, if_pos (Nat.not_lt.2 htotal)]
  · refine decodeFails_of_raise ?_ (obufByte_afterHeader s)
    rw [decodeBody_eq hc hpairs, if_neg (not_not.2 htotal), if_pos (Nat.not_le.2 hpad)]
  · refine decodeFails_of_raise ?_ (obufByte_afterHeader s)
    rw [← toNat_eq_zero_iff] at hmismatch
    rw [decodeBody_eq hc hpairs, if_neg (not_not.2 htotal), if_neg (not_not.2 hpad), if_pos hmismatch]
  · refine decodeFails_of_raise ?_ (obufByte_afterHeader s)
    have hcount := toNat_eq_zero_iff.2 hnone
    rw [decodeBody_eq hc hpairs, if_neg (by rw [headerTotal_eq_zero hnone]; decide), if_neg (not_not.2 hpad),
      if_neg (not_not.2 (iff_of_true hcount hlen)), if_pos ⟨hcount, hpad0⟩]
    rfl
  · refine decodeFails_of_raise ?_ (obufByte_afterHeader s)
    have hcount := mt toNat_eq_zero_iff.1 hsome
    rw [decodeBody_eq hc hpairs, if_neg (not_not.2 htotal), if_neg (not_not.2 hpad),
      if_neg (not_not.2 (iff_of_false hcount hlen)), if_neg (fun h => hcount h.1), if_pos (Nat.not_le.2 hover)]

/-- Settles O57: the two cases of `decodeBody_eq` without a walk. -/
theorem decodeHandlesEmptyAndSingleEntry : Obligations.DecodeHandlesEmptyAndSingleEntry := by
  unfold Obligations.DecodeHandlesEmptyAndSingleEntry
  intro s hc hpairs hpad
  refine ⟨fun hnone hlen hpad0 => ?_, fun hone hlen hfits => ?_⟩
  · refine ⟨_, exec_of_body_val (i := .decode) (decodeBody_noEntry hc hpairs hnone hlen hpad0), fun sym => ?_, ?_⟩
    · exact (congrArg (FreqTable.at · sym) (headerTable_noEntry hnone)).trans (FreqTable.at_empty sym)
    · rw [afterHeader, hpad0, hnone]
      rfl
  · have hcount : (s.ibufByte 0).toNat = 1 := congrArg BitVec.toNat hone
    obtain ⟨t, hexec, hout, hbyte, ht⟩ := exec_decode_withOutput (decodeBody_oneEntry hc hpairs hcount hpad hlen hfits)
      (obufByte_afterHeader s) (by rw [List.length_replicate]; exact pairFreq_lt s 0)
    rw [List.length_replicate] at hout
    have hft : t.ft = headerTable s := by rw [ht]; rfl
    refine ⟨t, hexec, hout, fun a ha => ?_, fun a ha => ?_, fun sym => ?_, ht.trans ?_⟩
    · rw [hbyte, List.getElem?_replicate, if_pos ha, Option.getD_some]
    · rw [hbyte, List.getElem?_replicate, if_neg (Nat.not_lt.2 ha), Option.getD_none]
    · rw [hft, headerTable_oneEntry hcount]
    · rw [hft, afterHeader, hcount]
      rfl
end

section
/-! DECODE of two or more entries (rules R137, R141 to R143): the walk takes the codes of a message one after the other, to the end
of the message or to the end of the valid bits. -/

namespace Sys2Proof.Machine

/-! ### Paths and codes of a table (rules R93, R97) -/

section Codes

variable {ft : FreqTable} (hk : 2 ≤ nsym ft)
include hk

theorem treeKindOf_leaves : treeKindOf (leaves ft).length = .multi := by
  rw [length_leaves, treeKindOf, if_neg (by omega), if_neg (by omega)]

/-- The code of a retained symbol is its path, and not empty. -/
theorem codesOf_leadsTo {sym : Byte} (h : ft.at sym ≠ 0) : (codesOf ft).at sym ≠ [] ∧
    (treeOf ft).leadsTo (rootOf (treeRecords ft)) ((codesOf ft).at sym) sym = true := by
  obtain ⟨-, hC⟩ := codegenBody_buildTree (State.reset.writeFt ft)
  exact hC.multi (treeKindOf_leaves hk) sym h

/-- A path to a symbol is the symbol's code. -/
theorem eq_code_of_leadsTo {path : Code} {sym : Byte}
    (h : (treeOf ft).leadsTo (rootOf (treeRecords ft)) path sym = true) :
    ft.at sym ≠ 0 ∧ path = (codesOf ft).at sym := by
  have hT := treeInv_buildTree (State.reset.writeFt ft)
  have hpos : 0 < nsym ft := by omega
  obtain ⟨n, hn, hleaf, rfl⟩ := (hT.leadsTo_iff hpos).1 h
  have hsym := hT.sym_retained hleaf
  obtain ⟨m, hm, hleaf', heq⟩ := (hT.leadsTo_iff hpos).1 (codesOf_leadsTo hk hsym).2
  obtain rfl := BitVec.eq_of_toNat_eq (hT.leaf_unique hleaf hleaf' heq.symm)
  exact ⟨hsym, hT.path_unique hpos hn hm⟩

/-- Bits spell a message of retained symbols where they begin with its code bits. -/
theorem spells_iff {bits : List Bool} {msg : List Byte} :
    spells (treeOf ft) (rootOf (treeRecords ft)) bits msg ↔
      (∀ sym ∈ msg, ft.at sym ≠ 0) ∧ codeBits (codesOf ft) msg <+: bits := by
  induction msg generalizing bits with
  | nil => exact iff_of_true trivial ⟨nofun, List.nil_prefix⟩
  | cons sym msg ih =>
    rw [spells, List.forall_mem_cons, codeBits, List.flatMap_cons, ← codeBits]
    constructor
    · rintro ⟨path, rest, rfl, hpath, hrest⟩
      obtain ⟨hsym, rfl⟩ := eq_code_of_leadsTo hk hpath
      obtain ⟨hsyms, hpre⟩ := ih.1 hrest
      exact ⟨⟨hsym, hsyms⟩, (List.prefix_append_right_inj _).2 hpre⟩
    · rintro ⟨⟨hsym, hsyms⟩, rest, rfl⟩
      exact ⟨_, _, List.append_assoc _ _ _, (codesOf_leadsTo hk hsym).2, ih.2 ⟨hsyms, List.prefix_append _ _⟩⟩

/-- Bits that spell a message and then end are its code bits and a rest that reaches no Leaf. -/
theorem exists_rest_of_spellsThenEnds {bits : List Bool} {msg : List Byte}
    (h : spellsThenEnds (treeOf ft) (rootOf (treeRecords ft)) bits msg) :
    ∃ rest, bits = codeBits (codesOf ft) msg ++ rest ∧ (∀ sym ∈ msg, ft.at sym ≠ 0) ∧
      ∀ n, n ≤ rest.length → (treeOf ft).leadsToLeaf (rootOf (treeRecords ft)) (rest.take n) = false := by
  induction msg generalizing bits with
  | nil => exact ⟨bits, rfl, nofun, h⟩
  | cons sym msg ih =>
    obtain ⟨path, bits', rfl, hpath, hbits'⟩ := h
    obtain ⟨hsym, rfl⟩ := eq_code_of_leadsTo hk hpath
    obtain ⟨rest, rfl, hsyms, hend⟩ := ih hbits'
    refine ⟨rest, ?_, List.forall_mem_cons.2 ⟨hsym, hsyms⟩, hend⟩
    rw [codeBits, codeBits, List.flatMap_cons, List.append_assoc]

end Codes

/-! ### The walk over a message (rule R141) -/

/-- `s` after a walk took `n` bits and stored `msg` from OBUF offset `i` on. -/
def emitted (i : Nat) (msg : List Byte) (n : Nat) (s : State) : State :=
  { advance n s with obuf := s.obuf.writeBytes i msg }

theorem Ahead.emitted {s : State} {n : Nat} {bits : List Bool} (h : Ahead (advance n s) bits) (i : Nat) (msg : List Byte) :
    Ahead (emitted i msg n s) bits :=
  ⟨h.valid, h.inside, h.bits_eq⟩

theorem emitted_emitted (i : Nat) (sym : Byte) (msg : List Byte) (m n : Nat) (s : State) :
    emitted (i + 1) msg n (emitted i [sym] m s) = emitted i (sym :: msg) (m + n) s := by
  rw [emitted, emitted, emitted, ← advance_advance]
  rfl

/-- Along the codes of a message the walks emit the message, and as many are left as before it. -/
theorem walkSymbols_message {ct : CodeTable} (todo i : Nat) {s : State} {msg : List Byte}
    (hpaths : ∀ sym ∈ msg, s.node.leadsTo s.root (ct.at sym) sym = true) (h : Ahead s (codeBits ct msg)) :
    walkSymbols (msg.length + todo) i s =
      walkSymbols todo (i + msg.length) (emitted i msg (codeBits ct msg).length s) := by
  induction msg generalizing i s with
  | nil =>
    rw [List.length_nil, Nat.zero_add, emitted, codeBits, List.flatMap_nil, List.length_nil, advance_zero]
    rfl
  | cons sym msg ih =>
    obtain ⟨hsym, hmsg⟩ := List.forall_mem_cons.1 hpaths
    rw [codeBits, List.flatMap_cons, ← codeBits] at h ⊢
    obtain ⟨hcode, hrest⟩ := h.append
    rw [List.length_cons, Nat.add_right_comm, walkSymbols, walk_leadsTo _ hcode hsym, Run.bind_val, List.length_append,
      ← emitted_emitted, ← Nat.add_assoc, Nat.add_right_comm]
    exact ih (i + 1) (s := emitted i [sym] (ct.at sym).length s) hmsg (hrest.emitted i [sym])

/-! ### The container in IBUF (rules R43, R68, R137) -/

section Container

variable {f : Nat → Byte} {s : State} {ft : FreqTable} {pad : Nat}

theorem isHeader.headerEntry_eq (h : isHeader f ft pad) {j : Nat} {e : Byte × Word} (he : (pairs ft)[j]? = some e) :
    headerEntry f j = e := by
  obtain ⟨-, hentries, -⟩ := h
  obtain ⟨hsym, h24, h16, h8, h0⟩ := hentries j e he
  rw [headerEntry, hsym, h24, h16, h8, h0, freqOfBytes_extract]

theorem isHeader.headerTable_eq (h : isHeader s.ibufByte ft pad) : headerTable s = ft := by
  have hentries : headerEntries s.ibufByte (nsym ft) = pairs ft := by
    refine List.ext_getElem (by rw [headerEntries, List.length_map, List.length_range, nsym]) fun j hj hj' => ?_
    rw [← h.headerEntry_eq (List.getElem?_eq_getElem hj')]
    simp only [headerEntries, List.getElem_map, List.getElem_range]
  rw [headerTable, h.1, hentries, tableOf_pairs]

/-- The pairs of a table pass the checks of rule R146 row 4. -/
theorem isHeader.pairOk (h : isHeader s.ibufByte ft pad) {j : Nat} (hj : j < nsym ft) : pairOk s j := by
  have hentry {i : Nat} (hi : i < (pairs ft).length) : headerEntry s.ibufByte i = (pairs ft)[i] :=
    h.headerEntry_eq (List.getElem?_eq_getElem hi)
  have hsym {i : Nat} (hi : i < (pairs ft).length) : pairSym s i = (pairs ft)[i].1.toNat :=
    congrArg (fun e => e.1.toNat) (hentry hi)
  have hj' : j < (pairs ft).length := hj
  refine ⟨?_, mt headerEntry_eq_zero_iff.2 ?_⟩
  · rcases Nat.eq_zero_or_pos j with rfl | hpos
    · exact .inl rfl
    · rw [hsym hj', hsym (Nat.lt_of_le_of_lt (Nat.sub_le j 1) hj')]
      exact .inr (List.pairwise_iff_getElem.1 (pairs_ascending ft) _ _ _ hj' (Nat.sub_one_lt_of_lt hpos))
  · obtain ⟨-, hne⟩ := (mem_pairs ft (pairs ft)[j].1 (pairs ft)[j].2).1 (List.getElem_mem hj')
    rw [hentry hj']
    exact hne

theorem isHeader.pairsOk (h : isHeader s.ibufByte ft pad) (hin : s.inLen.toNat ≤ s.cfg.ibufSize)
    (hlen : 2 + 5 * nsym ft ≤ s.inLen.toNat) : pairsOk s := by
  refine ⟨hin, by omega, ?_, ?_⟩
  · rwa [h.1]
  · rw [h.1]
    exact fun j hj => h.pairOk hj

theorem isHeader.headerPad_eq (h : isHeader s.ibufByte ft pad) : headerPad s = pad := by
  rw [headerPad, h.1]
  exact h.2.2

theorem isHeader.payloadLen_eq (h : isHeader s.ibufByte ft pad) : payloadLen s = s.inLen.toNat - (2 + 5 * nsym ft) := by
  rw [payloadLen, h.1]

end Container

/-- IBUF holds a container of two or more entries that passes every check of rule R146 before the walk. -/
structure Walkable (s : State) (ft : FreqTable) (pad : Nat) : Prop where
  config : s.cfg.wellFormed = true
  inIbuf : s.inLen.toNat ≤ s.cfg.ibufSize
  two : 2 ≤ nsym ft
  payload : 2 + 5 * nsym ft < s.inLen.toNat
  pad_le : pad ≤ 7
  header : isHeader s.ibufByte ft pad
  fits : total ft ≤ s.cfg.obufSize

/-- DECODE before its walk: the table read, its tree rebuilt, the BitReader open on the payload (rule R137). -/
def payloadStart (s : State) (ft : FreqTable) (pad : Nat) : State :=
  { ctxClear s with
    ft := ft
    node := treeOf ft
    nnodes := BitVec.ofNat 10 (treeRecords ft).length
    root := rootOf (treeRecords ft)
    treeKind := .multi
    treeValid := true
    res0 := BitVec.ofNat 32 pad
    res1 := BitVec.ofNat 32 (nsym ft)
    brBase := BitVec.ofNat 32 (2 + 5 * nsym ft)
    brValid := BitVec.ofNat 34 (8 * (s.inLen.toNat - (2 + 5 * nsym ft)) - pad)
    brOpen := true }

/-- DECODE after the walk over the codes of `msg`, its output apart: their bits taken, the session closed (rule R141). -/
def walked (s : State) (ft : FreqTable) (pad : Nat) (msg : List Byte) : State :=
  { advance (codeBits (codesOf ft) msg).length (payloadStart s ft pad) with brOpen := false }

/-- DECODE where the payload runs out after the symbols `msg`: all bits taken, and the bytes of the output drawn (rules R142,
R143). -/
def exhausted (s : State) (ft : FreqTable) (pad : Nat) (msg : List Byte) : State :=
  drawObuf (total ft)
    { payloadStart s ft pad with obuf := s.obuf.writeBytes 0 msg, brPos := (payloadStart s ft pad).brValid }

/-- The drawn bytes lie over the symbols emitted, and those over what OBUF held. -/
theorem obufByte_exhausted (s : State) (ft : FreqTable) (pad : Nat) (msg : List Byte) (a : Nat) :
    (exhausted s ft pad msg).obufByte a =
      if a < total ft then Config.freeByte (s.draws + a) else (msg[a]?).getD (s.obufByte a) := by
  have hdrawn := obufByte_of_writeBytes_zero (t := exhausted s ft pad msg) (s := { payloadStart s ft pad with
    obuf := s.obuf.writeBytes 0 msg, brPos := (payloadStart s ft pad).brValid }) rfl rfl a
  have hemitted := obufByte_of_writeBytes_zero (s := s) (t := { payloadStart s ft pad with
    obuf := s.obuf.writeBytes 0 msg, brPos := (payloadStart s ft pad).brValid }) rfl rfl a
  rw [hdrawn, hemitted, List.getElem?_map]
  by_cases ha : a < total ft
  · rw [if_pos ha, List.getElem?_range ha]
    rfl
  · rw [if_neg ha, List.getElem?_eq_none (by rw [List.length_range]; omega)]
    rfl

namespace Walkable

variable {s : State} {ft : FreqTable} {pad : Nat} (h : Walkable s ft pad)
include h

theorem openPayload_eq : openPayload (nsym ft) pad (s.inLen.toNat - (2 + 5 * nsym ft)) (afterHeader s) =
    payloadStart s ft pad := by
  have hkind := treeKindOf_leaves h.two
  rw [payloadStart, ← hkind, afterHeader, h.header.headerTable_eq]
  rfl

/-- Past its checks DECODE walks as many symbols as the table counts. -/
theorem decodeBody_eq : decodeBody s = closePayload (total ft) (walkSymbols (total ft) 0 (payloadStart s ft pad)) := by
  obtain ⟨-, -, hobuf⟩ := Config.sizes_of_wellFormed h.config
  have hk := h.two
  have hfits := h.fits
  have hpayload := h.payload
  have hpairs := h.header.pairsOk h.inIbuf h.payload.le
  have htotal : headerTotal s = total ft := by rw [← total_headerTable hpairs, h.header.headerTable_eq]
  rw [Machine.decodeBody_eq h.config hpairs, htotal, h.header.headerPad_eq, h.header.payloadLen_eq, h.header.1,
    if_neg (by omega), if_neg (not_not.2 h.pad_le), if_neg (by omega), if_neg (by omega), if_neg (by omega), if_neg (by omega),
    if_neg (by omega), decodeWalk_eq, h.openPayload_eq]

theorem treeInv_payloadStart : (payloadStart s ft pad).TreeInv :=
  (treeInv_buildTree (s.writeFt ft)).congr rfl rfl rfl rfl (treeKindOf_leaves h.two).symm

theorem toNat_brValid : (payloadStart s ft pad).brValid.toNat = 8 * (s.inLen.toNat - (2 + 5 * nsym ft)) - pad := by
  obtain ⟨⟨-, hibuf⟩, -⟩ := Config.sizes_of_wellFormed h.config
  have hin := h.inIbuf
  exact Nat.mod_eq_of_lt (by omega)

theorem length_payloadBits : (payloadBits s (nsym ft) pad).length = (payloadStart s ft pad).brValid.toNat := by
  rw [h.toNat_brValid, payloadBits, List.length_map, List.length_range]

/-- The valid payload bits are ahead, and they are all the valid bits. -/
theorem ahead_payloadBits : Ahead (payloadStart s ft pad) (payloadBits s (nsym ft) pad) := by
  have hk := nsym_le ft
  have hin := h.inIbuf
  have hpayload := h.payload
  have hbase : (payloadStart s ft pad).brBase.toNat = 2 + 5 * nsym ft := Nat.mod_eq_of_lt (by omega)
  have hbits : upcoming (payloadStart s ft pad) (payloadStart s ft pad).brValid.toNat = payloadBits s (nsym ft) pad := by
    rw [h.toNat_brValid, upcoming, payloadBits]
    refine List.map_congr_left fun p _ => ?_
    rw [readerBit, hbase, show (payloadStart s ft pad).brPos.toNat = 0 from rfl, Nat.zero_add]
    rfl
  rw [← hbits]
  refine ahead_upcoming (Nat.zero_add _).le ?_
  rw [hbase, h.toNat_brValid]
  show _ ≤ 8 * s.cfg.ibufSize
  omega

/-- DECODE walks over a message whose code bits the payload begins with. -/
theorem walkSymbols_payload {msg : List Byte} {rest : List Bool} (hsyms : ∀ sym ∈ msg, ft.at sym ≠ 0)
    (hbits : payloadBits s (nsym ft) pad = codeBits (codesOf ft) msg ++ rest) (todo : Nat) :
    Ahead (payloadStart s ft pad) (codeBits (codesOf ft) msg) ∧
      Ahead (emitted 0 msg (codeBits (codesOf ft) msg).length (payloadStart s ft pad)) rest ∧
      walkSymbols (msg.length + todo) 0 (payloadStart s ft pad) =
        walkSymbols todo msg.length (emitted 0 msg (codeBits (codesOf ft) msg).length (payloadStart s ft pad)) := by
  obtain ⟨hcodes, hrest⟩ := (hbits ▸ h.ahead_payloadBits).append
  have hwalk := walkSymbols_message todo 0 (fun sym hmem => (codesOf_leadsTo h.two (hsyms sym hmem)).2) hcodes
  rw [Nat.zero_add] at hwalk
  exact ⟨hcodes, hrest.emitted 0 msg, hwalk⟩

/-- Where the payload begins with the code bits of a message as long as the table counts, the walk over them emits it. -/
theorem decodeBody_emits {msg : List Byte} (hmsg : msg.length = total ft)
    (hspells : spells (treeOf ft) (rootOf (treeRecords ft)) (payloadBits s (nsym ft) pad) msg) :
    decodeBody s = .val () (withOutput msg (walked s ft pad msg)) ∧
      Ahead (payloadStart s ft pad) (codeBits (codesOf ft) msg) := by
  obtain ⟨hsyms, rest, hbits⟩ := (spells_iff h.two).1 hspells
  obtain ⟨hcodes, -, hwalk⟩ := h.walkSymbols_payload hsyms hbits.symm 0
  refine ⟨?_, hcodes⟩
  rw [h.decodeBody_eq, ← hmsg, ← Nat.add_zero msg.length, hwalk]
  rfl

/-- Where the payload is the code bits of a message and a rest that reaches no Leaf, the walk after the message raises. -/
theorem decodeBody_runsOut {msg : List Byte} (hmsg : msg.length < total ft)
    (hspells : spellsThenEnds (treeOf ft) (rootOf (treeRecords ft)) (payloadBits s (nsym ft) pad) msg) :
    decodeBody s = .raise .corruptStream (BitVec.ofNat 32 msg.length) (exhausted s ft pad msg) := by
  obtain ⟨todo, htotal⟩ := Nat.exists_eq_add_of_lt hmsg
  obtain ⟨rest, hbits, hsyms, hend⟩ := exists_rest_of_spellsThenEnds h.two hspells
  obtain ⟨hcodes, hrest, hwalk⟩ := h.walkSymbols_payload hsyms hbits (todo + 1)
  have hall : (emitted 0 msg (codeBits (codesOf ft) msg).length (payloadStart s ft pad)).brPos.toNat + rest.length =
      (payloadStart s ft pad).brValid.toNat := by
    rw [← h.length_payloadBits, hbits, List.length_append]
    exact congrArg (· + rest.length) (hcodes.brPos_advance.trans (Nat.zero_add _))
  have hraise := walk_runsOut (s := emitted 0 msg (codeBits (codesOf ft) msg).length (payloadStart s ft pad))
    (BitVec.ofNat 32 msg.length) (h.treeInv_payloadStart.congr rfl rfl rfl rfl rfl) (Nat.zero_lt_of_lt h.two) hrest hall hend
  have hwalks : walkSymbols (total ft) 0 (payloadStart s ft pad) = .raise .corruptStream (BitVec.ofNat 32 msg.length)
      { emitted 0 msg (codeBits (codesOf ft) msg).length (payloadStart s ft pad) with
        brPos := (payloadStart s ft pad).brValid } := by
    rw [htotal, Nat.add_assoc, hwalk, walkSymbols, hraise]
    rfl
  rw [h.decodeBody_eq, hwalks]
  rfl

end Walkable

end Sys2Proof.Machine
end

section
open Sys2Proof Sys2Proof.Machine

/-- Settles O58: the payload begins with the code bits of the message, which are the bits taken. -/
theorem decodeEmitsTheSpelledMessage : Obligations.DecodeEmitsTheSpelledMessage := by
  unfold Obligations.DecodeEmitsTheSpelledMessage
  intro s ft pad msg hc hin hk _ hpayload hpad hheader hmsg hfits hspells
  have hw : Walkable s ft pad := ⟨hc, hin, hk, hpayload, hpad, hheader, hfits⟩
  obtain ⟨-, -, hobuf⟩ := Config.sizes_of_wellFormed hc
  obtain ⟨hbody, hcodes⟩ := hw.decodeBody_emits hmsg hspells
  obtain ⟨t, hexec, hout, hbyte, ht⟩ := exec_decode_withOutput hbody rfl (by omega)
  obtain ⟨m, n, rfl⟩ : ∃ m n, t = { walked s ft pad msg with busy := false, done := true, obuf := m, outLen := n } :=
    ⟨_, _, ht⟩
  have hpos := hcodes.brPos_advance.trans (Nat.zero_add _)
  refine ⟨_, hexec, hout, fun a ha => ?_, fun a ha => ?_, hw.treeInv_payloadStart.congr rfl rfl rfl rfl rfl, rfl,
    hw.toNat_brValid, hpos, hcodes.brPos_advance.trans_le hcodes.valid, rfl⟩
  · rw [hbyte, List.getElem?_eq_getElem ha, Option.getD_some]
  · rw [hbyte, List.getElem?_eq_none ha, Option.getD_none]

/-- Settles O59: the drawn bytes cover the symbols emitted, and nothing else changes from where the next walk raises. -/
theorem decodeReportsAnExhaustedPayload : Obligations.DecodeReportsAnExhaustedPayload := by
  unfold Obligations.DecodeReportsAnExhaustedPayload
  intro s ft pad msg hc hin hk _ hpayload hpad hheader hmsg hfits hspells
  have hw : Walkable s ft pad := ⟨hc, hin, hk, hpayload, hpad, hheader, hfits⟩
  refine ⟨_, exec_of_body_raise (i := .decode) (hw.decodeBody_runsOut hmsg hspells),
    hw.treeInv_payloadStart.congr rfl rfl rfl rfl rfl, hw.toNat_brValid, fun a ha => ?_, fun a ha => ?_, rfl⟩
  · exact (obufByte_exhausted s ft pad msg a).trans (if_pos ha)
  · refine (obufByte_exhausted s ft pad msg a).trans ((if_neg (Nat.not_lt.2 ha)).trans ?_)
    rw [List.getElem?_eq_none (hmsg.le.trans ha), Option.getD_none]
end

section
/-! The round trip (rule R144): a container in IBUF, whose table counts its message, decodes to the message, and an ENCODE without
error leaves such a container. -/

namespace Sys2Proof.Machine

/-! ### The container as DECODE reads it (rules R68, R70, R112) -/

/-- A header is the bytes up to its padding count. -/
theorem isHeader.congr {f g : Nat → Byte} {ft : FreqTable} {pad : Nat} (h : isHeader f ft pad)
    (hfg : ∀ a, a < 2 + 5 * nsym ft → g a = f a) : isHeader g ft pad := by
  obtain ⟨hcount, hentries, hpad⟩ := h
  refine ⟨?_, fun j e he => ?_, ?_⟩
  · rw [hfg 0 (by omega), hcount]
  · have hj : j < nsym ft := (List.getElem?_eq_some_iff.1 he).1
    rw [hfg _ (by omega), hfg _ (by omega), hfg _ (by omega), hfg _ (by omega), hfg _ (by omega)]
    exact hentries j e he
  · rw [hfg _ (by omega), hpad]

theorem isContainer.congr {f g : Nat → Byte} {len : Nat} {ft : FreqTable} {ct : CodeTable} {msg : List Byte}
    (h : isContainer f len ft ct msg) (hfg : ∀ a, a < len → g a = f a) : isContainer g len ft ct msg := by
  obtain ⟨hheader, hbits, hlen⟩ := h
  refine ⟨hheader.congr fun a ha => hfg a (by omega), fun j hj i hi => ?_, hlen⟩
  rw [hfg _ (by omega)]
  exact hbits j hj i hi

/-- The valid payload bits behind `n` pairs are the bits the payload holds. -/
theorem payloadBits_of_holdsBits {s : State} {n : Nat} {w : List Bool} (h : holdsBits s.ibufByte (2 + 5 * n) w)
    (hlen : s.inLen.toNat = 2 + 5 * n + ceil8 w.length) : payloadBits s n (padOf w.length) = w := by
  have hcount : 8 * (s.inLen.toNat - (2 + 5 * n)) - padOf w.length = w.length := by
    rw [hlen, Nat.add_sub_cancel_left, eight_mul_ceil8, Nat.add_sub_cancel]
  refine List.ext_getElem (by rw [payloadBits, List.length_map, List.length_range, hcount]) fun p _ hp => ?_
  have hbyte : p / 8 < ceil8 w.length := by
    unfold ceil8
    omega
  have hbit := h (p / 8) hbyte (p % 8) (Nat.mod_lt p (by decide))
  rw [Nat.div_add_mod, List.getD_eq_getElem _ _ hp] at hbit
  simp only [payloadBits, List.getElem_map, List.getElem_range]
  exact hbit

/-! ### The codes of a message (rules R31, R70) -/

theorem codesOf_len_ne_zero {ft : FreqTable} {sym : Byte} (h : ft.at sym ≠ 0) : (codesOf ft).len sym ≠ 0 := by
  obtain ⟨-, hC⟩ := codegenBody_buildTree (State.reset.writeFt ft)
  exact hC.len_ne_zero ((treeInv_buildTree (State.reset.writeFt ft)).congr rfl rfl rfl rfl rfl) h

/-- A message of retained symbols has at least as many code bits as symbols. -/
theorem length_le_length_codeBits {ft : FreqTable} {msg : List Byte} (h : ∀ sym ∈ msg, ft.at sym ≠ 0) :
    msg.length ≤ (codeBits (codesOf ft) msg).length := by
  rw [length_codeBits, ← List.length_map (codesOf ft).len]
  refine List.length_le_sum_of_one_le _ fun n hn => ?_
  obtain ⟨sym, hsym, rfl⟩ := List.mem_map.1 hn
  exact Nat.one_le_iff_ne_zero.2 (codesOf_len_ne_zero (h sym hsym))

section Counted

variable {ft : FreqTable} {msg : List Byte} (hcount : ∀ sym, (ft.at sym).toNat = msg.count sym)
include hcount

theorem retained_iff_of_counts {sym : Byte} : ft.at sym ≠ 0 ↔ sym ∈ msg := by
  rw [← List.count_pos_iff, ← hcount, Nat.pos_iff_ne_zero, ne_eq, ne_eq, ← BitVec.toNat_inj]
  rfl

theorem eq_nil_iff_of_counts : msg = [] ↔ nsym ft = 0 := by
  constructor
  · rintro rfl
    by_contra hne
    obtain ⟨sym, hsym⟩ := exists_retained hne
    exact List.not_mem_nil ((retained_iff_of_counts hcount).1 hsym)
  · intro h
    refine List.eq_nil_iff_forall_not_mem.2 fun sym hmem => ?_
    exact (retained_iff_of_counts hcount).2 hmem (at_eq_zero_of_nsym_eq_zero h sym)

end Counted

/-! ### DECODE of a container (rules R137 to R141, R144) -/

/-- IBUF holds the container of a message that fits OBUF, made with the table that counts the message. -/
structure HoldsContainer (u : State) (ft : FreqTable) (msg : List Byte) : Prop where
  config : u.cfg.wellFormed = true
  inIbuf : u.inLen.toNat ≤ u.cfg.ibufSize
  container : isContainer u.ibufByte u.inLen.toNat ft (codesOf ft) msg
  counts : ∀ sym, (ft.at sym).toNat = msg.count sym
  fewSyms : nsym ft ≤ 255
  fits : msg.length ≤ u.cfg.obufSize

/-- DECODE in `u` completes without an error of its own, with the output `msg`. -/
def Decodes (u : State) (msg : List Byte) : Prop :=
  ∃ v, exec .decode u = .next v ∧ v.err = u.err ∧ v.outLen.toNat = msg.length ∧
    ∀ a (h : a < msg.length), v.obufByte a = msg[a]

namespace HoldsContainer

variable {u : State} {ft : FreqTable} {msg : List Byte} (h : HoldsContainer u ft msg)
include h

theorem header : isHeader u.ibufByte ft (padOf (codeBits (codesOf ft) msg).length) := h.container.1

theorem inLen_eq : u.inLen.toNat = 2 + 5 * nsym ft + ceil8 (codeBits (codesOf ft) msg).length := h.container.2.2

theorem total_eq : total ft = msg.length := total_eq_length_of_counts h.counts

theorem pairsOk : pairsOk u := h.header.pairsOk h.inIbuf (h.inLen_eq ▸ Nat.le_add_right _ _)

theorem headerPad_le : headerPad u ≤ 7 := h.header.headerPad_eq ▸ padOf_le _

theorem payloadLen_eq : payloadLen u = ceil8 (codeBits (codesOf ft) msg).length := by
  rw [h.header.payloadLen_eq, h.inLen_eq, Nat.add_sub_cancel_left]

theorem retained {sym : Byte} (hsym : sym ∈ msg) : ft.at sym ≠ 0 := (retained_iff_of_counts h.counts).2 hsym

/-- A message has a payload. -/
theorem payloadLen_pos (hne : nsym ft ≠ 0) : 0 < payloadLen u := by
  have hpos := List.length_pos_iff.2 (mt (eq_nil_iff_of_counts h.counts).1 hne)
  have hbits := length_le_length_codeBits fun _ => h.retained
  rw [h.payloadLen_eq, ceil8]
  omega

theorem decodes_noEntry (h0 : nsym ft = 0) : Decodes u msg := by
  obtain rfl := (eq_nil_iff_of_counts h.counts).2 h0
  obtain ⟨hempty, -⟩ := decodeHandlesEmptyAndSingleEntry u h.config h.pairsOk h.headerPad_le
  have hlen : payloadLen u = 0 := by
    rw [h.payloadLen_eq, codeBits, List.flatMap_nil]
    rfl
  have hpad : headerPad u = 0 := by
    rw [h.header.headerPad_eq, codeBits, List.flatMap_nil]
    rfl
  obtain ⟨v, hexec, -, hv⟩ := hempty (toNat_eq_zero_iff.1 (h.header.1.trans h0)) hlen hpad
  refine ⟨v, hexec, ?_, ?_, nofun⟩
  · rw [hv]
    rfl
  · rw [hv]
    rfl

theorem decodes_oneEntry (h1 : nsym ft = 1) : Decodes u msg := by
  have hcount : (u.ibufByte 0).toNat = 1 := h.header.1.trans h1
  have hfreq : pairFreq u 0 = msg.length := by
    rw [← headerTotal_oneEntry hcount, ← total_headerTable h.pairsOk, h.header.headerTable_eq, h.total_eq]
  have hsym {sym : Byte} (hmem : sym ∈ msg) : u.ibufByte 1 = sym := by
    by_contra hne
    have hat := headerTable_oneEntry hcount sym
    rw [h.header.headerTable_eq, if_neg (Ne.symm hne)] at hat
    exact h.retained hmem (BitVec.eq_of_toNat_eq hat)
  obtain ⟨-, hone⟩ := decodeHandlesEmptyAndSingleEntry u h.config h.pairsOk h.headerPad_le
  obtain ⟨v, hexec, hout, hbytes, -, -, hv⟩ := hone (BitVec.eq_of_toNat_eq hcount)
    (Nat.ne_of_gt (h.payloadLen_pos (by omega))) (hfreq ▸ h.fits)
  refine ⟨v, hexec, ?_, hout.trans hfreq, fun a ha => ?_⟩
  · rw [hv]
    rfl
  · exact (hbytes a (hfreq ▸ ha)).trans (hsym (List.getElem_mem ha))

theorem decodes_twoEntries (h2 : 2 ≤ nsym ft) : Decodes u msg := by
  obtain ⟨-, hbits, hlen⟩ := h.container
  have hpayload := h.payloadLen_pos (by omega)
  rw [h.header.payloadLen_eq] at hpayload
  have hspells : spells (treeOf ft) (rootOf (treeRecords ft))
      (payloadBits u (nsym ft) (padOf (codeBits (codesOf ft) msg).length)) msg := by
    rw [payloadBits_of_holdsBits hbits hlen]
    exact (spells_iff h2).2 ⟨fun _ => h.retained, List.prefix_rfl⟩
  obtain ⟨v, hexec, hout, hbytes, -, -, -, -, -, -, hv⟩ := decodeEmitsTheSpelledMessage u ft _ msg h.config h.inIbuf h2
    h.fewSyms (by omega) (padOf_le _) h.header h.total_eq.symm (h.total_eq.trans_le h.fits) hspells
  refine ⟨v, hexec, ?_, hout, fun a ha => ?_⟩
  · rw [hv]
    rfl
  · exact Option.some.inj ((hbytes a ha).trans (List.getElem?_eq_getElem ha))

/-- DECODE gives back the message, by the three cases on N. -/
theorem decodes : Decodes u msg := by
  rcases Nat.lt_or_ge (nsym ft) 2 with hlt | h2
  · obtain h0 | h1 : nsym ft = 0 ∨ nsym ft = 1 := by omega
    · exact h.decodes_noEntry h0
    · exact h.decodes_oneEntry h1
  · exact h.decodes_twoEntries h2

end HoldsContainer

/-! ### ENCODE without error (rules R127, R128) -/

/-- A command that raised an error shows it. -/
theorem err_of_body_raise {i : Instr} {s t u : State} {e : Err} {info : Word} (h : body i s = .raise e info u)
    (ht : exec i s = .next t) : t.err = true := by
  obtain rfl := Host.Outcome.next.inj ((exec_of_body_raise h).symm.trans ht)
  rfl

/-- An ENCODE that ends without error passed its checks. -/
theorem encode_checks {s t : State} (h : exec .encode s = .next t) (herr : t.err = false) :
    s.inLen.toNat ≤ s.cfg.ibufSize ∧ nsym (inputTable s) ≤ 255 ∧
      containerSize (inputTable s) (codesOf (inputTable s)) ≤ s.cfg.obufSize := by
  have hno {e : Err} {info : Word} {u : State} : ¬ body .encode s = .raise e info u := fun hraise =>
    Bool.false_ne_true (herr.symm.trans (err_of_body_raise hraise h))
  have hin : s.inLen.toNat ≤ s.cfg.ibufSize := by
    by_contra hlong
    exact hno (body_of_longInput (by decide) (Nat.lt_of_not_le hlong))
  have hk : nsym (inputTable s) ≤ 255 := by
    by_contra hk
    exact hno ((encodeBody_eq hin).trans (if_pos hk))
  refine ⟨hin, hk, ?_⟩
  by_contra hfits
  exact hno ((encodeBody_eq hin).trans ((if_neg (not_not.2 hk)).trans (if_pos hfits)))

end Sys2Proof.Machine
end

section
open Sys2Proof Sys2Proof.Machine

/-- Settles O60: ENCODE left the container of its input, and DECODE reads the same bytes. -/
theorem decodeOfEncodeIsTheInput : Obligations.DecodeOfEncodeIsTheInput := by
  unfold Obligations.DecodeOfEncodeIsTheInput
  intro s t u hc _ hexec herr hcu herru hlen hin hfits hbytes
  obtain ⟨hin', hk, hsize⟩ := encode_checks hexec herr
  obtain ⟨t', hexec', hft, hct, -, -, -, -, hcontainer, hcounts, -⟩ := encodeWritesTheContainer s hc hin' hk hsize
  obtain rfl := Host.Outcome.next.inj (hexec'.symm.trans hexec)
  rw [hct] at hcontainer
  have hmsg := length_inputBytes s
  have hu : HoldsContainer u t'.ft s.inputBytes := by
    refine ⟨hcu, hlen ▸ hin, ?_, hcounts, hft ▸ hk, hmsg ▸ hfits⟩
    rw [hlen]
    exact hcontainer.congr hbytes
  obtain ⟨v, hdecode, hverr, hout, hv⟩ := hu.decodes
  refine ⟨v, hdecode, hverr.trans herru, BitVec.eq_of_toNat_eq (hout.trans hmsg), fun a ha => ?_⟩
  rw [hv a (hmsg ▸ ha)]
  simp only [State.inputBytes, List.getElem_map, List.getElem_range]
end

section
/-! Errors and the FATAL state (rules R152 to R154, R160, R163): which error each pseudocode can end in, and what
a FATAL block keeps of the error registers. -/

namespace Sys2Proof.Machine

/-! ### Which errors a run can end in -/

/-- Every error the run can end in is listed in `es`; the fatal error is InternalInvariantViolation (rule R154). -/
def Run.raisesIn {α : Type} (es : List Err) : Run α → Prop
  | .val _ _ => True
  | .raise e _ _ => e ∈ es
  | .fatal _ _ => .internalInvariantViolation ∈ es
  | .stop _ => True

/-! The procedures the commands share, under the errors of each that the list `es` has to hold. -/

section Shared
variable {es : List Err}

theorem Run.raisesIn_bind {α β : Type} {r : Run α} {k : α → State → Run β} (hr : r.raisesIn es)
    (hk : ∀ a s, (k a s).raisesIn es) : (r.bind k).raisesIn es := by
  cases r with
  | val a s => exact hk a s
  | raise e info s => exact hr
  | fatal info s => exact hr
  | stop f => exact hr

theorem Run.raisesIn_ite {α : Type} {c : Prop} [Decidable c] {r q : Run α} (hr : r.raisesIn es) (hq : q.raisesIn es) :
    (if c then r else q).raisesIn es := by
  split
  · exact hr
  · exact hq

/-- A check (`require`, rule R9) raises its error or lets the rest run. -/
theorem Run.raisesIn_check {α : Type} {c : Prop} [Decidable c] {e : Err} {info : Word} {s : State} {r : Run α} (he : e ∈ es)
    (hr : r.raisesIn es) : (if c then .raise e info s else r).raisesIn es :=
  Run.raisesIn_ite he hr

theorem putbit_raisesIn (hover : .outputOverflow ∈ es) (b : Bool) (s : State) : (putbit b s).raisesIn es :=
  Run.raisesIn_check hover (Run.raisesIn_ite (Run.raisesIn_ite trivial trivial) trivial)

theorem putbits_raisesIn (hover : .outputOverflow ∈ es) (bs : List Bool) (s : State) : (putbits bs s).raisesIn es := by
  induction bs generalizing s with
  | nil => trivial
  | cons b bs ih => exact Run.raisesIn_bind (putbit_raisesIn hover b s) fun _ t => ih t

theorem putSymbols_raisesIn (hover : .outputOverflow ∈ es) (bs : List Byte) (s : State) : (putSymbols bs s).raisesIn es := by
  induction bs generalizing s with
  | nil => trivial
  | cons b bs ih => exact Run.raisesIn_bind (putbits_raisesIn hover _ s) fun _ t => ih t

theorem finalise_raisesIn (s : State) : (finalise s).raisesIn es :=
  Run.raisesIn_ite trivial (Run.raisesIn_ite trivial trivial)

theorem getbit_raisesIn (s : State) : (getbit s).raisesIn es := Run.raisesIn_ite trivial trivial

theorem walkFrom_raisesIn (hcorrupt : .corruptStream ∈ es) (hfatal : .internalInvariantViolation ∈ es) (info : Word)
    (fuel : Nat) (n : NodeIdx) (s : State) : (walkFrom info fuel n s).raisesIn es := by
  induction fuel generalizing n s with
  | zero =>
    unfold walkFrom
    split
    · trivial
    · split
      · trivial
      · exact hcorrupt
  | succ fuel ih =>
    unfold walkFrom
    split
    · trivial
    · split
      · trivial
      · refine Run.raisesIn_bind (getbit_raisesIn s) fun b t => ?_
        exact Run.raisesIn_ite hfatal (ih _ t)

theorem walk_raisesIn (hcorrupt : .corruptStream ∈ es) (hfatal : .internalInvariantViolation ∈ es) (info : Word)
    (s : State) : (walk info s).raisesIn es :=
  walkFrom_raisesIn hcorrupt hfatal info _ _ s

theorem codegenBody_raisesIn {s : State} (hseq : s.treeValid = false → .badSequence ∈ es)
    (hfatal : .internalInvariantViolation ∈ es) : (codegenBody s).raisesIn es := by
  unfold codegenBody
  split
  case isTrue hv => exact hseq hv
  case isFalse =>
    cases s.treeKind with
    | none => trivial
    | single => cases s.node.at? s.root <;> trivial
    | multi =>
      cases traverse s.node traverseBound [(s.root, [])] CodeTable.empty with
      | finished ct => trivial
      | oneChild n ct => exact hfatal
      | stopped f => trivial

theorem readPairs_raisesIn (hheader : .corruptHeader ∈ es) (todo j : Nat) (prev : Option Byte) (s : State) :
    (readPairs todo j prev s).raisesIn es := by
  induction todo generalizing j prev s with
  | zero => trivial
  | succ todo ih => exact Run.raisesIn_check hheader (Run.raisesIn_check hheader (ih _ _ _))

theorem walkSymbols_raisesIn (hcorrupt : .corruptStream ∈ es) (hfatal : .internalInvariantViolation ∈ es) (todo i : Nat)
    (s : State) : (walkSymbols todo i s).raisesIn es := by
  induction todo generalizing i s with
  | zero => trivial
  | succ todo ih => exact Run.raisesIn_bind (walk_raisesIn hcorrupt hfatal _ s) fun _ _ => ih _ _

theorem closePayload_raisesIn {m : Nat} {r : Run Unit} (h : r.raisesIn es) : (closePayload m r).raisesIn es := by
  cases r with
  | val a s => trivial
  | raise e info s => exact h
  | fatal info s => exact h
  | stop f => trivial

end Shared

/-! ### The commands (rule R163) -/

theorem freqBody_raisesIn (s : State) : (freqBody s).raisesIn (errorsOf .freq) :=
  Run.raisesIn_check (by decide) trivial

theorem bwInitBody_raisesIn (s : State) : (bwInitBody s).raisesIn (errorsOf .bwInit) :=
  Run.raisesIn_check (by decide) trivial

theorem bwPutbBody_raisesIn (s : State) : (bwPutbBody s).raisesIn (errorsOf .bwPutb) :=
  Run.raisesIn_check (by decide) (putbit_raisesIn (by decide) _ s)

theorem bwPutsBody_raisesIn (s : State) : (bwPutsBody s).raisesIn (errorsOf .bwPuts) :=
  Run.raisesIn_check (by decide) (Run.raisesIn_check (by decide) (putbits_raisesIn (by decide) _ s))

theorem bwPutsymBody_raisesIn (s : State) : (bwPutsymBody s).raisesIn (errorsOf .bwPutsym) := by
  have hcode : (putcode (bwPutsymSym s) s).raisesIn (errorsOf .bwPutsym) := putbits_raisesIn (by decide) _ s
  unfold bwPutsymBody
  iterate 3 refine Run.raisesIn_check (by decide) ?_
  exact Run.raisesIn_bind hcode fun _ _ => trivial

theorem bwFinalBody_raisesIn (s : State) : (bwFinalBody s).raisesIn (errorsOf .bwFinal) :=
  Run.raisesIn_check (by decide) (Run.raisesIn_bind (finalise_raisesIn s) fun _ _ => trivial)

theorem brInitBody_raisesIn (s : State) : (brInitBody s).raisesIn (errorsOf .brInit) := by
  unfold brInitBody
  iterate 4 refine Run.raisesIn_check (by decide) ?_
  trivial

theorem brGetbBody_raisesIn (s : State) : (brGetbBody s).raisesIn (errorsOf .brGetb) := by
  unfold brGetbBody
  iterate 2 refine Run.raisesIn_check (by decide) ?_
  exact Run.raisesIn_bind (getbit_raisesIn s) fun _ _ => trivial

theorem brGetsymBody_raisesIn (s : State) : (brGetsymBody s).raisesIn (errorsOf .brGetsym) := by
  unfold brGetsymBody
  iterate 3 refine Run.raisesIn_check (by decide) ?_
  exact Run.raisesIn_bind (walk_raisesIn (by decide) (by decide) _ s) fun _ _ => trivial

theorem encodeContainer_raisesIn (s : State) : (encodeContainer s).raisesIn (errorsOf .encode) :=
  Run.raisesIn_bind (putSymbols_raisesIn (by decide) _ _) fun _ t =>
    Run.raisesIn_bind (finalise_raisesIn t) fun _ _ => trivial

/-- ENCODE runs CODEGEN's pseudocode on the tree it has just built, so BadSequence cannot come (rule R127). -/
theorem encodeBody_raisesIn (s : State) : (encodeBody s).raisesIn (errorsOf .encode) := by
  have hcodes : (codegenBody (analyseInput s)).raisesIn (errorsOf .encode) :=
    codegenBody_raisesIn (fun hv => Bool.noConfusion hv) (by decide)
  unfold encodeBody
  refine Run.raisesIn_check (by decide) (Run.raisesIn_bind hcodes fun _ t => ?_)
  iterate 2 refine Run.raisesIn_check (by decide) ?_
  exact encodeContainer_raisesIn t

theorem decodeWalk_raisesIn (n pad paylen m : Nat) (s : State) : (decodeWalk n pad paylen m s).raisesIn (errorsOf .decode) := by
  rw [decodeWalk_eq]
  exact closePayload_raisesIn (walkSymbols_raisesIn (by decide) (by decide) _ _ _)

theorem decodePayload_raisesIn (n : Nat) (last : Option Byte) (s : State) :
    (decodePayload n last s).raisesIn (errorsOf .decode) := by
  unfold decodePayload
  iterate 5 refine Run.raisesIn_check (by decide) ?_
  exact Run.raisesIn_ite trivial (Run.raisesIn_ite trivial (decodeWalk_raisesIn _ _ _ _ _))

theorem decodeBody_raisesIn (s : State) : (decodeBody s).raisesIn (errorsOf .decode) := by
  unfold decodeBody
  iterate 3 refine Run.raisesIn_check (by decide) ?_
  exact Run.raisesIn_bind (readPairs_raisesIn (by decide) _ _ _ _) fun last t => decodePayload_raisesIn _ last t

/-- No pseudocode ends in an error that the table of rule R163 does not give its command. -/
theorem body_raisesIn (i : Instr) (s : State) : (body i s).raisesIn (errorsOf i) := by
  cases i with
  | nop => trivial
  | clear => trivial
  | freq => exact freqBody_raisesIn s
  | build => trivial
  | codegen => exact codegenBody_raisesIn (fun _ => by decide) (by decide)
  | bwInit => exact bwInitBody_raisesIn s
  | bwPutb => exact bwPutbBody_raisesIn s
  | bwPuts => exact bwPutsBody_raisesIn s
  | bwPutsym => exact bwPutsymBody_raisesIn s
  | bwFinal => exact bwFinalBody_raisesIn s
  | brInit => exact brInitBody_raisesIn s
  | brGetb => exact brGetbBody_raisesIn s
  | brGetsym => exact brGetsymBody_raisesIn s
  | encode => exact encodeBody_raisesIn s
  | decode => exact decodeBody_raisesIn s

/-- An error that completes ENCODE or DECODE sets `out_len` to 0 (rule R153). -/
theorem takeError_outLen_of_wholeOperation {i : Instr} (hi : i = .encode ∨ i = .decode) (e : Err) (info : Word) (s : State) :
    (takeError (isWholeOperation i) e info s).outLen = 0 := by
  obtain rfl | rfl := hi <;> rfl

/-! ### The FATAL state (rule R154) -/

/-- A FATAL block drops a write to CMD, and no other register write reaches BUSY, ERRCODE or ERRINFO (rules R17, R18). -/
theorem writeReg_of_fatal {s : State} (hf : s.fatal = true) (o : Nat) (v : Word) :
    (writeReg o v s).busy = s.busy ∧ (writeReg o v s).errcode = s.errcode ∧ (writeReg o v s).errinfo = s.errinfo := by
  unfold writeReg
  split
  case h_1 =>
    rw [writeCmd, if_pos hf]
    exact ⟨rfl, rfl, rfl⟩
  all_goals exact ⟨rfl, rfl, rfl⟩

/-- No host access to a FATAL block writes BUSY, ERRCODE or ERRINFO (rule R18). -/
theorem AccessEffect.of_fatal {s t : State} (h : AccessEffect s t) (hf : s.fatal = true) :
    t.busy = s.busy ∧ t.errcode = s.errcode ∧ t.errinfo = s.errinfo := by
  cases h with
  | violation a => cases a <;> exact ⟨rfl, rfl, rfl⟩
  | register o v _ => exact writeReg_of_fatal hf o v
  | answered v => exact ⟨rfl, rfl, rfl⟩
  | frequency ft => exact ⟨rfl, rfl, rfl⟩
  | inputByte a v _ => exact ⟨rfl, rfl, rfl⟩
  | outputByte a v _ => exact ⟨rfl, rfl, rfl⟩

/-! ### The interrupt (rule R160) -/

theorem irq_eq_true_iff (s : State) :
    irq s = true ↔ (s.ieDone = true ∧ s.done = true) ∨ (s.ieErr = true ∧ (s.err = true ∨ s.fatal = true)) := by
  simp only [irq, Bool.or_eq_true, Bool.and_eq_true]

theorem getLsbD_statusWord_irq (s : State) : (statusWord s).getLsbD 5 = irq s := by
  rw [getLsbD_statusWord]
  simp

end Sys2Proof.Machine
end

section
open Sys2Proof Sys2Proof.Machine

/-- Settles O25: the turn of a block that is not BUSY does nothing, and no host access writes a FATAL block's
error registers. -/
theorem fatalBlockIsFrozenUntilReset : Obligations.FatalBlockIsFrozenUntilReset := by
  unfold Obligations.FatalBlockIsFrozenUntilReset
  intro s t hf hb hreset h
  obtain ⟨es, -, hs⟩ | ⟨a, es, -, hs⟩ | ⟨es, hes, -⟩ := step_cases s
  · rw [hs, sequencerTurn_idle (s := { s with inputs := es }) hb] at h
    cases h
    exact ⟨hf, hb, rfl, rfl⟩
  · have heffect := hostAccess_effect a { s with inputs := es }
    obtain ⟨hfatal, -⟩ := heffect.marks
    obtain ⟨hbusy, hcode, hinfo⟩ := heffect.of_fatal hf
    cases hs.symm.trans h
    exact ⟨hfatal.trans hf, hbusy.trans hb, hcode, hinfo⟩
  · exact absurd (by rw [hes]; rfl) hreset

/-- Settles O26: the pseudocode leaves the error registers as they were, and only the two completions that set `err` write
them. -/
theorem completionClearsBusyAndSetsDone : Obligations.CompletionClearsBusyAndSetsDone := by
  unfold Obligations.CompletionClearsBusyAndSetsDone
  intro i s t h _
  obtain ⟨u, hu, hend⟩ := exec_next h
  have hfatal : u.fatal = s.fatal := hu.get State.fatal
  have hclear (h0 : s.fatal = false) (h1 : u.fatal = true) : False := Bool.false_ne_true ((hfatal.trans h0).symm.trans h1)
  obtain rfl | ⟨e, info, rfl⟩ | ⟨info, rfl⟩ := hend
  · exact ⟨rfl, rfl, fun _ => ⟨hu.get State.errcode, hu.get State.errinfo, hfatal⟩, fun h0 h1 => (hclear h0 h1).elim⟩
  · exact ⟨rfl, rfl, fun h => Bool.noConfusion h, fun h0 h1 => (hclear h0 h1).elim⟩
  · exact ⟨rfl, rfl, fun h => Bool.noConfusion h, fun _ _ => ⟨rfl, rfl⟩⟩

/-- Settles O27: `err` comes from a raise or the fatal error, which `body_raisesIn` finds in the command's row of rule R163. -/
theorem eachCommandReportsOnlyItsErrors : Obligations.EachCommandReportsOnlyItsErrors := by
  unfold Obligations.EachCommandReportsOnlyItsErrors
  intro i s t herr h ht
  have hframe := body_sameFrame i s
  have hraises := body_raisesIn i s
  rw [exec_eq_finish] at h
  obtain ⟨u, hu, rfl⟩ | ⟨e, info, u, hu, rfl⟩ | ⟨info, u, hu, rfl⟩ := finish_next h <;> rw [hu] at hframe hraises
  · have hkeep : u.err = s.err := hframe.get State.err
    exact absurd ((hkeep.trans herr).symm.trans ht) Bool.false_ne_true
  · exact ⟨⟨e, hraises, rfl⟩, fun hi => takeError_outLen_of_wholeOperation hi e info u⟩
  · exact ⟨⟨_, hraises, rfl⟩, fun _ => rfl⟩

/-- Settles O13: the equation of rule R160, and bit 5 of STATUS by `getLsbD_statusWord`. -/
theorem interruptFollowsTheEnabledSources : Obligations.InterruptFollowsTheEnabledSources := by
  unfold Obligations.InterruptFollowsTheEnabledSources
  intro s
  exact ⟨irq_eq_true_iff s, getLsbD_statusWord_irq s, fun hie hf => (irq_eq_true_iff s).2 (.inr ⟨hie, .inr hf⟩)⟩
end
